-- ==== Sys2Proof/Word.lean ====
section
/-! DEFINITION. The word types of KSTC. Spec 00_scope.md R11: a byte is 8 bits, every quantity is unsigned. -/

namespace Sys2Proof

/-- One byte, 8 bits (R11). -/
abbrev Byte := BitVec 8

/-- A 16-bit value: a node id or a data spec (R27, R28). -/
abbrev Half := BitVec 16

/-- A 32-bit value: a CRC register (R21, R25). -/
abbrev Word := BitVec 32

/-- A 64-bit transfer id (R29). -/
abbrev Tid := BitVec 64

/-- A 14-bit service id (R9 `SERVICE_ID_W`, R74). -/
abbrev ServiceId := BitVec 14

/-- A 15-bit subject id (R9 `SUBJECT_ID_W`, R74). -/
abbrev SubjectId := BitVec 15

end Sys2Proof
end

