-- ==== Sys2Proof/Config.lean ====
section
/-! DEFINITION. The constants every instance of KSTC shares, the parameters one instance fixes, and the free
values the spec leaves open (spec 00_scope.md R9 and R10; 92_eei_decisions.md D5, D23, D24, D32). -/

namespace Sys2Proof

namespace Config

/-- `FRAME_DELIMITER` (R9). -/
def frameDelimiter : Byte := 0x9E

/-- `ESCAPE_PREFIX` (R9). -/
def escapeByte : Byte := 0x8E

/-- `HEADER_SIZE` (R9): the bytes of the header, its CRC included. -/
def headerSize : Nat := 32

/-- `CRC_SIZE` (R9): the bytes of a checksum. -/
def crcSize : Nat := 4

/-- `FRAME_VERSION` (R9): the required header byte 0. -/
def frameVersion : Byte := 0x00

/-- `EOT_MARKER` (R9): the required header bytes 24 to 27, in order. -/
def eotMarker : List Byte := [0x00, 0x00, 0x00, 0x80]

/-- `NODE_ID_ANON` (R9): no identity, or broadcast. -/
def nodeIdAnon : Half := 0xFFFF

/-- `PRIORITY_DEFAULT` (R9). -/
def priorityDefault : Byte := 7

/-- `CRC_INIT` (R9, decision D6). PRESUMED by the spec itself (its general knowledge item G2); log entry 9. -/
def crcInit : Word := 0xFFFFFFFF

/-- `CRC_XOROUT` (R9). -/
def crcXorOut : Word := 0xFFFFFFFF

/-- The Castagnoli polynomial in reflected form, the default of `CRC_POLY` (R9, decision D5). PRESUMED by the
spec itself (its general knowledge item G1); log entry 9. -/
def castagnoli : Word := 0x82F63B78

/-- FREE VALUE (93_implementation_defined.md U13). What an entry of `N.resp_buf` holds that nothing has written
since the hardware reset of the given number (first argument), by index (second argument). Log entry 5. -/
opaque respUnwritten : Nat → Nat → Byte

/-- FREE VALUE (20_memory.md R60, 93_implementation_defined.md U1). What a holder reads through a payload view
after its window: by hardware reset, view, age of the view and index. Log entry 6. -/
opaque lateViewByte : Nat → Nat → Nat → Nat → Byte

end Config

/-- The parameters of an instance (R9, R44; 93_implementation_defined.md U15). They are constants of the
instance (R39): State carries them so that every claim holds for all their values, and no step writes them. -/
structure Params where
  /-- `MAX_PAYLOAD`, open (decision D32). -/
  maxPayload : Nat
  /-- `RESP_CAP`, the capacity of `N.resp_buf` (decision D23). -/
  respCap : Nat
  /-- `POLL_BUDGET`, the most bytes one `NODE.POLL` takes (R203, decision D24). -/
  pollBudget : Nat
  /-- `CRC_POLY`, in reflected form (R111, decision D5). -/
  crcPoly : Word
  deriving DecidableEq, Repr

/-- `BUF_CAP = MAX_PAYLOAD + CRC_SIZE` (R9, R10): the capacity of `P.buf`. -/
def Params.bufCap (c : Params) : Nat := c.maxPayload + Config.crcSize

/-- How many bits it takes to write a number, by halving it; the first argument bounds the recursion. -/
def bitsFor : Nat → Nat → Nat
  | 0, _ => 0
  | fuel + 1, n => if n = 0 then 0 else bitsFor fuel (n / 2) + 1

/-- `OFF_W` (R9, decision D8): the width of `P.offset`, the least `w` with `2^w > HEADER_SIZE + BUF_CAP`. That it is
the least is `Params.lt_two_pow_iff` of Laws/Config.lean. -/
def Params.offW (c : Params) : Nat := bitsFor (Config.headerSize + c.bufCap) (Config.headerSize + c.bufCap)

/-- The polynomial has degree 32 (R111): `CRC_POLY[31] = 1`. -/
def Params.legal (c : Params) : Bool := c.crcPoly.getLsbD 31

/-- The instance that has the given `MAX_PAYLOAD` and the spec's default for every other parameter (R9). -/
def Params.withMax (m : Nat) : Params :=
  { maxPayload := m, respCap := m, pollBudget := 3 * m, crcPoly := Config.castagnoli }

/-- The instance `State.reset` describes. DESIGN CHOICE, log entry 1: the spec leaves `MAX_PAYLOAD` open, and 16
is the value its test vectors use. -/
def Params.default : Params := Params.withMax 16

end Sys2Proof
end

