-- ==== Sys2Proof/Syntax.lean ====
section
/-! DEFINITION. The instructions of KSTC: one constructor per row of spec/opcode_table.json. Spec 00_scope.md R4
names the kinds: the operations a host issues, the stream symbols the parser decodes, the decoding rules a DATA
symbol selects by offset, and the classes the node decodes from a completed transfer (30_encoding.md R86). -/

namespace Sys2Proof

/-- A transfer record (R14, R30), also the operand of `ENC.ENCODE` (R82). Its `len` is the length of `payload`. -/
structure Transfer where
  pri     : Byte
  src     : Half
  dst     : Half
  dspec   : Half
  tid     : Tid
  payload : List Byte
  deriving DecidableEq, Repr

/-- The instructions, in the order of spec/opcode_table.json. -/
inductive Instr where
  -- the twelve operations, by command code (R81)
  | crcReset
  | crcUpdate (b : Byte)
  | crcValue
  | crcResidueOk
  | parseReset
  | parseUpdate (b : Byte)
  | encEncode (t : Transfer)
  | nodePoll (time : BitVec 64)
  | nodeSendRequest (service : ServiceId) (server : Half) (tid : Tid) (payload : List Byte)
  | nodeCancelRequest
  | nodePublish (subject : SubjectId) (tid : Tid) (payload : List Byte)
  | nodeSetId (id : Half)
  -- the three stream symbols, by wire byte (R76)
  | symDelim
  | symEsc
  | symData (b : Byte)
  -- the ten decoding rules a DATA symbol selects by offset (R131, R141); `k` is the byte within the field
  | hdrVersion (e : Byte)
  | hdrPriority (e : Byte)
  | hdrSource (k : Fin 2) (e : Byte)
  | hdrDestination (k : Fin 2) (e : Byte)
  | hdrDataSpec (k : Fin 2) (e : Byte)
  | hdrReserved (k : Fin 8) (e : Byte)
  | hdrTransferId (k : Fin 8) (e : Byte)
  | hdrEotMarker (k : Fin 4) (e : Byte)
  | hdrCrc (k : Fin 4) (e : Byte)
  | payloadStore (i : Nat) (e : Byte)
  -- the three classes of a completed transfer, by data spec (R73)
  | classResponse (t : Transfer)
  | classRequest (t : Transfer)
  | classMessage (t : Transfer)
  deriving DecidableEq, Repr

end Sys2Proof
end

