-- ==== Sys2Proof/Machine/Operands.lean ====
section
/-! DEFINITION. The operand forms of KSTC: byte order and byte lanes (20_memory.md R51, 30_encoding.md R72), the
symbol a wire byte is (R76), the rule an offset selects (R131), the class and ids of a data spec (R73, R74), the
escape form (R77) and the 28 header bytes of a transfer (42_encoder.md R164). Nothing here reads the state. -/

namespace Sys2Proof.Machine

/-! ### Bytes of a value -/

/-- Byte lane `k` of a value: `v[8k+7:8k]` (R11). -/
def lane {w : Nat} (v : BitVec w) (k : Nat) : Byte := v.extractLsb' (8 * k) 8

/-- The value with byte lane `k` replaced and every other lane kept (R72). -/
def setLane {w : Nat} (v : BitVec w) (k : Nat) (e : Byte) : BitVec w :=
  (v &&& ~~~((0xFF#8).setWidth w <<< (8 * k))) ||| (e.setWidth w <<< (8 * k))

/-- `le16` (R11): the two bytes of a value, least significant first. -/
def le16 (v : Half) : List Byte := [lane v 0, lane v 1]

/-- `le32` (R11). -/
def le32 (v : Word) : List Byte := [lane v 0, lane v 1, lane v 2, lane v 3]

/-- `le64` (R11). -/
def le64 (v : Tid) : List Byte :=
  [lane v 0, lane v 1, lane v 2, lane v 3, lane v 4, lane v 5, lane v 6, lane v 7]

/-- The 16-bit value of two bytes, least significant first (R51). -/
def of16 (b0 b1 : Byte) : Half := b1 ++ b0

/-- The 64-bit value of eight bytes, least significant first (R51). -/
def of64 (b0 b1 b2 b3 b4 b5 b6 b7 : Byte) : Tid := b7 ++ b6 ++ b5 ++ b4 ++ b3 ++ b2 ++ b1 ++ b0

/-! ### Stream symbols -/

/-- The symbols of the inbound stream (R76). -/
inductive Symbol where
  | delim
  | esc
  | data
  deriving DecidableEq, Repr

/-- The symbol a wire byte is, tested in the order of R76. It never depends on the state. -/
def symbolOf (b : Byte) : Symbol :=
  if b = Config.frameDelimiter then .delim
  else if b = Config.escapeByte then .esc
  else .data

/-! ### Offset selections -/

/-- The decoding rules a DATA symbol selects by offset (R131), with the byte within the field, and the buffer
index `offset - 32` in the payload region (R141). -/
inductive OffsetRule where
  | version
  | priority
  | source (k : Fin 2)
  | destination (k : Fin 2)
  | dataSpec (k : Fin 2)
  | reserved (k : Fin 8)
  | transferId (k : Fin 8)
  | eotMarker (k : Fin 4)
  | headerCrc (k : Fin 4)
  | payload (i : Nat)
  deriving DecidableEq, Repr

/-- The rule that decodes the logical byte at an offset of the frame (R131, R141). -/
def offsetRule (o : Nat) : OffsetRule :=
  if o = 0 then .version
  else if o = 1 then .priority
  else if h : o < 4 then .source ⟨o - 2, by omega⟩
  else if h : o < 6 then .destination ⟨o - 4, by omega⟩
  else if h : o < 8 then .dataSpec ⟨o - 6, by omega⟩
  else if h : o < 16 then .reserved ⟨o - 8, by omega⟩
  else if h : o < 24 then .transferId ⟨o - 16, by omega⟩
  else if h : o < 28 then .eotMarker ⟨o - 24, by omega⟩
  else if h : o < 32 then .headerCrc ⟨o - 28, by omega⟩
  else .payload (o - Config.headerSize)

/-- The required marker byte at header offset `24 + k` (R139). -/
def eotByte (k : Fin 4) : Byte := Config.eotMarker.getD k.val 0

/-! ### Data spec -/

/-- The classes of a completed transfer (R73). -/
inductive DataClass where
  | response
  | request
  | message
  deriving DecidableEq, Repr

/-- `classify` (R181): by the top two bits of the data spec. -/
def classify (d : Half) : DataClass :=
  if d.getLsbD 15 then (if d.getLsbD 14 then .response else .request) else .message

/-- `service_of(d) = d[13:0]` (R74, R182). -/
def serviceOf (d : Half) : ServiceId := d.setWidth 14

/-- The subject id of a message, `d[14:0]` (R73, R182). -/
def subjectOf (d : Half) : SubjectId := d.setWidth 15

/-- The data spec of a request: `0x8000 OR zext_16(service)` (R74). -/
def requestSpec (service : ServiceId) : Half := 0x8000#16 ||| service.setWidth 16

/-- The data spec of a response: `0xC000 OR zext_16(service)` (R74). -/
def responseSpec (service : ServiceId) : Half := 0xC000#16 ||| service.setWidth 16

/-- The data spec of a message: `zext_16(subject)` (R74). -/
def messageSpec (subject : SubjectId) : Half := subject.setWidth 16

/-! ### The escape form and the header -/

/-- Whether a logical byte goes out in the escape form: it equals a control byte (R77, R163). -/
def needsEscape (v : Byte) : Bool := v == Config.frameDelimiter || v == Config.escapeByte

/-- The logical ("effective") byte of a data symbol: complemented if an escape is pending (R129). -/
def effectiveByte (unesc : Bool) (b : Byte) : Byte := if unesc then ~~~b else b

/-- The 28 header bytes `H[0..27]` before the header CRC (R161, R164). -/
def headerBytes (t : Transfer) : List Byte :=
  [Config.frameVersion, t.pri] ++ le16 t.src ++ le16 t.dst ++ le16 t.dspec
    ++ [0, 0, 0, 0, 0, 0, 0, 0] ++ le64 t.tid ++ Config.eotMarker

end Sys2Proof.Machine
end

