-- ==== Sys2Proof/WellFormed.lean ====
section
/-! DEFINITION. Which terms of Instr stand for a selection the spec makes. The operand widths and the field
positions are in the types; what remains is the condition a symbol or a class puts on its operand. -/

namespace Sys2Proof

/-- A DATA symbol is a wire byte other than the two control bytes (R76); a class row is selected for a transfer
whose data spec is of that class (R185). Every other term is well formed. -/
def Instr.wellFormed : Instr → Bool
  | .symData b => b != Config.frameDelimiter && b != Config.escapeByte
  | .classResponse t => Machine.classify t.dspec == .response
  | .classRequest t => Machine.classify t.dspec == .request
  | .classMessage t => Machine.classify t.dspec == .message
  | .crcReset | .crcUpdate _ | .crcValue | .crcResidueOk => true
  | .parseReset | .parseUpdate _ => true
  | .encEncode _ => true
  | .nodePoll _ | .nodeSendRequest _ _ _ _ | .nodeCancelRequest | .nodePublish _ _ _ | .nodeSetId _ => true
  | .symDelim | .symEsc => true
  | .hdrVersion _ | .hdrPriority _ | .hdrSource _ _ | .hdrDestination _ _ | .hdrDataSpec _ _ => true
  | .hdrReserved _ _ | .hdrTransferId _ _ | .hdrEotMarker _ _ | .hdrCrc _ _ => true
  | .payloadStore _ _ => true

/-- The payload length the precondition of R82 and R169 bounds by `MAX_PAYLOAD`, for the operations that have it. -/
def Instr.operandLength : Instr → Option Nat
  | .encEncode t => some t.payload.length
  | .nodeSendRequest _ _ _ payload => some payload.length
  | .nodePublish _ _ payload => some payload.length
  | .crcReset | .crcUpdate _ | .crcValue | .crcResidueOk => none
  | .parseReset | .parseUpdate _ => none
  | .nodePoll _ | .nodeCancelRequest | .nodeSetId _ => none
  | .symDelim | .symEsc | .symData _ => none
  | .hdrVersion _ | .hdrPriority _ | .hdrSource _ _ | .hdrDestination _ _ | .hdrDataSpec _ _ => none
  | .hdrReserved _ _ | .hdrTransferId _ _ | .hdrEotMarker _ _ | .hdrCrc _ _ => none
  | .payloadStore _ _ => none
  | .classResponse _ | .classRequest _ | .classMessage _ => none

/-- Whether an operation meets its stated precondition on an instance: `len <= MAX_PAYLOAD` (R82, R169). -/
def Instr.admitted (c : Params) (i : Instr) : Bool :=
  match i.operandLength with
  | some n => decide (n ≤ c.maxPayload)
  | none => true

end Sys2Proof
end

