-- ==== Sys2Proof/Decode.lean ====
section
/-! DEFINITION. The decoder of every selection KSTC makes and, after it, the encoder (30_encoding.md R76, R81 to
R83, R86). The opcode table has four encoding spaces, so an encoded instruction says which space it stands in: a
command with its operand bytes, a wire byte, a header or payload offset with its logical byte, or a completed
transfer selected by its data spec. -/

namespace Sys2Proof

/-! ### The command codes -/

/-- The twelve operations a command code selects (R81). -/
inductive Opcode where
  | crcReset
  | crcUpdate
  | crcValue
  | crcResidueOk
  | parseReset
  | parseUpdate
  | encEncode
  | nodePoll
  | nodeSendRequest
  | nodeCancelRequest
  | nodePublish
  | nodeSetId
  deriving DecidableEq, Repr

/-- The unit number `cmd[7:4]` of an operation (R81). -/
def Opcode.unit : Opcode → BitVec 4
  | .crcReset | .crcUpdate | .crcValue | .crcResidueOk => 0
  | .parseReset | .parseUpdate => 1
  | .encEncode => 2
  | .nodePoll | .nodeSendRequest | .nodeCancelRequest | .nodePublish | .nodeSetId => 3

/-- The function number `cmd[3:0]` of an operation (R81). -/
def Opcode.function : Opcode → BitVec 4
  | .crcReset => 0
  | .crcUpdate => 1
  | .crcValue => 2
  | .crcResidueOk => 3
  | .parseReset => 0
  | .parseUpdate => 1
  | .encEncode => 0
  | .nodePoll => 0
  | .nodeSendRequest => 1
  | .nodeCancelRequest => 2
  | .nodePublish => 3
  | .nodeSetId => 4

/-- The command code of an operation (R81). -/
def Opcode.code (op : Opcode) : Byte := op.unit ++ op.function

/-- The operations in the order of the table of R81. -/
def Opcode.all : List Opcode :=
  [.crcReset, .crcUpdate, .crcValue, .crcResidueOk, .parseReset, .parseUpdate, .encEncode,
   .nodePoll, .nodeSendRequest, .nodeCancelRequest, .nodePublish, .nodeSetId]

/-- The operation a command code selects, none for a reserved code (R83). -/
def opcodeOf (code : Byte) : Option Opcode := Opcode.all.find? fun op => op.code == code

/-! ### Encoded instructions -/

/-- An encoded instruction, by encoding space (the four formats of spec/opcode_table.json). -/
inductive Encoded where
  /-- `CMD8`: a command code and the operand bytes that arrive with it (R81, R82). -/
  | command (code : Byte) (operands : List Byte)
  /-- `WIRE8`: a wire byte (R76). -/
  | wire (b : Byte)
  /-- `HDR_OFFSET`: an offset of the frame and the logical byte there (R131). -/
  | offset (o : Nat) (e : Byte)
  /-- `DSPEC16`: a completed transfer, selected by its data spec (R185). -/
  | dataSpec (t : Transfer)
  deriving DecidableEq, Repr

/-- Why an encoded instruction is rejected. -/
inductive DecodeError where
  /-- The command code is reserved (R83). -/
  | reservedCommand (code : Byte)
  /-- The operand bytes are too few, too many, or hold a value wider than the operand (R81, R82, decision D18). -/
  | badOperands (op : Opcode)
  deriving DecidableEq, Repr

/-! ### Decoding -/

/-- An operation without operands (R81). -/
def decodeBare (op : Opcode) (i : Instr) : List Byte → Except DecodeError Instr
  | [] => .ok i
  | _ :: _ => .error (.badOperands op)

/-- An operation whose operand is one byte (R81). -/
def decodeByteOperand (op : Opcode) (f : Byte → Instr) : List Byte → Except DecodeError Instr
  | [b] => .ok (f b)
  | _ => .error (.badOperands op)

/-- The operands of `ENC.ENCODE` (R81). -/
def decodeEncode : List Byte → Except DecodeError Instr
  | pri :: s0 :: s1 :: d0 :: d1 :: p0 :: p1 :: t0 :: t1 :: t2 :: t3 :: t4 :: t5 :: t6 :: t7 :: payload =>
    .ok (.encEncode
      { pri := pri
        src := Machine.of16 s0 s1
        dst := Machine.of16 d0 d1
        dspec := Machine.of16 p0 p1
        tid := Machine.of64 t0 t1 t2 t3 t4 t5 t6 t7
        payload := payload })
  | _ => .error (.badOperands .encEncode)

/-- The operand of `NODE.POLL` (R81). -/
def decodePoll : List Byte → Except DecodeError Instr
  | [t0, t1, t2, t3, t4, t5, t6, t7] => .ok (.nodePoll (Machine.of64 t0 t1 t2 t3 t4 t5 t6 t7))
  | _ => .error (.badOperands .nodePoll)

/-- The operands of `NODE.SEND_REQUEST`; a service id has 14 bits (R81, decision D18). -/
def decodeSendRequest : List Byte → Except DecodeError Instr
  | v0 :: v1 :: s0 :: s1 :: t0 :: t1 :: t2 :: t3 :: t4 :: t5 :: t6 :: t7 :: payload =>
    if (Machine.of16 v0 v1).toNat < 2 ^ 14 then
      .ok (.nodeSendRequest ((Machine.of16 v0 v1).setWidth 14) (Machine.of16 s0 s1)
        (Machine.of64 t0 t1 t2 t3 t4 t5 t6 t7) payload)
    else .error (.badOperands .nodeSendRequest)
  | _ => .error (.badOperands .nodeSendRequest)

/-- The operands of `NODE.PUBLISH`; a subject id has 15 bits (R81, decision D18). -/
def decodePublish : List Byte → Except DecodeError Instr
  | v0 :: v1 :: t0 :: t1 :: t2 :: t3 :: t4 :: t5 :: t6 :: t7 :: payload =>
    if (Machine.of16 v0 v1).toNat < 2 ^ 15 then
      .ok (.nodePublish ((Machine.of16 v0 v1).setWidth 15) (Machine.of64 t0 t1 t2 t3 t4 t5 t6 t7) payload)
    else .error (.badOperands .nodePublish)
  | _ => .error (.badOperands .nodePublish)

/-- The operand of `NODE.SET_ID` (R81). -/
def decodeSetId : List Byte → Except DecodeError Instr
  | [i0, i1] => .ok (.nodeSetId (Machine.of16 i0 i1))
  | _ => .error (.badOperands .nodeSetId)

/-- The instruction of an operation and its operand bytes. No source fixes how operands are carried (decision
D34); the layout is the model's, DESIGN CHOICE, log entry 3: the operands of R81 in the order listed there, each
least significant byte first, a service id and a subject id in 16 bits whose upper bits are 0, and the payload
as all the bytes that remain, so that `len` is their number. -/
def decodeOperands (op : Opcode) (operands : List Byte) : Except DecodeError Instr :=
  match op with
  | .crcReset => decodeBare op .crcReset operands
  | .crcUpdate => decodeByteOperand op .crcUpdate operands
  | .crcValue => decodeBare op .crcValue operands
  | .crcResidueOk => decodeBare op .crcResidueOk operands
  | .parseReset => decodeBare op .parseReset operands
  | .parseUpdate => decodeByteOperand op .parseUpdate operands
  | .encEncode => decodeEncode operands
  | .nodePoll => decodePoll operands
  | .nodeSendRequest => decodeSendRequest operands
  | .nodeCancelRequest => decodeBare op .nodeCancelRequest operands
  | .nodePublish => decodePublish operands
  | .nodeSetId => decodeSetId operands

/-- The instruction a command code and its operand bytes select; a reserved code is rejected (R81, R83). -/
def decodeCommand (code : Byte) (operands : List Byte) : Except DecodeError Instr :=
  match opcodeOf code with
  | some op => decodeOperands op operands
  | none => .error (.reservedCommand code)

/-- The symbol instruction a wire byte selects; every byte selects one (R76). -/
def decodeWire (b : Byte) : Instr :=
  match Machine.symbolOf b with
  | .delim => .symDelim
  | .esc => .symEsc
  | .data => .symData b

/-- The decoding instruction the logical byte at an offset selects; every offset selects one (R131, R141). -/
def decodeOffset (o : Nat) (e : Byte) : Instr :=
  match Machine.offsetRule o with
  | .version => .hdrVersion e
  | .priority => .hdrPriority e
  | .source k => .hdrSource k e
  | .destination k => .hdrDestination k e
  | .dataSpec k => .hdrDataSpec k e
  | .reserved k => .hdrReserved k e
  | .transferId k => .hdrTransferId k e
  | .eotMarker k => .hdrEotMarker k e
  | .headerCrc k => .hdrCrc k e
  | .payload i => .payloadStore i e

/-- The class instruction a completed transfer selects; every data spec selects one (R73, R185). -/
def decodeTransfer (t : Transfer) : Instr :=
  match Machine.classify t.dspec with
  | .response => .classResponse t
  | .request => .classRequest t
  | .message => .classMessage t

/-- The instruction an encoded instruction stands for. Only the command space can reject. -/
def decode : Encoded → Except DecodeError Instr
  | .command code operands => decodeCommand code operands
  | .wire b => .ok (decodeWire b)
  | .offset o e => .ok (decodeOffset o e)
  | .dataSpec t => .ok (decodeTransfer t)

/-! ### Encoding -/

/-- The encoding of an instruction, from the command table of R81, the symbols of R76, the header offsets of R71
and the data specs of R73. -/
def encode : Instr → Encoded
  | .crcReset => .command 0x00 []
  | .crcUpdate b => .command 0x01 [b]
  | .crcValue => .command 0x02 []
  | .crcResidueOk => .command 0x03 []
  | .parseReset => .command 0x10 []
  | .parseUpdate b => .command 0x11 [b]
  | .encEncode t => .command 0x20
      ([t.pri] ++ Machine.le16 t.src ++ Machine.le16 t.dst ++ Machine.le16 t.dspec ++ Machine.le64 t.tid ++ t.payload)
  | .nodePoll time => .command 0x30 (Machine.le64 time)
  | .nodeSendRequest service server tid payload => .command 0x31
      (Machine.le16 (service.setWidth 16) ++ Machine.le16 server ++ Machine.le64 tid ++ payload)
  | .nodeCancelRequest => .command 0x32 []
  | .nodePublish subject tid payload => .command 0x33
      (Machine.le16 (subject.setWidth 16) ++ Machine.le64 tid ++ payload)
  | .nodeSetId id => .command 0x34 (Machine.le16 id)
  | .symDelim => .wire 0x9E
  | .symEsc => .wire 0x8E
  | .symData b => .wire b
  | .hdrVersion e => .offset 0 e
  | .hdrPriority e => .offset 1 e
  | .hdrSource k e => .offset (2 + k) e
  | .hdrDestination k e => .offset (4 + k) e
  | .hdrDataSpec k e => .offset (6 + k) e
  | .hdrReserved k e => .offset (8 + k) e
  | .hdrTransferId k e => .offset (16 + k) e
  | .hdrEotMarker k e => .offset (24 + k) e
  | .hdrCrc k e => .offset (28 + k) e
  | .payloadStore i e => .offset (32 + i) e
  | .classResponse t => .dataSpec t
  | .classRequest t => .dataSpec t
  | .classMessage t => .dataSpec t

/-! ### Words of the opcode table -/

/-- How many operand bytes of zeros make the shortest operands of an operation. -/
def Opcode.operandBytes : Opcode → Nat
  | .crcReset | .crcValue | .crcResidueOk | .parseReset | .nodeCancelRequest => 0
  | .crcUpdate | .parseUpdate => 1
  | .encEncode => 15
  | .nodePoll => 8
  | .nodeSendRequest => 12
  | .nodePublish => 10
  | .nodeSetId => 2

/-- The encoded instruction a word of spec/opcode_table.json stands for. A word of 8 bits is a command code with
operands of zeros or, where the code is reserved, a wire byte (the table's rows of 8 bits, in its order). A word of 16
bits is the data spec of a transfer whose other fields are zero. The table gives an offset row no word: 24 bits,
the offset in the lower 16 and the logical byte above them, is the model's form (log entry 3). -/
def tableEncoding (nbits w : Nat) : Option Encoded :=
  if nbits = 8 then
    match opcodeOf (BitVec.ofNat 8 w) with
    | some op => some (.command op.code (List.replicate op.operandBytes 0))
    | none => some (.wire (BitVec.ofNat 8 w))
  else if nbits = 16 then
    some (.dataSpec { pri := 0, src := 0, dst := 0, dspec := BitVec.ofNat 16 w, tid := 0, payload := [] })
  else if nbits = 24 then
    some (.offset (w % 2 ^ 16) (BitVec.ofNat 8 (w / 2 ^ 16)))
  else none

/-- The instruction the decoder reads from an instruction whose bits are `w`. -/
def decodeTableWord (nbits w : Nat) : Option Instr :=
  match tableEncoding nbits w with
  | some enc => (decode enc).toOption
  | none => none

end Sys2Proof
end

