-- ==== Sys2Proof/Machine/State.lean ====
section
/-! DEFINITION. The state of KSTC: the tuple `(U, P, N)` of 10_state.md R20, the result an operation returned, and,
each marked as the model's own, the instance's parameters, the environment's answers, the observed traces and the
window of the payload view last handed out. All of it is plain data. -/

namespace Sys2Proof.Machine

/-! ### Memory -/

/-- A byte array as the entries written in it, addresses strictly rising (R41). An unlisted address reads as no
value: the contents after power-on are unspecified (R31, R34, decision D12; log entry 4). -/
abbrev Memory := List Host.Cell

/-- The canonical form: addresses strictly rising. No entry can equal what an unlisted address reads as, since
that is no value. -/
def Memory.wf : Memory → Bool
  | [] => true
  | [_] => true
  | a :: b :: rest => decide (a.1 < b.1) && Memory.wf (b :: rest)

/-! ### The units -/

/-- The parser `P` (R22 to R31). -/
structure Parser where
  /-- `P.inside`, 1 bit: inside a frame (R22). -/
  inside : Bool
  /-- `P.unesc`, 1 bit: an escape is pending (R23). -/
  unesc  : Bool
  /-- `P.offset`, `OFF_W` bits: logical bytes of this frame consumed so far (R24). Its width depends on the instance,
  so it is a Nat whose one increment is taken modulo `2 ^ OFF_W` (`nextOffset`); log entry 7. -/
  offset : Nat
  /-- `P.crc`, 32 bits: the running CRC register (R25). -/
  crc    : Word
  /-- `P.pri`, 8 bits (R26). -/
  pri    : Byte
  /-- `P.src`, 16 bits (R27). -/
  src    : Half
  /-- `P.dst`, 16 bits (R27). -/
  dst    : Half
  /-- `P.dspec`, 16 bits (R28). -/
  dspec  : Half
  /-- `P.tid`, 64 bits (R29). -/
  tid    : Tid
  /-- `P.buf`, `BUF_CAP` bytes (R31). -/
  buf    : Memory
  deriving DecidableEq, Repr

/-- The node orchestrator `N` (R32 to R34). -/
structure Node where
  /-- `N.local_id`, 16 bits: the local identity, `0xFFFF` for none (R32). -/
  localId     : Half
  /-- `N.pend_valid`, 1 bit: a request is outstanding (R33). -/
  pendValid   : Bool
  /-- `N.pend_server`, 16 bits (R33). -/
  pendServer  : Half
  /-- `N.pend_service`, 14 bits (R33). -/
  pendService : ServiceId
  /-- `N.pend_tid`, 64 bits (R33). -/
  pendTid     : Tid
  /-- `N.resp_buf`, `RESP_CAP` bytes (R34). -/
  respBuf     : Memory
  deriving DecidableEq, Repr

/-- What the operation that ran last returned (R81, the column of results). -/
inductive Result where
  /-- The operation returns nothing. -/
  | none
  /-- 32 bits (`CRC.VALUE`). -/
  | word (v : Word)
  /-- One bit: `CRC.RESIDUE_OK`, and the `ok` of the sending operations. -/
  | bit (b : Bool)
  /-- `none` or `some(Transfer)` (`PARSE.UPDATE`). The payload is a copy; `State.view` keeps the window (R255). -/
  | transfer (t : Option Transfer)
  deriving DecidableEq, Repr

/-- MODEL's own: the window of the payload view last handed out (R60). -/
structure View where
  /-- How many views were handed out before this one. -/
  serial : Nat
  /-- `len` of the transfer the view belongs to. -/
  len    : Nat
  /-- `PARSE.UPDATE` steps since the one that emitted the transfer. -/
  age    : Nat
  deriving DecidableEq, Repr

/-! ### The environment (R236, R237): MODEL's own fields -/

/-- What the host presents at the command port, or does to the block, at one moment. -/
inductive Presentation where
  /-- One instruction. On the hardware it is a command (R242); the other encoding spaces let one selection be run
  on its own, log entry 2. -/
  | op (enc : Encoded)
  /-- Two operations at once (R260). -/
  | simultaneous (first second : Encoded)
  /-- The hardware reset (R250). -/
  | hardwareReset
  deriving DecidableEq, Repr

/-- How the reactor answers one call of `processResponse`, which has no result (R240). -/
inductive ResponseAnswer where
  /-- It returned. -/
  | returned
  /-- It invoked a KSTC operation before returning (R202). -/
  | reentered
  deriving DecidableEq, Repr

/-- How the reactor answers one call of `processRequest` (R241). -/
inductive RequestAnswer where
  /-- It wrote these entries of `N.resp_buf`, in order, and returned `none` or `some(len)`. -/
  | returned (writes : List Host.Cell) (len : Option Nat)
  /-- It invoked a KSTC operation before returning (R202). -/
  | reentered
  deriving DecidableEq, Repr

/-- The environment: what it will present and answer, in order. Where a list has run out the answer is the one
log entry 8 names. -/
structure Env where
  /-- What the host presents, next first. -/
  host       : List Presentation
  /-- The answers of `rx_take()`, next first; `none` is "nothing available" (R238). -/
  rx         : List (Option Byte)
  /-- The answers of `offer`, next first; true is `accept` (R239). -/
  tx         : List Bool
  /-- The answers of `processResponse`, next first. -/
  onResponse : List ResponseAnswer
  /-- The answers of `processRequest`, next first. -/
  onRequest  : List RequestAnswer
  deriving DecidableEq, Repr

/-- A call KSTC made on one of its interfaces (R238 to R241). -/
inductive Event where
  /-- `rx_take()` and its answer. -/
  | rxTake (answer : Option Byte)
  /-- `offer(b)` and whether it was accepted. -/
  | offer (b : Byte) (accepted : Bool)
  /-- `processResponse(length, payload)`; the length is that of the payload. -/
  | processResponse (payload : List Byte)
  /-- `processRequest(serviceId, requesterNodeId, length, payload, N.resp_buf)`. -/
  | processRequest (service : ServiceId) (requester : Half) (payload : List Byte)
  deriving DecidableEq, Repr

/-- The trace labels of R221 to R225. The hardware stores none of them (R226). -/
inductive Cause where
  | abVersion
  | abEot
  | abHdrCrc
  | abDoubleEsc
  | abOverflow
  | clShort
  | clPayloadCrc
  | dropOutside
  | fAnon
  | fSink
  | drRespIdle
  | drRespAnon
  | drRespMismatch
  | drReqAnon
  | drReqNotMine
  | ignMessage
  deriving DecidableEq, Repr

end Sys2Proof.Machine

namespace Sys2Proof.Machine

/-! ### Stops -/

/-- Faults. KSTC itself has none (R220). -/
inductive Fault where
  /-- Raised where a payload view would be built from an entry of `P.buf` that nothing has written: R31 says that a
  model must not let such a read succeed. No reachable state meets it (R43). Safe. -/
  | bufferByteUnwritten
  deriving DecidableEq, Repr

/-- Refusals: what 93_implementation_defined.md tells a model to refuse. -/
inductive Refusal where
  /-- Raised by no arm now: the name for an instruction without a meaning. Safe. -/
  | notModelled (mnemonic : String)
  /-- Raised by step for a reserved command code (R83, U10). Safe. -/
  | reservedCommand (code : Byte)
  /-- Raised by step where the operand bytes are not those of the operation (R82, D18). Safe. -/
  | badOperands (op : Opcode)
  /-- Raised by `ENC.ENCODE`, `NODE.SEND_REQUEST`, `NODE.PUBLISH` with `len > MAX_PAYLOAD` (R169, U6). Safe. -/
  | payloadTooLong
  /-- Raised where the reactor wrote past `RESP_CAP` or returned a length above `RESP_CAP` or `MAX_PAYLOAD`
  (R189, R241, U7). Safe. -/
  | reactorOutsideContract
  /-- Raised where a reactor callback invokes a KSTC operation (R202, U8). Safe. -/
  | reentrantReactor
  /-- Raised by step where a header or payload byte is presented at an offset the parser does not stand at, or outside a
  frame: `P.offset` selects no such rule (R86, R129, R131; log entry 2). Safe. -/
  | offsetNotSelected
  /-- Raised by step where two operations are presented at once (R260, U9). Safe. -/
  | concurrentOperations
  deriving DecidableEq, Repr

end Sys2Proof.Machine

namespace Sys2Proof.Machine

/-! ### The state -/

/-- The state of the machine (R20). -/
structure State where
  /-- MODEL's own: the parameters of the instance (R39, R44); no step writes them. -/
  cfg    : Params
  /-- `U.reg`, 32 bits (R21). -/
  u      : Word
  /-- The parser (R22 to R31). -/
  p      : Parser
  /-- The node orchestrator (R32 to R34). -/
  n      : Node
  /-- The result of the operation that ran last (R81). -/
  result : Result
  /-- MODEL's own: the window of the payload view last handed out (R60); no rule reads it. -/
  view   : Option View
  /-- MODEL's own: the logical bytes of the frame in progress, in order, the header's among them, which the hardware
  does not store (R41). R43 (iii) and (iv) speak of them; no rule reads them (R226). Log entry 21. -/
  frame  : List Byte
  /-- MODEL's own: hardware resets so far, the counter of the free value `Config.respUnwritten`. -/
  resets : Nat
  /-- MODEL's own: the environment (R237). -/
  env    : Env
  /-- MODEL's own: the interface calls made so far, latest first; no rule reads them. -/
  trace  : List Event
  /-- MODEL's own: the trace labels so far, latest first; no rule reads them (R226). -/
  labels : List Cause
  deriving DecidableEq, Repr

/-- The parser right after a hardware reset (R45, R251): cleared, the buffer unspecified. -/
def Parser.reset : Parser :=
  { inside := false
    unesc := false
    offset := 0
    crc := Config.crcInit
    pri := Config.priorityDefault
    src := Config.nodeIdAnon
    dst := Config.nodeIdAnon
    dspec := 0
    tid := 0
    buf := [] }

/-- The node orchestrator right after a hardware reset (R45, R251): anonymous and idle. The three other pending
fields are unspecified and unobservable; 0 is the value R33 lets a model take (log entry 10). -/
def Node.reset : Node :=
  { localId := Config.nodeIdAnon
    pendValid := false
    pendServer := 0
    pendService := 0
    pendTid := 0
    respBuf := [] }

/-- An environment that has nothing to present and no answer listed. -/
def Env.empty : Env := { host := [], rx := [], tx := [], onResponse := [], onRequest := [] }

/-- An instance with these parameters right after its first hardware reset (R45, R251). -/
def State.resetWith (c : Params) : State :=
  { cfg := c
    u := Config.crcInit
    p := Parser.reset
    n := Node.reset
    result := .none
    view := none
    frame := []
    resets := 0
    env := Env.empty
    trace := []
    labels := [] }

/-- The machine right after reset. -/
def State.reset : State := State.resetWith Params.default

end Sys2Proof.Machine
end

