-- ==== Sys2Proof/Machine/Checksum.lean ====
section
/-! DEFINITION. The CRC engine's function (40_crc.md R102 to R108). Its three users, `U.reg`, `P.crc` and the
encoder's transient register, share it (R100). -/

namespace Sys2Proof.Machine

/-- One right-shift/conditional-XOR step; bit 0 is tested before the shift (R102). -/
def crcBit (poly r : Word) : Word := if r.getLsbD 0 then (r >>> 1) ^^^ poly else r >>> 1

/-- The one-bit step the given number of times. -/
def crcBits (poly : Word) : Nat → Word → Word
  | 0, r => r
  | k + 1, r => crcBits poly k (crcBit poly r)

/-- `crc_step` (R102): the byte goes into the lowest byte of the register, then eight one-bit steps. -/
def crcStep (poly r : Word) (b : Byte) : Word := crcBits poly 8 (r ^^^ b.setWidth 32)

/-- `crc_run` (R106): `crc_step` over the bytes in order. -/
def crcRun (poly : Word) : Word → List Byte → Word
  | r, [] => r
  | r, b :: bs => crcRun poly (crcStep poly r b) bs

/-- What `CRC.VALUE` makes of a register (R104). -/
def crcFinal (r : Word) : Word := r ^^^ Config.crcXorOut

/-- `crc_value(s)`, the checksum of a sequence (R107). -/
def crcValueOf (poly : Word) (s : List Byte) : Word := crcFinal (crcRun poly Config.crcInit s)

/-- The codeword of a sequence: its checksum appended, least significant byte first (R107). -/
def codeword (poly : Word) (s : List Byte) : List Byte := s ++ le32 (crcValueOf poly s)

/-- `Residue(CRC_POLY)` (R108), `CRC_RESIDUE` of the instance. -/
def residueOf (poly : Word) : Word := crcRun poly 0 [0xFF, 0xFF, 0xFF, 0xFF]

end Sys2Proof.Machine
end

