-- ==== Sys2Proof/Machine/Flags.lean ====
section
/-! DEFINITION. The predicates KSTC computes on demand and stores nowhere (10_state.md R38): residue correct,
identity assigned, the emit condition of a delimiter and the match of a response. -/

namespace Sys2Proof.Machine

/-- "Residue correct" for a register of this instance (R38, R105): the raw register is compared. -/
def residueCorrect (c : Params) (reg : Word) : Bool := reg == residueOf c.crcPoly

/-- "Identity assigned" (R32, R38). -/
def State.identified (s : State) : Bool := s.n.localId != Config.nodeIdAnon

/-- The emit condition of a delimiter (R125, R126). -/
def State.emitReady (s : State) : Bool :=
  s.p.inside && decide (Config.headerSize + Config.crcSize ≤ s.p.offset) && residueCorrect s.cfg s.p.crc

/-- The payload length of a transfer emitted now: `P.offset - 36` (R125, R126). -/
def State.emitLength (s : State) : Nat := s.p.offset - (Config.headerSize + Config.crcSize)

/-- Whether a response names the outstanding request and the local identity: the last four conditions of R186. -/
def State.responseFields (s : State) (t : Transfer) : Bool :=
  serviceOf t.dspec == s.n.pendService && t.src == s.n.pendServer && t.dst == s.n.localId && t.tid == s.n.pendTid

/-- The six conditions of R186. -/
def State.responseMatches (s : State) (t : Transfer) : Bool :=
  s.n.pendValid && s.identified && s.responseFields t

/-- The two conditions under which a request is served (R188). -/
def State.requestAccepted (s : State) (t : Transfer) : Bool := s.identified && t.dst == s.n.localId

end Sys2Proof.Machine
end

