-- ==== Sys2Proof/Machine/Ops.lean ====
section
/-! DEFINITION. The named operations the meanings share: byte arrays, the four interfaces, the abandon (what KSTC
has in the place of taking an exception, 60_exceptions.md R229), the delimiter's reopening (its return, R230), the
payload view and the hardware reset. -/

namespace Sys2Proof.Machine

/-! ### Outcomes -/

/-- Goes on with the value of an outcome, unless it stopped. -/
def andThen {α β : Type} (o : Host.Outcome α Fault Refusal) (f : α → Host.Outcome β Fault Refusal) :
    Host.Outcome β Fault Refusal :=
  match o with
  | .next a => f a
  | .fault r => .fault r
  | .refused r => .refused r

/-! ### Byte arrays (R53: every access is one byte) -/

/-- The byte written last at an address, none if nothing has written there. -/
def memRead : Memory → Nat → Option Byte
  | [], _ => none
  | (a, b) :: rest, i => if a = i then some b else memRead rest i

/-- Writes one byte and keeps the canonical form. -/
def memWrite : Memory → Nat → Byte → Memory
  | [], i, e => [(i, e)]
  | (a, b) :: rest, i, e =>
    if i < a then (i, e) :: (a, b) :: rest
    else if i = a then (i, e) :: rest
    else (a, b) :: memWrite rest i e

/-- Writes a list of entries, first to last. -/
def memWriteAll : Memory → List Host.Cell → Memory
  | m, [] => m
  | m, (i, e) :: rest => memWriteAll (memWrite m i e) rest

/-- Reads one byte of `P.buf` (R31, R55): none outside the array and where nothing has been written. -/
def State.bufRead (s : State) (i : Nat) : Option Byte :=
  if i < s.cfg.bufCap then memRead s.p.buf i else none

/-- The `n` bytes of `P.buf` from index `i` on, none if one of them cannot be read. -/
def State.bufSlice (s : State) (i : Nat) : Nat → Option (List Byte)
  | 0 => some []
  | n + 1 =>
    match s.bufRead i, State.bufSlice s (i + 1) n with
    | some b, some bs => some (b :: bs)
    | _, _ => none

/-- The payload view of a transfer of length `n`: `P.buf[0 .. n-1]` (R55). -/
def State.payloadView (s : State) (n : Nat) : Option (List Byte) := s.bufSlice 0 n

/-- `MemWrite(P.buf, i, 1, e)` (R57). -/
def State.bufWrite (s : State) (i : Nat) (e : Byte) : State :=
  { s with p := { s.p with buf := memWrite s.p.buf i e } }

/-- Reads one byte of `N.resp_buf`. What nothing has written since the hardware reset is a free value (R34,
U13; log entry 5). -/
def State.respRead (s : State) (i : Nat) : Byte :=
  match memRead s.n.respBuf i with
  | some b => b
  | none => Config.respUnwritten s.resets i

/-- `N.resp_buf[0 .. n-1]` (R56, R189). -/
def State.respSlice (s : State) (n : Nat) : List Byte := (List.range n).map s.respRead

/-! ### Traces and results -/

/-- Appends an interface call to the trace. -/
def State.record (s : State) (ev : Event) : State := { s with trace := ev :: s.trace }

/-- Appends a label to the ghost trace of labels (R226). -/
def State.note (s : State) (c : Cause) : State := { s with labels := c :: s.labels }

/-- Returns a result to the host. -/
def State.answer (s : State) (r : Result) : State := { s with result := r }

/-! ### The interfaces -/

/-- `rx_take()` (R238): consumes and returns the environment's next answer. -/
def rxTake (s : State) : Option Byte × State :=
  match s.env.rx with
  | [] => (none, s.record (.rxTake none))
  | a :: rest => (a, { s with env := { s.env with rx := rest } }.record (.rxTake a))

/-- `offer(b)` (R239): whether the sink accepts the byte. -/
def offer (b : Byte) (s : State) : Bool × State :=
  match s.env.tx with
  | [] => (true, s.record (.offer b true))
  | a :: rest => (a, { s with env := { s.env with tx := rest } }.record (.offer b a))

/-- `processResponse(length, payload)` (R240). A reactor that calls back is refused (R202, U8). -/
def callResponse (payload : List Byte) (s : State) : Host.Outcome State Fault Refusal :=
  match s.env.onResponse with
  | [] => .next (s.record (.processResponse payload))
  | .returned :: rest => .next ({ s with env := { s.env with onResponse := rest } }.record (.processResponse payload))
  | .reentered :: _ => .refused .reentrantReactor

/-- Whether the reactor kept its contract (R241): writes inside `N.resp_buf`, a length of at most `RESP_CAP` and
`MAX_PAYLOAD`. -/
def answerLegal (c : Params) (writes : List Host.Cell) (len : Option Nat) : Bool :=
  writes.all (fun w => decide (w.1 < c.respCap)) &&
    match len with
    | none => true
    | some n => decide (n ≤ c.respCap) && decide (n ≤ c.maxPayload)

/-- `processRequest(serviceId, requesterNodeId, length, payload, N.resp_buf)` (R241): what it returned, and the state
with what it wrote. A reactor outside its contract, or one that calls back, is refused (U7, U8). -/
def callRequest (service : ServiceId) (requester : Half) (payload : List Byte) (s : State) :
    Host.Outcome (Option Nat × State) Fault Refusal :=
  match s.env.onRequest with
  | [] => .next (none, s.record (.processRequest service requester payload))
  | .returned writes len :: rest =>
    if answerLegal s.cfg writes len then
      .next (len,
        { s with
          n := { s.n with respBuf := memWriteAll s.n.respBuf writes }
          env := { s.env with onRequest := rest } }.record (.processRequest service requester payload))
    else .refused .reactorOutsideContract
  | .reentered :: _ => .refused .reentrantReactor

/-! ### The parser's clear, abandon and reopening -/

/-- The registers `parser_clear()` sets (R121); the buffer is kept. -/
def Parser.cleared (p : Parser) : Parser := { Parser.reset with buf := p.buf }

/-- `parser_clear()` (R121); the ghost bytes of the frame go with it. -/
def parserClear (s : State) : State := { s with p := s.p.cleared, frame := [] }

/-- `abandon(cause)` (R122, R229): the parser is cleared; the cause is a ghost label. -/
def abandon (c : Cause) (s : State) : State := (parserClear s).note c

/-- What every delimiter does to the parser (R125, R230): cleared, then inside a frame. -/
def reopen (s : State) : State := { s with p := { s.p.cleared with inside := true }, frame := [] }

/-- `P.offset + 1` in the `OFF_W` bits of the counter (R9, R24). It never wraps (R150, R151). -/
def nextOffset (c : Params) (o : Nat) : Nat := (o + 1) % 2 ^ c.offW

/-! ### The payload view (R60) -/

/-- One `PARSE.UPDATE` step further from the view's emission. -/
def ageView (s : State) : State :=
  { s with view := s.view.map fun v => { v with age := v.age + 1 } }

/-- Hands out the view of a transfer of the given length, of age 0. -/
def handOutView (n : Nat) (s : State) : State :=
  { s with view := some { serial := (match s.view with | some v => v.serial + 1 | none => 0), len := n, age := 0 } }

/-- What a holder reads through the view last handed out (R60): the buffer until the end of the next
`PARSE.UPDATE` step after the emitting one, any value after that (U1, log entry 6). None outside the view. -/
def State.viewByte (s : State) (i : Nat) : Option Byte :=
  match s.view with
  | none => none
  | some v =>
    if i < v.len then
      if v.age ≤ 1 then s.bufRead i else some (Config.lateViewByte s.resets v.serial v.age i)
    else none

/-! ### Hardware reset -/

/-- The hardware reset of a running block (R250, R251): every register as after power-on, the buffers unspecified
again, and no view of them left. The environment and the traces are not the block's. -/
def hardReset (s : State) : State :=
  { s with
    u := Config.crcInit
    p := Parser.reset
    n := Node.reset
    result := .none
    view := none
    frame := []
    resets := s.resets + 1 }

end Sys2Proof.Machine
end

