-- ==== Sys2Proof/Machine/Crc.lean ====
section
/-! DEFINITION. The meanings of the four operations of the host-visible CRC engine (40_crc.md R101, R103 to R105). -/

namespace Sys2Proof.Machine

/-- `CRC.RESET` (R101): `U.reg <- CRC_INIT`. -/
def execCrcReset (s : State) : Host.Outcome State Fault Refusal :=
  .next ({ s with u := Config.crcInit }.answer .none)

/-- `CRC.UPDATE b` (R103): `U.reg <- crc_step(U.reg, b)`. -/
def execCrcUpdate (b : Byte) (s : State) : Host.Outcome State Fault Refusal :=
  .next ({ s with u := crcStep s.cfg.crcPoly s.u b }.answer .none)

/-- `CRC.VALUE` (R104): returns `U.reg XOR CRC_XOROUT`. -/
def execCrcValue (s : State) : Host.Outcome State Fault Refusal :=
  .next (s.answer (.word (crcFinal s.u)))

/-- `CRC.RESIDUE_OK` (R105): returns whether `U.reg = CRC_RESIDUE`. -/
def execCrcResidueOk (s : State) : Host.Outcome State Fault Refusal :=
  .next (s.answer (.bit (residueCorrect s.cfg s.u)))

end Sys2Proof.Machine
end

