-- ==== Sys2Proof/Machine/Encode.lean ====
section
/-! DEFINITION. The frame encoder (42_encoder.md R160 to R171): the procedure of R161 over the TX sink, with its
transient CRC register, and its operation. -/

namespace Sys2Proof.Machine

/-- Goes on with the encoding if the sink has refused nothing so far (R167). -/
def ifSent (r : Bool × State) (f : State → Bool × State) : Bool × State :=
  match r with
  | (true, s) => f s
  | (false, s) => (false, s)

/-- `emit_raw` (R162): one byte as it is. -/
def emitRaw (b : Byte) (s : State) : Bool × State := offer b s

/-- `emit_esc` (R163): one logical byte through the escape form; an escaped byte is two offers. -/
def emitEsc (v : Byte) (s : State) : Bool × State :=
  if needsEscape v then ifSent (offer Config.escapeByte s) (offer (~~~v)) else offer v s

/-- Sends logical bytes in order, stopping at the first refusal. -/
def emitAll : List Byte → State → Bool × State
  | [], s => (true, s)
  | b :: bs, s => ifSent (emitEsc b s) (emitAll bs)

/-- Sends logical bytes in order, absorbing each into the transient register first, and goes on with the register
(R161: the loops over `H` and over the payload). -/
def emitChecked (poly : Word) : List Byte → Word → State → (Word → State → Bool × State) → Bool × State
  | [], crc, s, f => f crc s
  | b :: bs, crc, s, f =>
    ifSent (emitEsc b s) fun s' => emitChecked poly bs (crcStep poly crc b) s' f

/-- Sends logical bytes and, after them, their checksum from a fresh register, least significant byte first (R165,
R166), then goes on. -/
def emitCodeword (poly : Word) (bytes : List Byte) (s : State) (f : State → Bool × State) : Bool × State :=
  emitChecked poly bytes Config.crcInit s fun crc s' => ifSent (emitAll (le32 (crcFinal crc)) s') f

/-- The procedure of `ENC.ENCODE` (R161): opening delimiter, header, payload, closing delimiter. -/
def encodeTransfer (t : Transfer) (s : State) : Bool × State :=
  ifSent (emitRaw Config.frameDelimiter s) fun s1 =>
    emitCodeword s.cfg.crcPoly (headerBytes t) s1 fun s2 =>
      emitCodeword s.cfg.crcPoly t.payload s2 fun s3 =>
        emitRaw Config.frameDelimiter s3

/-- The ghost label of a refused transmission (R224). -/
def noteSink (ok : Bool) (s : State) : State := if ok then s else s.note .fSink

/-- The precondition of the sending operations, `len <= MAX_PAYLOAD` (R82, R169). -/
def lengthAdmitted (c : Params) (payload : List Byte) : Bool := decide (payload.length ≤ c.maxPayload)

/-- `ENC.ENCODE` (R161); a longer payload is refused (R169, U6). -/
def execEncEncode (t : Transfer) (s : State) : Host.Outcome State Fault Refusal :=
  if lengthAdmitted s.cfg t.payload then
    let r := encodeTransfer t s
    .next ((noteSink r.1 r.2).answer (.bit r.1))
  else .refused .payloadTooLong

end Sys2Proof.Machine
end

