-- ==== Sys2Proof/Machine/Parse.lean ====
section
/-! DEFINITION. The stream parser (41_parser.md): the decoding rules a DATA symbol selects by offset, the three
symbols, and the two operations. -/

namespace Sys2Proof.Machine

/-! ### Decoding rules, one per offset selection (R131). `e` has already been fed to `P.crc` (R129). -/

/-- Offset 0 (R132): the version must be 0, else the frame is abandoned. -/
def decodeVersion (e : Byte) (s : State) : State :=
  if e = Config.frameVersion then s else abandon .abVersion s

/-- Offset 1 (R133). -/
def decodePriority (e : Byte) (s : State) : State := { s with p := { s.p with pri := e } }

/-- Offsets 2 and 3 (R134). -/
def decodeSource (k : Fin 2) (e : Byte) (s : State) : State :=
  { s with p := { s.p with src := setLane s.p.src k e } }

/-- Offsets 4 and 5 (R135). -/
def decodeDestination (k : Fin 2) (e : Byte) (s : State) : State :=
  { s with p := { s.p with dst := setLane s.p.dst k e } }

/-- Offsets 6 and 7 (R136). -/
def decodeDataSpec (k : Fin 2) (e : Byte) (s : State) : State :=
  { s with p := { s.p with dspec := setLane s.p.dspec k e } }

/-- Offsets 8 to 15 (R137): nothing is stored and nothing is checked. -/
def decodeReserved (_k : Fin 8) (_e : Byte) (s : State) : State := s

/-- Offsets 16 to 23 (R138). -/
def decodeTransferId (k : Fin 8) (e : Byte) (s : State) : State :=
  { s with p := { s.p with tid := setLane s.p.tid k e } }

/-- Offsets 24 to 27 (R139): each byte must be the marker's, else the frame is abandoned. -/
def decodeEotMarker (k : Fin 4) (e : Byte) (s : State) : State :=
  if e = eotByte k then s else abandon .abEot s

/-- Offsets 28 to 31 (R140): at the last one the residue must be correct, else the frame is abandoned; the register
is then reset. -/
def decodeHeaderCrc (k : Fin 4) (_e : Byte) (s : State) : State :=
  if k = 3 then
    if residueCorrect s.cfg s.p.crc then { s with p := { s.p with crc := Config.crcInit } }
    else abandon .abHdrCrc s
  else s

/-- The payload region, buffer index `i` (R141): stored if there is room, else the frame is abandoned. -/
def storePayload (i : Nat) (e : Byte) (s : State) : State :=
  if i < s.cfg.bufCap then s.bufWrite i e else abandon .abOverflow s

/-- `header_decode` and `payload_store` (R131, R141): the rule the offset selects. -/
def routeByte (o : Nat) (e : Byte) (s : State) : State :=
  match offsetRule o with
  | .version => decodeVersion e s
  | .priority => decodePriority e s
  | .source k => decodeSource k e s
  | .destination k => decodeDestination k e s
  | .dataSpec k => decodeDataSpec k e s
  | .reserved k => decodeReserved k e s
  | .transferId k => decodeTransferId k e s
  | .eotMarker k => decodeEotMarker k e s
  | .headerCrc k => decodeHeaderCrc k e s
  | .payload i => storePayload i e s

/-! ### The symbols -/

/-- The transfer a delimiter emits, built from the registers before they are cleared (R125). A payload byte nothing
has written is the fault of R31. -/
def emission (s : State) : Host.Outcome (Option Transfer) Fault Refusal :=
  if s.emitReady then
    match s.payloadView s.emitLength with
    | some payload => .next (some
        { pri := s.p.pri
          src := s.p.src
          dst := s.p.dst
          dspec := s.p.dspec
          tid := s.p.tid
          payload := payload })
    | none => .fault .bufferByteUnwritten
  else .next none

/-- The ghost label of a delimiter that closes a frame without emitting (R222). -/
def noteClose (s : State) : State :=
  if s.p.inside && !s.emitReady then
    if s.p.offset < Config.headerSize + Config.crcSize then s.note .clShort else s.note .clPayloadCrc
  else s

/-- `delim_rule` (R125): emits if the condition holds, and reopens in every case. -/
def delimRule (s : State) : Host.Outcome (Option Transfer × State) Fault Refusal :=
  andThen (emission s) fun out =>
    .next (out, reopen (match out with
      | some t => handOutView t.payload.length s
      | none => noteClose s))

/-- `esc_rule` (R128): sets the pending escape; a second one abandons the frame. -/
def escRule (s : State) : State :=
  if s.p.unesc then abandon .abDoubleEsc s else { s with p := { s.p with unesc := true } }

/-- `data_rule` before the routing (R129): the pending escape is used up and the logical byte is fed to `P.crc`. -/
def absorb (e : Byte) (s : State) : State :=
  { s with
    p := { s.p with unesc := false, crc := crcStep s.cfg.crcPoly s.p.crc e }
    frame := s.frame ++ [e] }

/-- `data_rule` after the routing (R129): the offset advances if the frame was not abandoned. -/
def advance (o : Nat) (s : State) : State :=
  if s.p.inside then { s with p := { s.p with offset := nextOffset s.cfg o } } else s

/-- `data_rule` (R129). -/
def dataRule (b : Byte) (s : State) : State :=
  advance s.p.offset (routeByte s.p.offset (effectiveByte s.p.unesc b) (absorb (effectiveByte s.p.unesc b) s))

/-- A byte that is no delimiter, outside a frame: dropped (R130). -/
def dropByte (s : State) : State := s.note .dropOutside

/-- A `DELIM` symbol, with the step of the payload window. -/
def delimSymbol (s : State) : Host.Outcome (Option Transfer × State) Fault Refusal := delimRule (ageView s)

/-- An `ESC` symbol, with the step of the payload window; it acts only inside a frame (R124, R130). -/
def escSymbol (s : State) : State :=
  if s.p.inside then escRule (ageView s) else dropByte (ageView s)

/-- A `DATA` symbol, with the step of the payload window; it acts only inside a frame (R124, R130). -/
def dataSymbol (b : Byte) (s : State) : State :=
  if s.p.inside then dataRule b (ageView s) else dropByte (ageView s)

/-- One `PARSE.UPDATE` step (R124): what it returns, and the state after it. -/
def parserStep (b : Byte) (s : State) : Host.Outcome (Option Transfer × State) Fault Refusal :=
  match symbolOf b with
  | .delim => delimSymbol s
  | .esc => .next (none, escSymbol s)
  | .data => .next (none, dataSymbol b s)

/-- Returns the optional transfer of a parser step to the host. -/
def answerTransfer (r : Option Transfer × State) : Host.Outcome State Fault Refusal :=
  .next (r.2.answer (.transfer r.1))

/-! ### One offset selection presented on its own (log entry 2) -/

/-- Whether the parser selects the rule of an offset (R86, R129): inside a frame, at that offset. -/
def State.selects (s : State) (o : Nat) : Bool := s.p.inside && s.p.offset == o

/-- What a DATA symbol does before the rule its offset selects, with its logical byte (R129). -/
def beforeRule (e : Byte) (s : State) : State := absorb e (ageView s)

/-- What a DATA symbol does after the rule its offset selects (R129), and its result (R124). -/
def afterRule (o : Nat) (s : State) : State := (advance o s).answer (.transfer none)

/-! ### Meanings -/

/-- `PARSE.RESET` (R123): `parser_clear()`. -/
def execParseReset (s : State) : Host.Outcome State Fault Refusal := .next ((parserClear s).answer .none)

/-- `PARSE.UPDATE b` (R124). -/
def execParseUpdate (b : Byte) (s : State) : Host.Outcome State Fault Refusal :=
  andThen (parserStep b s) answerTransfer

/-- `SYM.DELIM` (R125). -/
def execSymDelim (s : State) : Host.Outcome State Fault Refusal := andThen (delimSymbol s) answerTransfer

/-- `SYM.ESC` (R128, R130). -/
def execSymEsc (s : State) : Host.Outcome State Fault Refusal := answerTransfer (none, escSymbol s)

/-- `SYM.DATA` (R129, R130). -/
def execSymData (b : Byte) (s : State) : Host.Outcome State Fault Refusal := answerTransfer (none, dataSymbol b s)

/-- `HDR.VERSION` (R132). -/
def execHdrVersion (e : Byte) (s : State) : Host.Outcome State Fault Refusal := .next (decodeVersion e s)

/-- `HDR.PRIORITY` (R133). -/
def execHdrPriority (e : Byte) (s : State) : Host.Outcome State Fault Refusal := .next (decodePriority e s)

/-- `HDR.SOURCE` (R134). -/
def execHdrSource (k : Fin 2) (e : Byte) (s : State) : Host.Outcome State Fault Refusal := .next (decodeSource k e s)

/-- `HDR.DESTINATION` (R135). -/
def execHdrDestination (k : Fin 2) (e : Byte) (s : State) : Host.Outcome State Fault Refusal :=
  .next (decodeDestination k e s)

/-- `HDR.DATA_SPEC` (R136). -/
def execHdrDataSpec (k : Fin 2) (e : Byte) (s : State) : Host.Outcome State Fault Refusal :=
  .next (decodeDataSpec k e s)

/-- `HDR.RESERVED` (R137). -/
def execHdrReserved (k : Fin 8) (e : Byte) (s : State) : Host.Outcome State Fault Refusal :=
  .next (decodeReserved k e s)

/-- `HDR.TRANSFER_ID` (R138). -/
def execHdrTransferId (k : Fin 8) (e : Byte) (s : State) : Host.Outcome State Fault Refusal :=
  .next (decodeTransferId k e s)

/-- `HDR.EOT_MARKER` (R139). -/
def execHdrEotMarker (k : Fin 4) (e : Byte) (s : State) : Host.Outcome State Fault Refusal :=
  .next (decodeEotMarker k e s)

/-- `HDR.CRC` (R140). -/
def execHdrCrc (k : Fin 4) (e : Byte) (s : State) : Host.Outcome State Fault Refusal :=
  .next (decodeHeaderCrc k e s)

/-- `PAYLOAD.STORE` (R141). -/
def execPayloadStore (i : Nat) (e : Byte) (s : State) : Host.Outcome State Fault Refusal := .next (storePayload i e s)

end Sys2Proof.Machine
end

