-- ==== Sys2Proof/Machine/Orchestrate.lean ====
section
/-! DEFINITION. The node orchestrator (43_node.md): the three classes of a completed transfer and the five
operations. -/

namespace Sys2Proof.Machine

/-! ### The classes -/

/-- The ghost label of a response that is dropped (R187, R225). -/
def noteResponse (s : State) : State :=
  if !s.n.pendValid then s.note .drRespIdle
  else if !s.identified then s.note .drRespAnon
  else s.note .drRespMismatch

/-- `RESPONSE` (R186, R187): delivered and the pending record cleared if all six conditions hold, else dropped. -/
def onResponse (t : Transfer) (s : State) : Host.Outcome State Fault Refusal :=
  if s.responseMatches t then
    andThen (callResponse t.payload s) fun s' => .next { s' with n := { s'.n with pendValid := false } }
  else .next (noteResponse s)

/-- The transfer of a response (R189), with the payload the reactor left in `N.resp_buf`. -/
def responseTransfer (t : Transfer) (n : Nat) (s : State) : Transfer :=
  { pri := t.pri
    src := s.n.localId
    dst := t.src
    dspec := responseSpec (serviceOf t.dspec)
    tid := t.tid
    payload := s.respSlice n }

/-- `send_response` (R189): encoded and transmitted, the result ignored (decision D22). -/
def sendResponse (t : Transfer) (n : Nat) (s : State) : State := (encodeTransfer (responseTransfer t n s) s).2

/-- The ghost label of a request that is dropped (R188, R225). -/
def noteRequest (s : State) : State := if !s.identified then s.note .drReqAnon else s.note .drReqNotMine

/-- `REQUEST` (R188): served if it is addressed to the assigned local identity, else dropped. -/
def onRequest (t : Transfer) (s : State) : Host.Outcome State Fault Refusal :=
  if s.requestAccepted t then
    andThen (callRequest (serviceOf t.dspec) t.src t.payload s) fun r =>
      match r.1 with
      | some n => .next (sendResponse t n r.2)
      | none => .next r.2
  else .next (noteRequest s)

/-- `MESSAGE` (R190): no action. -/
def onMessage (_t : Transfer) (s : State) : Host.Outcome State Fault Refusal := .next (s.note .ignMessage)

/-- `process_transfer` (R185): by the class of the data spec. -/
def processTransfer (t : Transfer) (s : State) : Host.Outcome State Fault Refusal :=
  match classify t.dspec with
  | .response => onResponse t s
  | .request => onRequest t s
  | .message => onMessage t s

/-! ### Polling -/

/-- The step of a poll on one received byte (R184): a completed transfer is processed before the next byte. -/
def pollByte (b : Byte) (s : State) : Host.Outcome State Fault Refusal :=
  andThen (parserStep b s) fun r =>
    match r.1 with
    | some t => processTransfer t r.2
    | none => .next r.2

/-- The loop of `NODE.POLL` (R184, R203): at most the given number of bytes, stopping when none is available. -/
def pollLoop : Nat → State → Host.Outcome State Fault Refusal
  | 0, s => .next s
  | k + 1, s =>
    match rxTake s with
    | (none, s') => .next s'
    | (some b, s') => andThen (pollByte b s') (pollLoop k)

/-! ### Sending -/

/-- The transfer of a request (R191). -/
def requestTransfer (service : ServiceId) (server : Half) (tid : Tid) (payload : List Byte) (s : State) : Transfer :=
  { pri := Config.priorityDefault
    src := s.n.localId
    dst := server
    dspec := requestSpec service
    tid := tid
    payload := payload }

/-- The transfer of a published message (R200). -/
def publishTransfer (subject : SubjectId) (tid : Tid) (payload : List Byte) (s : State) : Transfer :=
  { pri := Config.priorityDefault
    src := s.n.localId
    dst := Config.nodeIdAnon
    dspec := messageSpec subject
    tid := tid
    payload := payload }

/-- Records the pending request (R191). -/
def recordPending (service : ServiceId) (server : Half) (tid : Tid) (s : State) : State :=
  { s with
    n := { s.n with pendValid := true, pendServer := server, pendService := service, pendTid := tid } }

/-! ### Meanings -/

/-- `CLASS.RESPONSE` (R186). -/
def execClassResponse (t : Transfer) (s : State) : Host.Outcome State Fault Refusal := onResponse t s

/-- `CLASS.REQUEST` (R188). -/
def execClassRequest (t : Transfer) (s : State) : Host.Outcome State Fault Refusal := onRequest t s

/-- `CLASS.MESSAGE` (R190). -/
def execClassMessage (t : Transfer) (s : State) : Host.Outcome State Fault Refusal := onMessage t s

/-- `NODE.POLL time` (R184). `time` is read by no rule (R204). -/
def execNodePoll (_time : BitVec 64) (s : State) : Host.Outcome State Fault Refusal :=
  andThen (pollLoop s.cfg.pollBudget s) fun s' => .next (s'.answer .none)

/-- `NODE.SEND_REQUEST` (R191, R192); a longer payload is refused (R169, U6). -/
def execNodeSendRequest (service : ServiceId) (server : Half) (tid : Tid) (payload : List Byte) (s : State) :
    Host.Outcome State Fault Refusal :=
  if lengthAdmitted s.cfg payload then
    if s.identified then
      let r := encodeTransfer (requestTransfer service server tid payload s) s
      if r.1 then .next ((recordPending service server tid r.2).answer (.bit true))
      else .next ((noteSink false r.2).answer (.bit false))
    else .next ((s.note .fAnon).answer (.bit false))
  else .refused .payloadTooLong

/-- `NODE.CANCEL_REQUEST` (R193): `N.pend_valid <- 0`. -/
def execNodeCancelRequest (s : State) : Host.Outcome State Fault Refusal :=
  .next ({ s with n := { s.n with pendValid := false } }.answer .none)

/-- `NODE.PUBLISH` (R200); a longer payload is refused (R169, U6). -/
def execNodePublish (subject : SubjectId) (tid : Tid) (payload : List Byte) (s : State) :
    Host.Outcome State Fault Refusal :=
  if lengthAdmitted s.cfg payload then
    if s.identified then
      let r := encodeTransfer (publishTransfer subject tid payload s) s
      .next ((noteSink r.1 r.2).answer (.bit r.1))
    else .next ((s.note .fAnon).answer (.bit false))
  else .refused .payloadTooLong

/-- `NODE.SET_ID id` (R183): `N.local_id <- id`. -/
def execNodeSetId (id : Half) (s : State) : Host.Outcome State Fault Refusal :=
  .next ({ s with n := { s.n with localId := id } }.answer .none)

end Sys2Proof.Machine
end

