-- ==== Sys2Proof/Machine/Dispatch.lean ====
section
/-! DEFINITION. The meaning of every instruction, one arm per constructor of Instr. -/

namespace Sys2Proof.Machine

def exec (i : Instr) (s : State) : Host.Outcome State Fault Refusal :=
  match i with
  | .crcReset => Sys2Proof.Machine.execCrcReset s
  | .crcUpdate b => Sys2Proof.Machine.execCrcUpdate b s
  | .crcValue => Sys2Proof.Machine.execCrcValue s
  | .crcResidueOk => Sys2Proof.Machine.execCrcResidueOk s
  | .parseReset => Sys2Proof.Machine.execParseReset s
  | .parseUpdate b => Sys2Proof.Machine.execParseUpdate b s
  | .encEncode t => Sys2Proof.Machine.execEncEncode t s
  | .nodePoll time => Sys2Proof.Machine.execNodePoll time s
  | .nodeSendRequest service server tid payload => Sys2Proof.Machine.execNodeSendRequest service server tid payload s
  | .nodeCancelRequest => Sys2Proof.Machine.execNodeCancelRequest s
  | .nodePublish subject tid payload => Sys2Proof.Machine.execNodePublish subject tid payload s
  | .nodeSetId id => Sys2Proof.Machine.execNodeSetId id s
  | .symDelim => Sys2Proof.Machine.execSymDelim s
  | .symEsc => Sys2Proof.Machine.execSymEsc s
  | .symData b => Sys2Proof.Machine.execSymData b s
  | .hdrVersion e => Sys2Proof.Machine.execHdrVersion e s
  | .hdrPriority e => Sys2Proof.Machine.execHdrPriority e s
  | .hdrSource k e => Sys2Proof.Machine.execHdrSource k e s
  | .hdrDestination k e => Sys2Proof.Machine.execHdrDestination k e s
  | .hdrDataSpec k e => Sys2Proof.Machine.execHdrDataSpec k e s
  | .hdrReserved k e => Sys2Proof.Machine.execHdrReserved k e s
  | .hdrTransferId k e => Sys2Proof.Machine.execHdrTransferId k e s
  | .hdrEotMarker k e => Sys2Proof.Machine.execHdrEotMarker k e s
  | .hdrCrc k e => Sys2Proof.Machine.execHdrCrc k e s
  | .payloadStore index e => Sys2Proof.Machine.execPayloadStore index e s
  | .classResponse t => Sys2Proof.Machine.execClassResponse t s
  | .classRequest t => Sys2Proof.Machine.execClassRequest t s
  | .classMessage t => Sys2Proof.Machine.execClassMessage t s

end Sys2Proof.Machine
end

