-- ==== Sys2Proof/Machine/Step.lean ====
section
/-! DEFINITION. One step of the machine: what the host presents next is decoded and run to completion
(60_exceptions.md R242). KSTC fetches no stored program (00_scope.md R4), so the command port stands where a
processor has its program counter. -/

namespace Sys2Proof.Machine

/-- The refusal of an instruction that does not decode (R83). -/
def refusalOf : DecodeError → Refusal
  | .reservedCommand code => .reservedCommand code
  | .badOperands op => .badOperands op

/-- The state once what the host presented has been taken from the port; `rest` is what it presents after. -/
def State.taken (s : State) (rest : List Presentation) : State := { s with env := { s.env with host := rest } }

/-- Runs a decoded instruction. A command, a symbol and a class are the whole step. A header or payload byte is the part
of a DATA symbol that its offset selects: it runs where the parser selects it, with what the DATA symbol does before
and after, so that no step departs from R129 (log entry 2). -/
def runDecoded (enc : Encoded) (i : Instr) (s : State) : Host.Outcome State Fault Refusal :=
  match enc with
  | .offset o e =>
    if s.selects o then andThen (exec i (beforeRule e s)) fun s' => .next (afterRule o s')
    else .refused .offsetNotSelected
  | .command _ _ | .wire _ | .dataSpec _ => exec i s

/-- One step. With nothing presented the block is idle with all state kept (R235). Two operations at once are
refused (R260, U9), as is a reserved command code (R83, U10). -/
def step (s : State) : Host.Outcome State Fault Refusal :=
  match s.env.host with
  | [] => .next s
  | .hardwareReset :: rest => .next (hardReset (s.taken rest))
  | .simultaneous _ _ :: _ => .refused .concurrentOperations
  | .op enc :: rest =>
    match decode enc with
    | .ok i => runDecoded enc i (s.taken rest)
    | .error e => .refused (refusalOf e)

/-- The state with an encoded instruction presented next. -/
def State.present (s : State) (enc : Encoded) : State :=
  { s with env := { s.env with host := .op enc :: s.env.host } }

/-- The state in which an encoded instruction can be selected: a header or payload byte needs the parser inside a
frame at its offset; nothing else needs anything. -/
def State.selecting (s : State) : Encoded → State
  | .offset o _ => { s with p := { s.p with inside := true, offset := o } }
  | .command _ _ | .wire _ | .dataSpec _ => s

/-- The state with a word of the opcode table presented next, and selected; a width the table does not have presents
nothing. -/
def State.withFetchWord (s : State) (nbits w : Nat) : State :=
  match tableEncoding nbits w with
  | some enc => (s.selecting enc).present enc
  | none => s

end Sys2Proof.Machine
end

