-- ==== Sys2Proof/Machine/Frame.lean ====
section
/-! DEFINITION. Whole frames, as 30_encoding.md R70 to R78 and 41_parser.md R125 to R146 describe them: the bytes
`FRAME(t)` of a transfer, and the transfer a sequence of wire bytes between two delimiters stands for. The step of the
machine uses none of this; claims compare the byte-at-a-time units with it. -/

namespace Sys2Proof.Machine

/-- The escape form of one logical byte (R77). -/
def escapeForm (v : Byte) : List Byte := if needsEscape v then [Config.escapeByte, ~~~v] else [v]

/-- The logical bytes of the frame of a transfer: two codewords, the header's and the payload's (R70, R107). -/
def logicalBytes (poly : Word) (t : Transfer) : List Byte :=
  codeword poly (headerBytes t) ++ codeword poly t.payload

/-- `FRAME(t)` (R70, R85, R161): what is offered when every offer is accepted. -/
def frameOf (poly : Word) (t : Transfer) : List Byte :=
  Config.frameDelimiter :: (logicalBytes poly t).flatMap escapeForm ++ [Config.frameDelimiter]

/-- The offers made for some bytes by a sink with the given answers, up to and with the first refusal (R167, R239).
Where the answers have run out the sink accepts (log entry 8). -/
def offersFor : List Byte → List Bool → List (Byte × Bool)
  | [], _ => []
  | b :: bs, [] => (b, true) :: offersFor bs []
  | b :: bs, true :: rest => (b, true) :: offersFor bs rest
  | b :: _, false :: _ => [(b, false)]

/-- The offers of `FRAME(t)` in a state. -/
def frameOffers (t : Transfer) (s : State) : List (Byte × Bool) := offersFor (frameOf s.cfg.crcPoly t) s.env.tx

/-- The state after these offers: the sink's answers used up and the calls in the trace. -/
def State.afterOffers (s : State) (os : List (Byte × Bool)) : State :=
  { s with
    env := { s.env with tx := s.env.tx.drop os.length }
    trace := (os.map fun o => Event.offer o.1 o.2).reverse ++ s.trace }

/-- Whether every offer was accepted. -/
def allAccepted (os : List (Byte × Bool)) : Bool := os.all fun o => o.2

/-- The logical bytes of the wire bytes between two delimiters (R77, R129), none if a second escape byte follows one
(R128). An escape byte with nothing after it is dropped (R142). -/
def unescape : List Byte → Option (List Byte)
  | [] => some []
  | b :: rest =>
    if b = Config.escapeByte then
      match rest with
      | [] => some []
      | c :: rest' => if c = Config.escapeByte then none else (unescape rest').map fun l => ~~~c :: l
    else (unescape rest).map fun l => b :: l

/-- The logical byte at an offset. -/
def byteAt (l : List Byte) (o : Nat) : Byte := l.getD o 0

/-- The conditions under which the logical bytes of a frame are surfaced (R43, R70, R71, R126, R141). -/
def frameValid (c : Params) (l : List Byte) : Bool :=
  decide (36 ≤ l.length) && decide (l.length ≤ 36 + c.maxPayload)
    && byteAt l 0 == Config.frameVersion
    && (l.drop 24).take 4 == Config.eotMarker
    && residueCorrect c (crcRun c.crcPoly Config.crcInit (l.take 32))
    && residueCorrect c (crcRun c.crcPoly Config.crcInit (l.drop 32))

/-- The transfer the logical bytes of a frame hold (R71). -/
def transferOf (l : List Byte) : Transfer :=
  { pri := byteAt l 1
    src := of16 (byteAt l 2) (byteAt l 3)
    dst := of16 (byteAt l 4) (byteAt l 5)
    dspec := of16 (byteAt l 6) (byteAt l 7)
    tid := of64 (byteAt l 16) (byteAt l 17) (byteAt l 18) (byteAt l 19) (byteAt l 20) (byteAt l 21) (byteAt l 22)
      (byteAt l 23)
    payload := (l.drop 32).take (l.length - 36) }

/-- What the wire bytes between two delimiters surface. -/
def frameTransfer (c : Params) (body : List Byte) : Option Transfer :=
  match unescape body with
  | some l => if frameValid c l then some (transferOf l) else none
  | none => none

/-- `PARSE.FEED` (R85): `PARSE.UPDATE` over the bytes, with the results in order. -/
def feed : List Byte → State → Host.Outcome (List Result × State) Fault Refusal
  | [], s => .next ([], s)
  | b :: bs, s =>
    andThen (exec (.parseUpdate b) s) fun s1 =>
      andThen (feed bs s1) fun r => .next (s1.result :: r.1, r.2)

/-- `CRC.FEED` (R85): `CRC.UPDATE` over the bytes. -/
def crcFeed : List Byte → State → Host.Outcome State Fault Refusal
  | [], s => .next s
  | b :: bs, s => andThen (exec (.crcUpdate b) s) (crcFeed bs)

/-- Instructions one after another. -/
def execAll : List Instr → State → Host.Outcome State Fault Refusal
  | [], s => .next s
  | i :: is, s => andThen (exec i s) (execAll is)

/-- The bytes given to `CRC.UPDATE` since the last `CRC.RESET` of a list of instructions; the first argument holds
those given before it (R106). -/
def updatesSinceReset : List Byte → List Instr → List Byte
  | acc, [] => acc
  | _, .crcReset :: is => updatesSinceReset [] is
  | acc, .crcUpdate b :: is => updatesSinceReset (acc ++ [b]) is
  | acc, _ :: is => updatesSinceReset acc is

/-- A byte sequence with one bit inverted: bit `n % 8` of byte `n / 8` (R109). -/
def flipBit (l : List Byte) (n : Nat) : List Byte := l.modify (n / 8) fun b => b ^^^ (1#8 <<< (n % 8))

/-- The parser right after a delimiter: inside a frame at offset 0 with a fresh CRC (R62, R125). -/
def State.atFrameStart (s : State) : Bool :=
  s.p.inside && !s.p.unesc && s.p.offset == 0 && s.p.crc == Config.crcInit

/-- `NODE.POLL` told by the meanings of the instructions it selects (R184, R185): one `PARSE.UPDATE` per received
byte, and the class instruction of a transfer it returns before the next byte. -/
def pollByInstructions : Nat → State → Host.Outcome State Fault Refusal
  | 0, s => .next s
  | k + 1, s =>
    match rxTake s with
    | (none, s') => .next s'
    | (some b, s') =>
      andThen (exec (.parseUpdate b) s') fun s1 =>
        match s1.result with
        | .transfer (some t) => andThen (exec (decodeTransfer t) s1) (pollByInstructions k)
        | _ => pollByInstructions k s1

end Sys2Proof.Machine
end

