-- ==== Sys2Proof/Safety.lean ====
section
/-! DEFINITION. What counts as a safe run: the invariants of 10_state.md R43, the contracts the environment keeps,
and the part of the state an observer of the block can tell apart. -/

namespace Sys2Proof.Machine

/-- A byte array in its canonical form inside its capacity. -/
def Memory.within (cap : Nat) (m : Memory) : Bool := Memory.wf m && m.all fun c => decide (c.1 < cap)

/-- The invariant every step keeps. It has the parts (i), (ii) and (v) of R43, of part (iv) that every payload-region
byte of the frame can be read, and the same of a payload view inside its window (R60). -/
structure State.Inv (s : State) : Prop where
  /-- R43 (i). -/
  outside_clear : s.p.inside = false → s.p.unesc = false ∧ s.p.offset = 0 ∧ s.p.crc = Config.crcInit
  /-- R43 (ii). -/
  offset_bound : s.p.offset ≤ Config.headerSize + s.cfg.bufCap
  /-- R43 (v), with the canonical form of `P.buf`. -/
  buf_within : Memory.within s.cfg.bufCap s.p.buf = true
  /-- The canonical form of `N.resp_buf` inside its capacity (R34). -/
  resp_within : Memory.within s.cfg.respCap s.n.respBuf = true
  /-- From R43 (iv): the bytes of the frame's payload region have been written. -/
  region_written : s.p.inside = true → ∀ i, i + Config.headerSize < s.p.offset → (s.bufRead i).isSome = true
  /-- The bytes of a view inside its window have been written, and it is no longer than a payload (R30, R60). -/
  view_written : ∀ v, s.view = some v → v.age ≤ 1 →
    v.len ≤ s.cfg.maxPayload ∧ ∀ i, i < v.len → (s.bufRead i).isSome = true

/-- R43 (iii): inside a frame past its header, header bytes 0 to 31 of this frame passed the version check, the marker
check and the header residue check, and the five metadata registers were written from this header. -/
def State.HeaderChecked (s : State) : Prop :=
  s.p.inside = true → Config.headerSize ≤ s.p.offset →
    byteAt s.frame 0 = Config.frameVersion ∧ (s.frame.drop 24).take 4 = Config.eotMarker ∧
    residueCorrect s.cfg (crcRun s.cfg.crcPoly Config.crcInit (s.frame.take 32)) = true ∧
    s.p.pri = (transferOf s.frame).pri ∧ s.p.src = (transferOf s.frame).src ∧ s.p.dst = (transferOf s.frame).dst ∧
    s.p.dspec = (transferOf s.frame).dspec ∧ s.p.tid = (transferOf s.frame).tid

/-- R43 (iv): inside a frame past its header, the buffer holds this frame's payload-region bytes and `P.crc` is the CRC
state of exactly these bytes. -/
def State.RegionChecked (s : State) : Prop :=
  s.p.inside = true → Config.headerSize ≤ s.p.offset →
    s.payloadView (s.p.offset - Config.headerSize) = some (s.frame.drop 32) ∧
    s.p.crc = crcRun s.cfg.crcPoly Config.crcInit (s.frame.drop 32)

/-- What the rule of offset `o` leaves behind of its byte, if it did not abandon the frame (R132 to R141). -/
def State.Holds (s : State) (o : Nat) (e : Byte) : Prop :=
  match offsetRule o with
  | .version => e = Config.frameVersion
  | .priority => s.p.pri = e
  | .source k => lane s.p.src k = e
  | .destination k => lane s.p.dst k = e
  | .dataSpec k => lane s.p.dspec k = e
  | .reserved _ => True
  | .transferId k => lane s.p.tid k = e
  | .eotMarker k => e = eotByte k
  | .headerCrc _ => True
  | .payload i => s.bufRead i = some e

/-- R43 (iii) and (iv) in the form every step keeps, for a frame at any offset: the parser holds what its logical bytes
so far left behind. Past the header it says `HeaderChecked` and `RegionChecked`. -/
structure State.FrameChecked (s : State) : Prop where
  /-- `P.offset` counts the logical bytes of this frame (R24). -/
  length : s.frame.length = s.p.offset
  /-- Each byte was checked or stored by the rule of its offset. -/
  held : ∀ o, o < s.p.offset → s.Holds o (byteAt s.frame o)
  /-- `P.crc` is the CRC state of the header so far, or of the payload region so far. -/
  crc : s.p.crc = crcRun s.cfg.crcPoly Config.crcInit (if s.p.offset < Config.headerSize then s.frame else s.frame.drop 32)
  /-- The header residue was right. -/
  residue : Config.headerSize ≤ s.p.offset →
    residueCorrect s.cfg (crcRun s.cfg.crcPoly Config.crcInit (s.frame.take 32)) = true

/-- Whether a reactor answer keeps the contract of R241 and does not call back (R202). -/
def RequestAnswer.legal (c : Params) : RequestAnswer → Bool
  | .returned writes len => answerLegal c writes len
  | .reentered => false

/-- Whether the listed reactor answers keep their contract. -/
def State.reactorLegal (s : State) : Bool :=
  s.env.onResponse.all (fun a => a == .returned) && s.env.onRequest.all (RequestAnswer.legal s.cfg)

/-- Whether what is presented next is something the spec admits: nothing, a hardware reset, or one instruction that
decodes, meets its precondition (R82, R220) and, if it is a header or payload byte, is the one the parser selects. -/
def State.admits (s : State) : Bool :=
  match s.env.host with
  | [] => true
  | .hardwareReset :: _ => true
  | .simultaneous _ _ :: _ => false
  | .op (.offset o _) :: _ => s.selects o
  | .op enc :: _ =>
    match decode enc with
    | .ok i => i.admitted s.cfg
    | .error _ => false

/-- The state without what only the model keeps and no rule reads: the bytes of the frame, the traces and the view
(R226). -/
def State.withoutGhosts (s : State) : State := { s with view := none, frame := [], trace := [], labels := [] }

/-- The state of the same block with another `POLL_BUDGET` (R203). -/
def State.withBudget (b : Nat) (s : State) : State := { s with cfg := { s.cfg with pollBudget := b } }

/-- The next state of an outcome through a function, a stop as it is. -/
def mapNext (f : State → State) (o : Host.Outcome State Fault Refusal) : Host.Outcome State Fault Refusal :=
  andThen o fun s => .next (f s)

/-- The pending record (R33). -/
def State.pending (s : State) : Bool × Half × ServiceId × Tid :=
  (s.n.pendValid, s.n.pendServer, s.n.pendService, s.n.pendTid)

end Sys2Proof.Machine
end

