-- ==== Sys2Proof/Certificates/Slice0/Obligations.lean ====
section
/-! DEFINITION. The statements for the provers. Each docstring names the rules of spec/ it formalises; a statement that
says more than a rule, or rests on a choice of the model, says so. -/

open Sys2Proof Sys2Proof.Machine

/-! ### The CRC engine -/

/-- R101, R103 to R105: the four operations complete from every state, with this result and nothing else changed.
CRC_INIT is the decision D6 of the spec. -/
def Obligations.CrcOperationsComplete : Prop :=
  ∀ (s : State) (b : Byte),
    exec .crcReset s = .next { s with u := Config.crcInit, result := .none } ∧
    exec (.crcUpdate b) s = .next { s with u := crcStep s.cfg.crcPoly s.u b, result := .none } ∧
    exec .crcValue s = .next { s with result := .word (s.u ^^^ 0xFFFFFFFF#32) } ∧
    exec .crcResidueOk s = .next { s with result := .bit (decide (s.u = residueOf s.cfg.crcPoly)) }

/-- R102, its last derived sentence: the byte step is a shift by 8 and one entry of a table of 256. The spec marks the
sentence as its own derivation. -/
def Obligations.CrcStepHasTableForm : Prop :=
  ∀ (poly r : Word) (b : Byte),
    crcStep poly r b = (r >>> 8) ^^^ crcStep poly 0 ((r ^^^ b.setWidth 32).setWidth 8)

/-- R106: incrementality of `crc_run`; and wherever `U.reg` is the run over some bytes, as it is over none after a hardware
reset, after any instructions that complete it is the run over the bytes given to `CRC.UPDATE` since the last
`CRC.RESET`, the earlier ones before them, whatever the environment answers. -/
def Obligations.CrcRegisterIsRunSinceReset : Prop :=
  (∀ (poly r : Word), crcRun poly r [] = r) ∧
  (∀ (poly r : Word) (s t : List Byte), crcRun poly r (s ++ t) = crcRun poly (crcRun poly r s) t) ∧
  (∀ (c : Params) (s x : State), x = State.resetWith c ∨ x = hardReset s →
    x.u = crcRun x.cfg.crcPoly Config.crcInit []) ∧
  ∀ (s t : State) (given : List Byte) (is : List Instr), s.u = crcRun s.cfg.crcPoly Config.crcInit given →
    execAll is s = .next t → t.u = crcRun s.cfg.crcPoly Config.crcInit (updatesSinceReset given is)

/-- R108: a sequence with its own checksum appended leaves the residue, whatever the sequence and the initial
register, and the residue's two forms and its number for the default polynomial. The spec marks the law as its own
derivation from R102. -/
def Obligations.ResidueDoesNotDependOnMessage : Prop :=
  (∀ (poly r0 : Word) (s : List Byte),
    crcRun poly (crcRun poly r0 s) (le32 (crcRun poly r0 s ^^^ Config.crcXorOut)) = residueOf poly) ∧
  (∀ (poly : Word), residueOf poly = crcRun poly 0x00000000 [0xFF, 0xFF, 0xFF, 0xFF] ∧
    residueOf poly = crcRun poly 0xFFFFFFFF [0x00, 0x00, 0x00, 0x00]) ∧
  residueOf 0x82F63B78 = 0xB798B438

/-- R109, for every polynomial of degree 32 (R111): a sequence of at least 4 bytes leaves the residue exactly if it is
a codeword, and no codeword with one bit inverted does. The spec marks the detection as its own derivation. -/
def Obligations.ResidueHoldsExactlyForCodewords : Prop :=
  ∀ (c : Params), c.legal = true →
    (∀ (l : List Byte), 4 ≤ l.length →
      (crcRun c.crcPoly Config.crcInit l = residueOf c.crcPoly ↔ ∃ s, l = codeword c.crcPoly s)) ∧
    ∀ (s : List Byte) (n : Nat), n < 8 * (codeword c.crcPoly s).length →
      crcRun c.crcPoly Config.crcInit (flipBit (codeword c.crcPoly s) n) ≠ residueOf c.crcPoly

/-! ### The parser's operations and symbols -/

/-- R121, R123, R252: `PARSE.RESET` completes from every state, sets exactly these registers and clears the
model's ghost bytes of the frame (log entry 21), and keeps `P.buf`. The five metadata values are
the decision D11 of the spec. -/
def Obligations.ParseResetClearsTheParser : Prop :=
  ∀ (s : State), exec .parseReset s = .next { s with
    p :=
      { inside := false
        unesc := false
        offset := 0
        crc := Config.crcInit
        pri := 7
        src := 0xFFFF
        dst := 0xFFFF
        dspec := 0x0000
        tid := 0
        buf := s.p.buf }
    frame := []
    result := .none }

/-- R124, R76: `PARSE.UPDATE` does what the symbol of its byte does, and the symbol is DELIM for 0x9E, ESC for 0x8E and
DATA for every other byte, whatever the state. -/
def Obligations.ParseUpdateRunsItsSymbol : Prop :=
  ∀ (s : State) (b : Byte),
    exec (.parseUpdate b) s =
      if b = 0x9E then exec .symDelim s else if b = 0x8E then exec .symEsc s else exec (.symData b) s

/-- R125, R126: a delimiter returns the transfer of the frame if the three conditions hold, none otherwise, and leaves
the parser inside a fresh frame in both cases, with `P.buf`, `U` and `N` as they were. Where the three conditions hold
and a payload byte has never been written it stops with the fault of R31. The stop on an unwritten byte is the model's
reading of R31 (D12; log entry 4). -/
def Obligations.DelimiterEmitsAndReopens : Prop :=
  ∀ (s : State),
    (∀ (payload : List Byte), s.p.inside = true → 36 ≤ s.p.offset → s.p.crc = residueOf s.cfg.crcPoly →
      s.payloadView (s.p.offset - 36) = some payload →
      ∃ t, exec .symDelim s = .next t ∧
        t.result = .transfer (some
          { pri := s.p.pri
            src := s.p.src
            dst := s.p.dst
            dspec := s.p.dspec
            tid := s.p.tid
            payload := payload }) ∧
        t.p = { Parser.reset with inside := true, buf := s.p.buf } ∧
        t.u = s.u ∧ t.n = s.n ∧ t.cfg = s.cfg ∧ t.env = s.env ∧ t.trace = s.trace) ∧
    (¬(s.p.inside = true ∧ 36 ≤ s.p.offset ∧ s.p.crc = residueOf s.cfg.crcPoly) →
      ∃ t, exec .symDelim s = .next t ∧
        t.result = .transfer none ∧
        t.p = { Parser.reset with inside := true, buf := s.p.buf } ∧
        t.u = s.u ∧ t.n = s.n ∧ t.cfg = s.cfg ∧ t.env = s.env ∧ t.trace = s.trace) ∧
    (s.p.inside = true → 36 ≤ s.p.offset → s.p.crc = residueOf s.cfg.crcPoly →
      s.payloadView (s.p.offset - 36) = none → exec .symDelim s = .fault .bufferByteUnwritten)

/-- R142: what a delimiter does is the same with and without an escape pending. The spec marks the rule as derived. -/
def Obligations.DelimiterIgnoresPendingEscape : Prop :=
  ∀ (s : State) (x y : Bool),
    exec .symDelim { s with p := { s.p with unesc := x } } = exec .symDelim { s with p := { s.p with unesc := y } }

/-- R128, R130: inside a frame the escape symbol sets the flag and a second one abandons the frame; outside it changes
nothing of `P`. `U`, `N` and `P.buf` are kept in every case. That an abandon clears the other registers is the
decision D10 of the spec. -/
def Obligations.EscapeSymbolSetsOrAbandons : Prop :=
  ∀ (s : State), ∃ t, exec .symEsc s = .next t ∧ t.result = .transfer none ∧
    t.p = (if s.p.inside = true then
        (if s.p.unesc = true then { Parser.reset with buf := s.p.buf } else { s.p with unesc := true })
      else s.p) ∧
    t.u = s.u ∧ t.n = s.n ∧ t.cfg = s.cfg ∧ t.env = s.env ∧ t.trace = s.trace

/-- R129: inside a frame a data symbol feeds the logical byte to `P.crc`, runs the decoding instruction its offset
selects (R131), and advances the offset unless that abandoned the frame. That the offset advances in its `OFF_W` bits
(R9, R24, decision D8) and never wraps there, so that it becomes the offset and 1, follows from R150 and R151, which the
spec marks as derived in part, and is the model's log entry 7 (DEDUCED). The logical byte also joins the model's ghost
bytes of the frame (DESIGN CHOICE, log entry 21). -/
def Obligations.DataSymbolRunsItsOffset : Prop :=
  ∀ (s : State) (b : Byte), s.p.inside = true →
    ∃ e s1 s2, e = (if s.p.unesc = true then ~~~b else b) ∧
      s1.p = { s.p with unesc := false, crc := crcStep s.cfg.crcPoly s.p.crc e } ∧ s1.frame = s.frame ++ [e] ∧
      s1.u = s.u ∧ s1.n = s.n ∧ s1.cfg = s.cfg ∧ s1.env = s.env ∧ s1.trace = s.trace ∧
      exec (decodeOffset s.p.offset e) s1 = .next s2 ∧
      exec (.symData b) s = .next { s2 with
        p := (if s2.p.inside = true then { s2.p with offset := (s.p.offset + 1) % 2 ^ s.cfg.offW } else s2.p)
        result := .transfer none } ∧
      (s2.p.inside = true → (s.p.offset + 1) % 2 ^ s.cfg.offW = s.p.offset + 1)

/-- R130, R57: a data symbol outside a frame changes nothing of `P`; in every case it keeps `U` and `N` and writes no
byte of `P.buf` but the one at `P.offset - 32`, and none in the header region. -/
def Obligations.DataSymbolFrame : Prop :=
  ∀ (s : State) (b : Byte), ∃ t, exec (.symData b) s = .next t ∧ t.result = .transfer none ∧
    (s.p.inside = false → t.p = s.p) ∧
    t.u = s.u ∧ t.n = s.n ∧ t.cfg = s.cfg ∧ t.env = s.env ∧ t.trace = s.trace ∧
    ∀ (a : Nat), (s.p.offset < 32 ∨ a ≠ s.p.offset - 32) → t.bufRead a = s.bufRead a

/-! ### The decoding instructions -/

/-- R132, R139, R140: the three checks of the header. Each completes; where the check holds the header goes on (at the
last CRC byte with a fresh register), else the parser is cleared, `P.buf` kept and nothing else of the block changed, the
model's ghosts apart (log entries 14 and 21).
That an abandon clears every register, and that the marker is compared byte by byte, are the decisions D10 and D13 of
the spec. -/
def Obligations.HeaderChecksPassOrAbandon : Prop :=
  ∀ (s : State) (e : Byte),
    (∃ l, exec (.hdrVersion e) s = .next (if e = 0x00 then s
      else { s with p := { Parser.reset with buf := s.p.buf }, frame := [], labels := l })) ∧
    (∀ (k : Fin 4), ∃ l, exec (.hdrEotMarker k e) s =
      .next (if e = (if k = 3 then 0x80 else 0x00) then s
        else { s with p := { Parser.reset with buf := s.p.buf }, frame := [], labels := l })) ∧
    (∀ (k : Fin 4), k ≠ 3 → exec (.hdrCrc k e) s = .next s) ∧
    (∃ l, exec (.hdrCrc 3 e) s =
      .next (if s.p.crc = residueOf s.cfg.crcPoly then { s with p := { s.p with crc := Config.crcInit } }
        else { s with p := { Parser.reset with buf := s.p.buf }, frame := [], labels := l }))

/-- R133 to R136, R138: every metadata byte completes from every state, whatever its value, and replaces its own byte
lane of its own register and nothing else. That the priority is stored unmasked is the decision D14 of the spec. -/
def Obligations.HeaderBytesReplaceTheirLane : Prop :=
  ∀ (s : State) (e : Byte),
    exec (.hdrPriority e) s = .next { s with p := { s.p with pri := e } } ∧
    (∀ (k : Fin 2), ∃ v, exec (.hdrSource k e) s = .next { s with p := { s.p with src := v } } ∧
      ∀ j, j < 2 → v.extractLsb' (8 * j) 8 = if j = k.val then e else s.p.src.extractLsb' (8 * j) 8) ∧
    (∀ (k : Fin 2), ∃ v, exec (.hdrDestination k e) s = .next { s with p := { s.p with dst := v } } ∧
      ∀ j, j < 2 → v.extractLsb' (8 * j) 8 = if j = k.val then e else s.p.dst.extractLsb' (8 * j) 8) ∧
    (∀ (k : Fin 2), ∃ v, exec (.hdrDataSpec k e) s = .next { s with p := { s.p with dspec := v } } ∧
      ∀ j, j < 2 → v.extractLsb' (8 * j) 8 = if j = k.val then e else s.p.dspec.extractLsb' (8 * j) 8) ∧
    (∀ (k : Fin 8), ∃ v, exec (.hdrTransferId k e) s = .next { s with p := { s.p with tid := v } } ∧
      ∀ j, j < 8 → v.extractLsb' (8 * j) 8 = if j = k.val then e else s.p.tid.extractLsb' (8 * j) 8)

/-- R137: a reserved byte completes from every state, stores nothing and checks nothing. -/
def Obligations.ReservedByteChangesNothing : Prop :=
  ∀ (s : State) (k : Fin 8) (e : Byte), exec (.hdrReserved k e) s = .next s

/-- R51, R72: the 8 bytes of a transfer id, in the order of their offsets, assemble it least significant byte first,
whatever the register held before. -/
def Obligations.TransferIdAssemblesLittleEndian : Prop :=
  ∀ (s : State) (v : Tid),
    execAll
      [.hdrTransferId 0 (v.extractLsb' 0 8), .hdrTransferId 1 (v.extractLsb' 8 8),
       .hdrTransferId 2 (v.extractLsb' 16 8), .hdrTransferId 3 (v.extractLsb' 24 8),
       .hdrTransferId 4 (v.extractLsb' 32 8), .hdrTransferId 5 (v.extractLsb' 40 8),
       .hdrTransferId 6 (v.extractLsb' 48 8), .hdrTransferId 7 (v.extractLsb' 56 8)] s
      = .next { s with p := { s.p with tid := v } }

/-- R141, R57: a payload-region byte is stored at its index if there is room, and only there; the first one without
room abandons the frame, with the model's ghosts (log entries 14 and 21), and stores nothing. Where the
guard trips and what the abandon clears are the decisions D9 and D10 of the spec. -/
def Obligations.PayloadByteStoredOrOverflow : Prop :=
  ∀ (s : State) (i : Nat) (e : Byte),
    (i < s.cfg.maxPayload + 4 →
      ∃ m, exec (.payloadStore i e) s = .next { s with p := { s.p with buf := m } } ∧
        ∀ t, exec (.payloadStore i e) s = .next t →
          t.bufRead i = some e ∧ ∀ a, a ≠ i → t.bufRead a = s.bufRead a) ∧
    (s.cfg.maxPayload + 4 ≤ i →
      ∃ l, exec (.payloadStore i e) s =
        .next { s with p := { Parser.reset with buf := s.p.buf }, frame := [], labels := l })

/-! ### The parser as a whole -/

/-- R147: from every state of the invariant `PARSE.UPDATE` completes, and the sequencer triple moves as the table of
transitions says, with the output of its row. -/
def Obligations.ParserFollowsTransitionTable : Prop :=
  ∀ (s : State) (b : Byte), s.Inv →
    ∃ t, exec (.parseUpdate b) s = .next t ∧
      (s.p.inside = false → s.p.unesc = false ∧ s.p.offset = 0) ∧
      if b = 0x9E then
        (t.p.inside, t.p.unesc, t.p.offset) = (true, false, 0) ∧
          if s.p.inside = true ∧ 36 ≤ s.p.offset ∧ s.p.crc = residueOf s.cfg.crcPoly then
            ∃ r, t.result = .transfer (some r) ∧ r.payload.length = s.p.offset - 36
          else t.result = .transfer none
      else t.result = .transfer none ∧
        (t.p.inside, t.p.unesc, t.p.offset) =
          if s.p.inside = false then (false, false, 0)
          else if b = 0x8E then (if s.p.unesc = true then (false, false, 0) else (true, true, s.p.offset))
          else
            let e := if s.p.unesc = true then ~~~b else b
            if (s.p.offset = 0 ∧ e ≠ 0x00)
              ∨ (24 ≤ s.p.offset ∧ s.p.offset ≤ 27 ∧ e ≠ if s.p.offset = 27 then 0x80 else 0x00)
              ∨ (s.p.offset = 31 ∧ crcStep s.cfg.crcPoly s.p.crc e ≠ residueOf s.cfg.crcPoly)
              ∨ s.p.offset = 32 + s.cfg.bufCap
            then (false, false, 0) else (true, false, s.p.offset + 1)

/-- R144: a byte sequence without a delimiter completes and yields no transfer from any state, and from every state of
the invariant any sequence followed by one delimiter leaves the parser at the start of a frame. The spec marks the
second half as derived. -/
def Obligations.OnlyDelimitersYieldTransfers : Prop :=
  (∀ (s : State) (bs : List Byte), 0x9E ∉ bs →
    ∃ t, feed bs s = .next (List.replicate bs.length (.transfer none), t)) ∧
  ∀ (s : State) (bs : List Byte), s.Inv → ∃ rs t, feed (bs ++ [0x9E]) s = .next (rs, t) ∧ t.atFrameStart = true

/-- R70, R71, R77, R125 to R141: from the start of a frame, any wire bytes without a delimiter and then a delimiter
yield exactly what the whole-frame function says of them, at the delimiter and nowhere before, and leave the parser at
the start of the next frame. So the parser surfaces a transfer if and only if both residues, the version, the marker
and the length are right. Where the overflow guard trips is the decision D9 of the spec. -/
def Obligations.ParserRefinesFrameFunction : Prop :=
  ∀ (s : State) (body : List Byte), s.atFrameStart = true → 0x9E ∉ body →
    ∃ t, feed (body ++ [0x9E]) s =
        .next (List.replicate body.length (.transfer none) ++ [.transfer (frameTransfer s.cfg body)], t) ∧
      t.atFrameStart = true ∧ t.u = s.u ∧ t.n = s.n ∧ t.cfg = s.cfg ∧ t.env = s.env ∧ t.trace = s.trace

/-- R145: a frame whose version is not 0, or whose end-of-transfer field is not the marker, yields no transfer, whatever
its checksums. -/
def Obligations.HeaderRejectionNeverYields : Prop :=
  ∀ (s : State) (body l : List Byte), s.atFrameStart = true → 0x9E ∉ body → unescape body = some l → 28 ≤ l.length →
    (l.take 1 ≠ [0x00] ∨ (l.drop 24).take 4 ≠ [0x00, 0x00, 0x00, 0x80]) →
    ∃ t, feed (body ++ [0x9E]) s = .next (List.replicate (body.length + 1) (.transfer none), t)

/-- R146, R171: the frame of a transfer no longer than the maximum, fed to a parser after `PARSE.RESET`, returns none for
every byte but the last and exactly the transfer for the last. -/
def Obligations.FrameRoundTrip : Prop :=
  ∀ (s : State) (r : Transfer), r.payload.length ≤ s.cfg.maxPayload →
    ∃ t, andThen (exec .parseReset s) (feed (frameOf s.cfg.crcPoly r)) =
      .next (List.replicate ((frameOf s.cfg.crcPoly r).length - 1) (.transfer none) ++ [.transfer (some r)], t)

/-- R60: what a holder reads through the view of a transfer that was just emitted is the transfer's payload, and it
still is after one further `PARSE.UPDATE`, whatever the byte, and after a `PARSE.RESET`. What a later read gives is a
free value and nothing here rests on it (log entry 6). -/
def Obligations.PayloadViewHoldsForItsWindow : Prop :=
  ∀ (s s1 : State) (r : Transfer), exec (.parseUpdate 0x9E) s = .next s1 → s1.result = .transfer (some r) →
    (∀ i, s1.viewByte i = r.payload[i]?) ∧
    (∀ (b : Byte), ∃ s2, exec (.parseUpdate b) s1 = .next s2 ∧ ∀ i, s2.viewByte i = r.payload[i]?) ∧
    ∃ s3, exec .parseReset s1 = .next s3 ∧ ∀ i, s3.viewByte i = r.payload[i]?

/-! ### The encoder -/

/-- R161 to R163, R166, R167, R239: `ENC.ENCODE` with an admitted payload completes from every state. It offers the
frame of the transfer byte by byte up to the first refusal, returns whether there was none, and changes nothing of
`U`, `P` and `N`. A sink whose listed answers have run out accepts: the model's choice, log entry 8. -/
def Obligations.EncodeOffersTheFrame : Prop :=
  ∀ (s : State) (t : Transfer), t.payload.length ≤ s.cfg.maxPayload →
    ∃ l, exec (.encEncode t) s = .next { s.afterOffers (frameOffers t s) with
      labels := l
      result := .bit (allAccepted (frameOffers t s)) }

/-- R164: the 28 header bytes by offset. That the priority is sent unmasked is the decision D14 of the spec. -/
def Obligations.HeaderBytesByOffset : Prop :=
  ∀ (t : Transfer), headerBytes t =
    [0x00, t.pri, t.src.extractLsb' 0 8, t.src.extractLsb' 8 8, t.dst.extractLsb' 0 8, t.dst.extractLsb' 8 8,
     t.dspec.extractLsb' 0 8, t.dspec.extractLsb' 8 8, 0x00, 0x00, 0x00, 0x00, 0x00, 0x00, 0x00, 0x00,
     t.tid.extractLsb' 0 8, t.tid.extractLsb' 8 8, t.tid.extractLsb' 16 8, t.tid.extractLsb' 24 8,
     t.tid.extractLsb' 32 8, t.tid.extractLsb' 40 8, t.tid.extractLsb' 48 8, t.tid.extractLsb' 56 8,
     0x00, 0x00, 0x00, 0x80]

/-- R168: if every offer is accepted, the encoder makes `38 + len + k` offers, with `k` the number of logical bytes
that equal a control byte. The spec marks the count as derived; a sink whose listed answers have run out accepts (log
entry 8). -/
def Obligations.AcceptedFrameOfferCount : Prop :=
  ∀ (s : State) (t : Transfer), allAccepted (frameOffers t s) = true →
    (frameOffers t s).length = 38 + t.payload.length
      + (logicalBytes s.cfg.crcPoly t).countP (fun v => v == 0x9E || v == 0x8E)

/-- R171, R77: between its two delimiters a frame holds no delimiter; unescaping gives back its logical bytes, and
these are a valid frame that holds the transfer. The spec marks both rules as derived in part. -/
def Obligations.EncodedFrameIsValid : Prop :=
  ∀ (c : Params) (t : Transfer), t.payload.length ≤ c.maxPayload →
    ∃ body, frameOf c.crcPoly t = 0x9E :: body ++ [0x9E] ∧ 0x9E ∉ body ∧
      unescape body = some (logicalBytes c.crcPoly t) ∧ frameTransfer c body = some t

/-- R169, R82 (93_implementation_defined.md U6): a payload longer than the maximum is refused, by each of the three
operations that take one. The precondition is the decision D15 of the spec. -/
def Obligations.LongPayloadIsRefused : Prop :=
  ∀ (s : State) (t : Transfer) (service : ServiceId) (server : Half) (subject : SubjectId) (tid : Tid)
    (payload : List Byte),
    (s.cfg.maxPayload < t.payload.length → exec (.encEncode t) s = .refused .payloadTooLong) ∧
    (s.cfg.maxPayload < payload.length →
      exec (.nodeSendRequest service server tid payload) s = .refused .payloadTooLong ∧
      exec (.nodePublish subject tid payload) s = .refused .payloadTooLong)

/-! ### The node orchestrator -/

/-- R183: `NODE.SET_ID` completes from every state and writes `N.local_id` alone. The operation is the decision D17 of
the spec. -/
def Obligations.SetIdWritesTheIdentity : Prop :=
  ∀ (s : State) (id : Half),
    exec (.nodeSetId id) s = .next { s with n := { s.n with localId := id }, result := .none }

/-- R193: `NODE.CANCEL_REQUEST` completes from every state and clears `N.pend_valid` alone. -/
def Obligations.CancelClearsPendingFlag : Prop :=
  ∀ (s : State),
    exec .nodeCancelRequest s = .next { s with n := { s.n with pendValid := false }, result := .none }

/-- R191, R192: `NODE.SEND_REQUEST` with an admitted payload completes from every state: false and nothing offered for
an anonymous node; else the request's frame is offered, and if it was accepted whole the pending record is overwritten
and true returned, else the record is kept and false returned. The priority is the decision D19 of the spec; a sink
whose listed answers have run out accepts (log entry 8). -/
def Obligations.SendRequestRecordsOnSuccess : Prop :=
  ∀ (s : State) (service : ServiceId) (server : Half) (tid : Tid) (payload : List Byte),
    payload.length ≤ s.cfg.maxPayload →
    let r : Transfer :=
      { pri := 7
        src := s.n.localId
        dst := server
        dspec := 0x8000#16 ||| service.setWidth 16
        tid := tid
        payload := payload }
    (s.n.localId = 0xFFFF → ∃ l, exec (.nodeSendRequest service server tid payload) s =
      .next { s with labels := l, result := .bit false }) ∧
    (s.n.localId ≠ 0xFFFF → allAccepted (frameOffers r s) = true →
      exec (.nodeSendRequest service server tid payload) s = .next { s.afterOffers (frameOffers r s) with
        n := { s.n with pendValid := true, pendServer := server, pendService := service, pendTid := tid }
        result := .bit true }) ∧
    (s.n.localId ≠ 0xFFFF → allAccepted (frameOffers r s) = false →
      ∃ l, exec (.nodeSendRequest service server tid payload) s = .next { s.afterOffers (frameOffers r s) with
        labels := l
        result := .bit false })

/-- R200: `NODE.PUBLISH` with an admitted payload completes from every state: false and nothing offered for an
anonymous node; else the message's frame is offered and whether it was accepted whole returned. The pending record is
kept. Priority and destination are the decisions D19 and D20 of the spec; a sink whose listed answers have run out
accepts (log entry 8). -/
def Obligations.PublishOffersTheMessage : Prop :=
  ∀ (s : State) (subject : SubjectId) (tid : Tid) (payload : List Byte), payload.length ≤ s.cfg.maxPayload →
    let r : Transfer :=
      { pri := 7
        src := s.n.localId
        dst := 0xFFFF
        dspec := subject.setWidth 16
        tid := tid
        payload := payload }
    (s.n.localId = 0xFFFF → ∃ l, exec (.nodePublish subject tid payload) s =
      .next { s with labels := l, result := .bit false }) ∧
    (s.n.localId ≠ 0xFFFF → ∃ l, exec (.nodePublish subject tid payload) s =
      .next { s.afterOffers (frameOffers r s) with
        labels := l
        result := .bit (allAccepted (frameOffers r s)) })

/-- R73, R181: the class of a data spec by match and mask, exactly one for every value. -/
def Obligations.DataSpecClassesByMask : Prop :=
  ∀ (d : Half),
    (classify d = .response ↔ d &&& 0xC000#16 = 0xC000#16) ∧
    (classify d = .request ↔ d &&& 0xC000#16 = 0x8000#16) ∧
    (classify d = .message ↔ d &&& 0x8000#16 = 0x0000#16)

/-- R74, R182: the service id is the data spec without its role bits, and the data specs a request, a response and a
message are sent with are of their class and carry their id. The operand widths are the decision D18 of the spec. -/
def Obligations.DataSpecIdsRoundTrip : Prop :=
  (∀ (d : Half), (serviceOf d).setWidth 16 = d &&& 0x3FFF#16) ∧
  (∀ (v : ServiceId), classify (requestSpec v) = .request ∧ serviceOf (requestSpec v) = v ∧
    classify (responseSpec v) = .response ∧ serviceOf (responseSpec v) = v) ∧
  ∀ (v : SubjectId), classify (messageSpec v) = .message ∧ (messageSpec v).setWidth 15 = v

/-- R186, R187: a response that meets the six conditions is delivered once and clears the pending flag; one that fails
any is dropped with no call and no state change. A reactor that calls back is refused (R202). The order of call and
clear and the refusal are the decision D26 of the spec; a reactor whose listed answers have run out returns (log entry
8). -/
def Obligations.ResponseDeliveredOrDropped : Prop :=
  ∀ (s : State) (t : Transfer),
    let six := s.n.pendValid = true ∧ s.n.localId ≠ 0xFFFF ∧ t.dspec.setWidth 14 = s.n.pendService ∧
      t.src = s.n.pendServer ∧ t.dst = s.n.localId ∧ t.tid = s.n.pendTid
    (six → s.env.onResponse.head? ≠ some .reentered →
      exec (.classResponse t) s = .next { s with
        n := { s.n with pendValid := false }
        env := { s.env with onResponse := s.env.onResponse.tail }
        trace := .processResponse t.payload :: s.trace }) ∧
    (six → s.env.onResponse.head? = some .reentered → exec (.classResponse t) s = .refused .reentrantReactor) ∧
    (¬six → ∃ l, exec (.classResponse t) s = .next { s with labels := l })

/-- R188, R189, R241: a request for the assigned local identity is handed to the reactor, and if it returns a length
the response's frame is offered, with the priority and transfer id of the request and the bytes of `N.resp_buf`; any
other request is dropped with no call and no state change. The result of the encoding is ignored. The source of the
response, the ignored result and the bound are the decisions D21 to D23 of the spec. That writes inside `RESP_CAP` are
allowed whatever length is returned, or none, and stay in `N.resp_buf` in the order of the list, is the model's reading
of R241 (DEDUCED, log entry 16); a reactor whose listed answers have run out declines (log entry 8). -/
def Obligations.RequestServedOrDropped : Prop :=
  ∀ (s : State) (t : Transfer),
    let mine := s.n.localId ≠ 0xFFFF ∧ t.dst = s.n.localId
    (¬mine → ∃ l, exec (.classRequest t) s = .next { s with labels := l }) ∧
    (mine → s.env.onRequest = [] → exec (.classRequest t) s =
      .next (s.record (.processRequest (t.dspec.setWidth 14) t.src t.payload))) ∧
    ∀ (writes : List Host.Cell) (len : Option Nat) (rest : List RequestAnswer), mine →
      s.env.onRequest = .returned writes len :: rest →
      let s1 : State := { s with
        n := { s.n with respBuf := memWriteAll s.n.respBuf writes }
        env := { s.env with onRequest := rest }
        trace := .processRequest (t.dspec.setWidth 14) t.src t.payload :: s.trace }
      (answerLegal s.cfg writes len = true → len = none → exec (.classRequest t) s = .next s1) ∧
      (∀ n, answerLegal s.cfg writes len = true → len = some n →
        exec (.classRequest t) s = .next (s1.afterOffers (frameOffers
          { pri := t.pri
            src := s.n.localId
            dst := t.src
            dspec := 0xC000#16 ||| (t.dspec.setWidth 14).setWidth 16
            tid := t.tid
            payload := (List.range n).map s1.respRead } s1)))

/-- R189, R241 (93_implementation_defined.md U7, U8): a reactor answer outside its contract, or one that calls back,
is refused. For a length these are the decisions D23 and D26 of the spec; that a write at or above `RESP_CAP` is outside
the contract too is the model's reading of R241 (DEDUCED, log entry 16). -/
def Obligations.ReactorOutsideContractIsRefused : Prop :=
  ∀ (s : State) (t : Transfer), s.n.localId ≠ 0xFFFF → t.dst = s.n.localId →
    (∀ writes len, s.env.onRequest.head? = some (.returned writes len) →
      ((∃ w ∈ writes, s.cfg.respCap ≤ w.1) ∨ (∃ n, len = some n ∧ (s.cfg.respCap < n ∨ s.cfg.maxPayload < n))) →
      exec (.classRequest t) s = .refused .reactorOutsideContract) ∧
    (s.env.onRequest.head? = some .reentered → exec (.classRequest t) s = .refused .reentrantReactor)

/-- R34, R56, R189: the response `CLASS.REQUEST` offers carries exactly the bytes the reactor wrote from index 0 on,
whatever `N.resp_buf` held, and where the buffer is read back it holds them. The response's source and the bound are the
decisions D21 and D23 of the spec; the order of the writes is log entry 16 (DEDUCED), and a sink whose listed answers
have run out accepts (log entry 8). -/
def Obligations.ResponseBufferHoldsWhatWasWritten : Prop :=
  ∀ (s : State) (t : Transfer) (bytes : List Byte) (rest : List RequestAnswer),
    s.n.localId ≠ 0xFFFF → t.dst = s.n.localId → bytes.length ≤ s.cfg.respCap → bytes.length ≤ s.cfg.maxPayload →
    s.env.onRequest = .returned (bytes.zipIdx.map fun x => (x.2, x.1)) (some bytes.length) :: rest →
    ∃ m, exec (.classRequest t) s = .next ({ s with
        n := { s.n with respBuf := m }
        env := { s.env with onRequest := rest }
        trace := .processRequest (t.dspec.setWidth 14) t.src t.payload :: s.trace }.afterOffers (frameOffers
          { pri := t.pri
            src := s.n.localId
            dst := t.src
            dspec := 0xC000#16 ||| (t.dspec.setWidth 14).setWidth 16
            tid := t.tid
            payload := bytes } s)) ∧
      (∀ i, i < bytes.length → memRead m i = bytes[i]?) ∧ ∀ i, bytes.length ≤ i → memRead m i = memRead s.n.respBuf i

/-- R190: a message completes from every state with no action; only the model's ghost label changes. -/
def Obligations.MessageIsIgnored : Prop :=
  ∀ (s : State) (t : Transfer), ∃ l, exec (.classMessage t) s = .next { s with labels := l }

/-- R184, R185, R203: `NODE.POLL` is, for at most `POLL_BUDGET` received bytes, one `PARSE.UPDATE` for each, and before
the next the class instruction of the transfer it returned, if any. That the budget is a parameter, whatever its value,
is the decision D24 of the spec. -/
def Obligations.PollRunsParserAndClasses : Prop :=
  ∀ (s : State) (time : BitVec 64),
    exec (.nodePoll time) s =
      andThen (pollByInstructions s.cfg.pollBudget s) fun s' => .next { s' with result := .none }

/-- R203, R259: a poll takes at most `POLL_BUDGET` answers of the driver, from the front, every one but the last a
byte; with nothing to receive it completes and does nothing but ask (R184). The budget is the decision D24 of the
spec; a driver whose listed answers have run out has nothing (log entry 8). -/
def Obligations.PollTakesAtMostItsBudget : Prop :=
  (∀ (s t : State) (time : BitVec 64), exec (.nodePoll time) s = .next t →
    ∃ m, m ≤ s.cfg.pollBudget ∧ t.env.rx = s.env.rx.drop m ∧
      ∀ k, k + 1 < m → ∃ b, s.env.rx[k]? = some (some b)) ∧
  ∀ (s : State) (time : BitVec 64), s.cfg.pollBudget ≠ 0 → s.env.rx = [] →
    exec (.nodePoll time) s = .next { s with trace := .rxTake none :: s.trace, result := .none }

/-- R203: the processing of a byte stream does not depend on how polls split it: if `a` bytes are there, one `NODE.POLL`
of a block whose budget is `a + b` does, whatever the operands, what one of budget `a` and then one of budget `b` do, up
to the budget itself. The same holds of the loop of a poll. The budget is the decision D24 of the spec. -/
def Obligations.PollSplitsAnywhere : Prop :=
  (∀ (a b c : Nat) (s : State) (time time1 time2 : BitVec 64),
    (∀ k, k < a → ∃ x, s.env.rx[k]? = some (some x)) →
    mapNext (State.withBudget c) (exec (.nodePoll time) (s.withBudget (a + b))) =
      mapNext (State.withBudget c) (andThen (exec (.nodePoll time1) (s.withBudget a)) fun s' =>
        exec (.nodePoll time2) (s'.withBudget b))) ∧
  ∀ (a b : Nat) (s : State), (∀ k, k < a → ∃ x, s.env.rx[k]? = some (some x)) →
    pollLoop (a + b) s = andThen (pollLoop a s) (pollLoop b)

/-- R204: no outcome of `NODE.POLL` depends on its operand. That the operand is read by no rule is the decision D25 of
the spec. -/
def Obligations.PollIgnoresTime : Prop :=
  ∀ (s : State) (t1 t2 : BitVec 64), exec (.nodePoll t1) s = exec (.nodePoll t2) s

/-- R220, R237, R265: from every state of the invariant whose listed reactor answers keep their contract, `NODE.POLL`
completes; it returns nothing, keeps `U` (R21), the identity (R32) and the recorded request (R33), and can only clear the
pending flag (R186). That the three recorded fields are kept where the flag is cleared is the decision D27 of the spec.
The contract is that of U7 and U8 as log entry 16 reads it (DEDUCED). -/
def Obligations.PollCompletes : Prop :=
  ∀ (s : State) (time : BitVec 64), s.Inv → s.reactorLegal = true →
    ∃ t, exec (.nodePoll time) s = .next t ∧ t.result = .none ∧ t.u = s.u ∧ t.cfg = s.cfg ∧
      t.n.localId = s.n.localId ∧ t.n.pendServer = s.n.pendServer ∧ t.n.pendService = s.n.pendService ∧
      t.n.pendTid = s.n.pendTid ∧ (t.n.pendValid = true → s.n.pendValid = true)

/-- R201: an idle node becomes outstanding only by a successful `NODE.SEND_REQUEST`, which records exactly its operands,
and leaves that by a cancel, a matched response or a poll. The three recorded fields (R33) change in no other way: that
they stay after a cancel or a matched response is the decision D27 of the spec. -/
def Obligations.PendingRecordTransitions : Prop :=
  ∀ (i : Instr) (s t : State), exec i s = .next t →
    ((s.n.pendValid = false ∧ t.n.pendValid = true) ∨ t.n.pendServer ≠ s.n.pendServer ∨
      t.n.pendService ≠ s.n.pendService ∨ t.n.pendTid ≠ s.n.pendTid →
      ∃ service server tid payload, i = .nodeSendRequest service server tid payload ∧ t.result = .bit true ∧
        t.pending = (true, server, service, tid)) ∧
    (s.n.pendValid = true → t.n.pendValid = false →
      i = .nodeCancelRequest ∨ (∃ r, i = .classResponse r) ∨ ∃ time, i = .nodePoll time)

/-- R205: after a successful request, a response with its service, server, transfer id and the local identity is delivered
exactly once, a second copy not again, and clears the pending flag; one that differs only in the transfer id is
dropped and the record stays. -/
def Obligations.RequestResponseCorrelation : Prop :=
  ∀ (s s1 : State) (service : ServiceId) (server : Half) (tid : Tid) (payload : List Byte) (r : Transfer),
    exec (.nodeSendRequest service server tid payload) s = .next s1 → s1.result = .bit true →
    r.dspec.setWidth 14 = service → r.src = server → r.dst = s1.n.localId →
    (r.tid = tid → s1.env.onResponse.head? ≠ some .reentered →
      ∃ s2 s3, exec (.classResponse r) s1 = .next s2 ∧ s2.trace = .processResponse r.payload :: s1.trace ∧
        s2.n.pendValid = false ∧ exec (.classResponse r) s2 = .next s3 ∧ s3.trace = s2.trace) ∧
    (r.tid ≠ tid → ∃ s2, exec (.classResponse r) s1 = .next s2 ∧ s2.trace = s1.trace ∧
      s2.pending = (true, server, service, tid))

/-- R232: what an anonymous node does not do: it drops every response and every request and its sends return false, with no
call on any interface and no change but the result and the ghost labels. -/
def Obligations.AnonymousNodeDoesNothing : Prop :=
  ∀ (s : State) (t : Transfer) (service : ServiceId) (server : Half) (subject : SubjectId) (tid : Tid)
    (payload : List Byte), s.n.localId = 0xFFFF →
    (∃ l, exec (.classResponse t) s = .next { s with labels := l }) ∧
    (∃ l, exec (.classRequest t) s = .next { s with labels := l }) ∧
    (payload.length ≤ s.cfg.maxPayload →
      (∃ l, exec (.nodeSendRequest service server tid payload) s = .next { s with labels := l, result := .bit false }) ∧
      ∃ l, exec (.nodePublish subject tid payload) s = .next { s with labels := l, result := .bit false })

/-! ### The machine -/

/-- R21, R32, R33, R44, R50: each register has only the writers the spec names, over all instructions. `U.reg`: the
CRC reset and update. `N.local_id`: `NODE.SET_ID`. The pending record: send, cancel, a response, a poll. `N.resp_buf`:
a request, a poll. `P`: the parser's instructions and a poll. The parameters: none. Rests on the decisions D7, D17 and
D27 of the spec. -/
def Obligations.RegistersKeepTheirWriters : Prop :=
  ∀ (i : Instr) (s t : State), exec i s = .next t →
    t.cfg = s.cfg ∧
    (t.u ≠ s.u → i = .crcReset ∨ ∃ b, i = .crcUpdate b) ∧
    (t.n.localId ≠ s.n.localId → ∃ id, i = .nodeSetId id) ∧
    (t.pending ≠ s.pending → i = .nodeCancelRequest ∨ (∃ a b c d, i = .nodeSendRequest a b c d) ∨
      (∃ r, i = .classResponse r) ∨ ∃ time, i = .nodePoll time) ∧
    (t.n.respBuf ≠ s.n.respBuf → (∃ r, i = .classRequest r) ∨ ∃ time, i = .nodePoll time) ∧
    (t.p ≠ s.p → i = .parseReset ∨ (∃ b, i = .parseUpdate b) ∨ (∃ time, i = .nodePoll time) ∨
      i = .symDelim ∨ i = .symEsc ∨ (∃ b, i = .symData b) ∨ ∃ o e, i = decodeOffset o e)

/-- R45, R251: the registers after a hardware reset that the spec gives a value, for every instance, both at power-on
and where a running block is reset, whatever it held; the host's next presentation is then awaited. The reset and its
values are the decisions D6, D11, D17 and D29 of the spec. That the reset is one entry of the list of what the host
presents, which step takes from it, is the model's choice (DESIGN CHOICE, log entries 15 and 11). -/
def Obligations.HardwareResetValues : Prop :=
  ∀ (c : Params) (s : State) (rest : List Presentation), s.env.host = .hardwareReset :: rest →
    ∃ t, step s = .next t ∧ t.env.host = rest ∧ t.cfg = s.cfg ∧
      ∀ x, x = State.resetWith c ∨ x = t →
        x.u = Config.crcInit ∧ x.p.inside = false ∧ x.p.unesc = false ∧ x.p.offset = 0 ∧ x.p.crc = Config.crcInit ∧
        x.p.pri = 7 ∧ x.p.src = 0xFFFF ∧ x.p.dst = 0xFFFF ∧ x.p.dspec = 0 ∧ x.p.tid = 0 ∧
        x.n.localId = 0xFFFF ∧ x.n.pendValid = false

/-- R43: the invariants hold after reset, for every instance. -/
def Obligations.InvariantAtReset : Prop :=
  ∀ (c : Params), (State.resetWith c).Inv ∧ (State.resetWith c).FrameChecked

/-- R43 (i), (ii), (v): every step keeps the invariant, and with it the canonical form of both byte arrays. The spec
marks parts of the rule as derived. -/
def Obligations.StepKeepsInvariant : Prop :=
  ∀ (s t : State), s.Inv → step s = .next t → t.Inv

/-- R43 (iii), (iv): every step keeps what the frame in progress left behind: each header byte so far was checked or
stands in its register, each payload-region byte stands in `P.buf`, the header residue was right, and `P.crc` is the CRC
state of exactly the bytes of the region. The ghost bytes it speaks of are the model's, log entry 21. -/
def Obligations.StepKeepsFrameChecked : Prop :=
  ∀ (s t : State), s.Inv → s.FrameChecked → step s = .next t → t.FrameChecked

/-- R43 (iii), (iv) as the rule says them of a state past its header, and what the rule draws from them: a transfer that
is emitted is the one its own frame holds, and the frame was valid. -/
def Obligations.EmittedTransferIsOfItsFrame : Prop :=
  ∀ (s : State), s.Inv → s.FrameChecked →
    s.HeaderChecked ∧ s.RegionChecked ∧
    ∀ (t : State) (r : Transfer), exec .symDelim s = .next t → t.result = .transfer (some r) →
      s.frame.length = 36 + r.payload.length ∧ frameValid s.cfg s.frame = true ∧ r = transferOf s.frame

/-- R220: from every state of the invariant, with the environment inside its contracts, an admitted step never stops:
it answers a next state, of the invariant and with the environment still inside its contracts. The contract of the
reactor is that of U7 and U8 as log entry 16 reads it (DEDUCED). -/
def Obligations.AdmittedStepNeverStops : Prop :=
  ∀ (s : State), s.Inv → s.reactorLegal = true → s.admits = true →
    ∃ t, step s = .next t ∧ t.Inv ∧ t.reactorLegal = true

/-- R226, R60: nothing reads the bytes of the frame, the traces, the labels or the payload view: every instruction does the
same to the rest of the state whatever they hold. The four fields are the model's own (log entries 6, 14 and 21). -/
def Obligations.GhostsAreNeverRead : Prop :=
  ∀ (i : Instr) (s : State),
    mapNext State.withoutGhosts (exec i s) = mapNext State.withoutGhosts (exec i s.withoutGhosts)

/-- R242, R235, R260: a step runs the instruction the host presents, taken from the port; with nothing presented it keeps
the whole state; two operations at once are refused. A header or payload byte presented on its own runs as the part of a
DATA symbol that its offset selects, with the rest of R129 around it, and is refused where the parser does not select
it. The port as a list, and the presentations that are no command, are the model's (log entries 11 and 2), and so are
the ghost bytes of the frame (log entry 21) and the offset's count in `OFF_W` bits (log entry 7). -/
def Obligations.StepRunsTheDecodedInstruction : Prop :=
  (∀ (s : State) (enc : Encoded) (rest : List Presentation) (i : Instr),
    s.env.host = .op enc :: rest → decode enc = .ok i → i.wellFormed = true → (∀ o e, enc ≠ .offset o e) →
    step s = exec i { s with env := { s.env with host := rest } }) ∧
  (∀ (s : State) (o : Nat) (e : Byte) (rest : List Presentation), s.env.host = .op (.offset o e) :: rest →
    if s.p.inside = true ∧ s.p.offset = o then
      ∃ s1 s2, s1.p = { s.p with unesc := false, crc := crcStep s.cfg.crcPoly s.p.crc e } ∧ s1.frame = s.frame ++ [e] ∧
        s1.u = s.u ∧ s1.n = s.n ∧ s1.cfg = s.cfg ∧ s1.env = { s.env with host := rest } ∧ s1.trace = s.trace ∧
        exec (decodeOffset o e) s1 = .next s2 ∧
        step s = .next { s2 with
          p := (if s2.p.inside = true then { s2.p with offset := (o + 1) % 2 ^ s.cfg.offW } else s2.p)
          result := .transfer none }
    else step s = .refused .offsetNotSelected) ∧
  (∀ (s : State), s.env.host = [] → step s = .next s) ∧
  ∀ (s : State) (e1 e2 : Encoded) (rest : List Presentation), s.env.host = .simultaneous e1 e2 :: rest →
    step s = .refused .concurrentOperations

/-- R71, R73, R76, R81, R131: the encoding of every well-formed instruction decodes to it, with every operand. How the
operand bytes are carried is the model's choice, log entry 3. -/
def Obligations.DecodeOfEncode : Prop :=
  ∀ (i : Instr), i.wellFormed = true → decode (encode i) = .ok i

/-- R76, R81, R131, R185: whatever decodes, decodes to a well-formed instruction whose encoding it is, so no two
encodings stand for one instruction. How the operand bytes are carried is the model's choice, log entry 3. -/
def Obligations.EncodeOfDecode : Prop :=
  ∀ (enc : Encoded) (i : Instr), decode enc = .ok i → i.wellFormed = true ∧ encode i = enc

/-- R83: the 244 command codes that are not in the table of R81, and only these, are refused as reserved, with any
operands. The codes and the refusal are the decisions D3 and D4 of the spec. -/
def Obligations.ReservedCommandsAreRefused : Prop :=
  (∀ (code : Byte) (operands : List Byte),
    code ∉ [0x00#8, 0x01#8, 0x02#8, 0x03#8, 0x10#8, 0x11#8, 0x20#8, 0x30#8, 0x31#8, 0x32#8, 0x33#8, 0x34#8] ↔
      decode (.command code operands) = .error (.reservedCommand code)) ∧
  ∀ (s : State) (code : Byte) (operands : List Byte) (rest : List Presentation),
    s.env.host = .op (.command code operands) :: rest →
    decode (.command code operands) = .error (.reservedCommand code) →
    step s = .refused (.reservedCommand code)

/-- R71, R73, R76, R81: words written out from the spec's encodings decode to the instructions they stand for. How the
operand bytes are carried is the model's choice, log entry 3. -/
def Obligations.KnownWordsDecode : Prop :=
  decode (.command 0x01 [0x31]) = .ok (.crcUpdate 0x31) ∧
  decode (.command 0x11 [0x9E]) = .ok (.parseUpdate 0x9E) ∧
  decode (.command 0x34 [0x03, 0x00]) = .ok (.nodeSetId 0x0003) ∧
  decode (.wire 0x9E) = .ok .symDelim ∧
  decode (.wire 0x8E) = .ok .symEsc ∧
  decode (.wire 0x55) = .ok (.symData 0x55) ∧
  decode (.offset 3 0x12) = .ok (.hdrSource 1 0x12) ∧
  decode (.offset 27 0x80) = .ok (.hdrEotMarker 3 0x80) ∧
  decodeTableWord 16 0xC005 = some (.classResponse ⟨0, 0, 0, 0xC005, 0, []⟩) ∧
  decodeTableWord 16 0x4005 = some (.classMessage ⟨0, 0, 0, 0x4005, 0, []⟩)
end

