-- ==== Sys2Proof/Laws/Checksum.lean ====
section
/-! SUPPORT. The one-bit step of the CRC engine is linear over XOR and, for a polynomial of degree 32, invertible; bits
that are 0 shift out without an effect (the three facts 40_crc.md R108 and R109 rest on). -/

namespace Sys2Proof.Machine

theorem crcBit_xor (poly x y : Word) : crcBit poly (x ^^^ y) = crcBit poly x ^^^ crcBit poly y := by
  unfold crcBit
  simp only [BitVec.getLsbD_xor, BitVec.ushiftRight_xor_distrib]
  cases x.getLsbD 0 <;> cases y.getLsbD 0 <;> simp
  · ac_rfl
  · ac_rfl
  · rw [BitVec.xor_assoc, BitVec.xor_comm poly, ← BitVec.xor_assoc, BitVec.xor_assoc (x >>> 1), BitVec.xor_assoc]
    simp

theorem crcBits_xor (poly : Word) (k : Nat) (x y : Word) :
    crcBits poly k (x ^^^ y) = crcBits poly k x ^^^ crcBits poly k y := by
  induction k generalizing x y with
  | zero => rfl
  | succ k ih => simp only [crcBits, crcBit_xor, ih]

theorem crcBits_add (poly : Word) (a b : Nat) (x : Word) :
    crcBits poly (a + b) x = crcBits poly b (crcBits poly a x) := by
  induction a generalizing x with
  | zero => simp [crcBits]
  | succ a ih => rw [Nat.succ_add]; simp only [crcBits, ih]

/-- Bits that are 0 shift out. -/
theorem crcBits_of_low_zero (poly : Word) (k : Nat) (x : Word) (h : ∀ i, i < k → x.getLsbD i = false) :
    crcBits poly k x = x >>> k := by
  induction k generalizing x with
  | zero => simp [crcBits]
  | succ k ih =>
    have h0 : crcBit poly x = x >>> 1 := by rw [crcBit, h 0 (by omega)]; rfl
    rw [crcBits, h0, ih]
    · rw [← BitVec.shiftRight_add, Nat.add_comm]
    · intro i hi
      rw [BitVec.getLsbD_ushiftRight]
      exact h _ (by omega)

/-- For a polynomial of degree 32 only the zero register steps to zero. -/
theorem crcBit_eq_zero {poly x : Word} (hp : poly.getLsbD 31 = true) (h : crcBit poly x = 0) : x = 0 := by
  unfold crcBit at h
  split at h
  · have := congrArg (·.getLsbD 31) h
    rw [BitVec.getLsbD_xor, BitVec.getLsbD_ushiftRight, hp] at this
    simp at this
  · rename_i h0
    ext i hi
    cases i with
    | zero => simpa [BitVec.getLsbD_eq_getElem] using h0
    | succ i =>
      have := congrArg (·.getLsbD i) h
      rw [BitVec.getLsbD_ushiftRight, Nat.add_comm] at this
      rw [BitVec.getElem_eq_testBit_toNat]
      simpa [BitVec.getLsbD] using this

theorem crcBits_eq_zero {poly : Word} (hp : poly.getLsbD 31 = true) (k : Nat) {x : Word}
    (h : crcBits poly k x = 0) : x = 0 := by
  induction k generalizing x with
  | zero => exact h
  | succ k ih => exact crcBit_eq_zero hp (ih h)

end Sys2Proof.Machine
end

