-- ==== Sys2Proof/Laws/Config.lean ====
section
/-! SUPPORT. `OFF_W` is the least width that holds every value of `P.offset` (00_scope.md R9). -/

namespace Sys2Proof

theorem lt_two_pow_iff_bitsFor_le {fuel n : Nat} (h : n ≤ fuel) (w : Nat) : n < 2 ^ w ↔ bitsFor fuel n ≤ w := by
  induction fuel generalizing n w with
  | zero => simp [bitsFor, Nat.le_zero.1 h]
  | succ fuel ih =>
    unfold bitsFor
    split
    · rename_i h0; simp [h0]
    · cases w with
      | zero => simp; omega
      | succ w => rw [Nat.add_le_add_iff_right, ← ih (by omega), Nat.pow_succ]; omega

/-- `OFF_W` is the least width with `2 ^ OFF_W > HEADER_SIZE + BUF_CAP`. -/
theorem Params.lt_two_pow_iff (c : Params) (w : Nat) : Config.headerSize + c.bufCap < 2 ^ w ↔ c.offW ≤ w :=
  lt_two_pow_iff_bitsFor_le (Nat.le_refl _) w

/-- The largest value of `P.offset` fits. -/
theorem Params.lt_two_pow_offW (c : Params) : Config.headerSize + c.bufCap < 2 ^ c.offW :=
  (c.lt_two_pow_iff _).2 (Nat.le_refl _)

end Sys2Proof
end

