-- ==== Sys2Proof/Laws/Decode.lean ====
section
/-! SUPPORT. The laws of the command codes (R81): every operation's code selects it, and only its code does. -/

namespace Sys2Proof

@[simp] theorem opcodeOf_code (op : Opcode) : opcodeOf op.code = some op := by cases op <;> rfl

theorem opcodeOf_eq_some {code : Byte} {op : Opcode} : opcodeOf code = some op ↔ op.code = code := by
  constructor
  · intro h; simpa using List.find?_some h
  · rintro rfl; exact opcodeOf_code op

/-- A command decodes by the operands of the operation its code selects. -/
theorem decode_command (op : Opcode) (operands : List Byte) :
    decode (.command op.code operands) = decodeOperands op operands := by
  simp [decode, decodeCommand]

/-- Operands that do not fit are an error of their own, never a reserved code. -/
theorem decodeOperands_ne_reserved (op : Opcode) (operands : List Byte) (code : Byte) :
    decodeOperands op operands ≠ .error (.reservedCommand code) := by
  intro h
  cases op <;> simp only [decodeOperands] at h
  all_goals first
    | unfold decodeBare at h
    | unfold decodeByteOperand at h
    | unfold decodeEncode at h
    | unfold decodePoll at h
    | unfold decodeSendRequest at h
    | unfold decodePublish at h
    | unfold decodeSetId at h
  all_goals split at h <;> (try split at h) <;> cases h

end Sys2Proof
end

