-- ==== Sys2Proof/Laws/Exec.lean ====
section
/-! SUPPORT. What exec runs, one lemma per arm, so that no later proof unfolds the dispatch, and what a step runs. -/

namespace Sys2Proof.Machine

@[simp] theorem exec_crcReset (s : State) : exec .crcReset s = execCrcReset s := rfl
@[simp] theorem exec_crcUpdate (b : Byte) (s : State) : exec (.crcUpdate b) s = execCrcUpdate b s := rfl
@[simp] theorem exec_crcValue (s : State) : exec .crcValue s = execCrcValue s := rfl
@[simp] theorem exec_crcResidueOk (s : State) : exec .crcResidueOk s = execCrcResidueOk s := rfl
@[simp] theorem exec_parseReset (s : State) : exec .parseReset s = execParseReset s := rfl
@[simp] theorem exec_parseUpdate (b : Byte) (s : State) : exec (.parseUpdate b) s = execParseUpdate b s := rfl
@[simp] theorem exec_encEncode (t : Transfer) (s : State) : exec (.encEncode t) s = execEncEncode t s := rfl
@[simp] theorem exec_nodePoll (time : BitVec 64) (s : State) : exec (.nodePoll time) s = execNodePoll time s := rfl
@[simp] theorem exec_nodeSendRequest (service : ServiceId) (server : Half) (tid : Tid) (payload : List Byte) (s : State) :
    exec (.nodeSendRequest service server tid payload) s = execNodeSendRequest service server tid payload s := rfl
@[simp] theorem exec_nodeCancelRequest (s : State) : exec .nodeCancelRequest s = execNodeCancelRequest s := rfl
@[simp] theorem exec_nodePublish (subject : SubjectId) (tid : Tid) (payload : List Byte) (s : State) :
    exec (.nodePublish subject tid payload) s = execNodePublish subject tid payload s := rfl
@[simp] theorem exec_nodeSetId (id : Half) (s : State) : exec (.nodeSetId id) s = execNodeSetId id s := rfl
@[simp] theorem exec_symDelim (s : State) : exec .symDelim s = execSymDelim s := rfl
@[simp] theorem exec_symEsc (s : State) : exec .symEsc s = execSymEsc s := rfl
@[simp] theorem exec_symData (b : Byte) (s : State) : exec (.symData b) s = execSymData b s := rfl
@[simp] theorem exec_hdrVersion (e : Byte) (s : State) : exec (.hdrVersion e) s = execHdrVersion e s := rfl
@[simp] theorem exec_hdrPriority (e : Byte) (s : State) : exec (.hdrPriority e) s = execHdrPriority e s := rfl
@[simp] theorem exec_hdrSource (k : Fin 2) (e : Byte) (s : State) :
    exec (.hdrSource k e) s = execHdrSource k e s := rfl
@[simp] theorem exec_hdrDestination (k : Fin 2) (e : Byte) (s : State) :
    exec (.hdrDestination k e) s = execHdrDestination k e s := rfl
@[simp] theorem exec_hdrDataSpec (k : Fin 2) (e : Byte) (s : State) :
    exec (.hdrDataSpec k e) s = execHdrDataSpec k e s := rfl
@[simp] theorem exec_hdrReserved (k : Fin 8) (e : Byte) (s : State) :
    exec (.hdrReserved k e) s = execHdrReserved k e s := rfl
@[simp] theorem exec_hdrTransferId (k : Fin 8) (e : Byte) (s : State) :
    exec (.hdrTransferId k e) s = execHdrTransferId k e s := rfl
@[simp] theorem exec_hdrEotMarker (k : Fin 4) (e : Byte) (s : State) :
    exec (.hdrEotMarker k e) s = execHdrEotMarker k e s := rfl
@[simp] theorem exec_hdrCrc (k : Fin 4) (e : Byte) (s : State) : exec (.hdrCrc k e) s = execHdrCrc k e s := rfl
@[simp] theorem exec_payloadStore (index : Nat) (e : Byte) (s : State) :
    exec (.payloadStore index e) s = execPayloadStore index e s := rfl
@[simp] theorem exec_classResponse (t : Transfer) (s : State) :
    exec (.classResponse t) s = execClassResponse t s := rfl
@[simp] theorem exec_classRequest (t : Transfer) (s : State) : exec (.classRequest t) s = execClassRequest t s := rfl
@[simp] theorem exec_classMessage (t : Transfer) (s : State) : exec (.classMessage t) s = execClassMessage t s := rfl

/-- The class instruction a transfer selects does what `process_transfer` does (R185). -/
theorem exec_decodeTransfer (t : Transfer) (s : State) : exec (decodeTransfer t) s = processTransfer t s := by
  unfold decodeTransfer processTransfer
  cases classify t.dspec <;> rfl

/-- The decoding instruction an offset selects does what `header_decode` and `payload_store` do (R131, R141). -/
theorem exec_decodeOffset (o : Nat) (e : Byte) (s : State) : exec (decodeOffset o e) s = .next (routeByte o e s) := by
  unfold decodeOffset routeByte
  cases offsetRule o <;> rfl

/-- A header or payload byte that the parser selects, with the rest of R129 around it, is a DATA symbol whose byte is the
logical one: no escape pending. -/
theorem selected_eq {o : Nat} {e : Byte} {s t : State} (h : s.selects o = true)
    (he : andThen (exec (decodeOffset o e) (beforeRule e s)) (fun s' => .next (afterRule o s')) = .next t) :
    t = (dataSymbol e { s with p := { s.p with unesc := false } }).answer (.transfer none) := by
  rw [exec_decodeOffset] at he
  cases he
  simp only [State.selects, Bool.and_eq_true, beq_iff_eq] at h
  obtain ⟨h1, rfl⟩ := h
  unfold dataSymbol
  rw [if_pos h1]
  rfl

/-- Everything a decoded presentation that completes can have done. -/
theorem runDecoded_next {enc : Encoded} {i : Instr} {s t : State} (hd : decode enc = .ok i)
    (h : runDecoded enc i s = .next t) :
    ((∀ o e, enc ≠ .offset o e) ∧ exec i s = .next t) ∨
    ∃ e, s.p.inside = true ∧ t = (dataSymbol e { s with p := { s.p with unesc := false } }).answer (.transfer none) := by
  unfold runDecoded at h
  split at h
  · rename_i o e
    split at h
    · rename_i hs
      cases hd
      refine .inr ⟨e, ?_, selected_eq hs h⟩
      simp only [State.selects, Bool.and_eq_true] at hs
      exact hs.1
    · cases h
  · exact .inl ⟨nofun, h⟩
  · exact .inl ⟨nofun, h⟩
  · exact .inl ⟨nofun, h⟩

end Sys2Proof.Machine
end

