-- ==== Sys2Proof/Laws/State.lean ====
section
/-! SUPPORT. One lemma per field per update of the state, each true by unfolding, so that no later proof unfolds a
record update; and the fields of a cleared parser. -/

namespace Sys2Proof.Machine

@[simp] theorem record_cfg (s : State) (ev : Event) : (s.record ev).cfg = s.cfg := rfl
@[simp] theorem record_u (s : State) (ev : Event) : (s.record ev).u = s.u := rfl
@[simp] theorem record_p (s : State) (ev : Event) : (s.record ev).p = s.p := rfl
@[simp] theorem record_n (s : State) (ev : Event) : (s.record ev).n = s.n := rfl
@[simp] theorem record_result (s : State) (ev : Event) : (s.record ev).result = s.result := rfl
@[simp] theorem record_view (s : State) (ev : Event) : (s.record ev).view = s.view := rfl
@[simp] theorem record_frame (s : State) (ev : Event) : (s.record ev).frame = s.frame := rfl
@[simp] theorem record_resets (s : State) (ev : Event) : (s.record ev).resets = s.resets := rfl
@[simp] theorem record_env (s : State) (ev : Event) : (s.record ev).env = s.env := rfl
@[simp] theorem record_trace (s : State) (ev : Event) : (s.record ev).trace = ev :: s.trace := rfl
@[simp] theorem record_labels (s : State) (ev : Event) : (s.record ev).labels = s.labels := rfl

@[simp] theorem note_cfg (s : State) (c : Cause) : (s.note c).cfg = s.cfg := rfl
@[simp] theorem note_u (s : State) (c : Cause) : (s.note c).u = s.u := rfl
@[simp] theorem note_p (s : State) (c : Cause) : (s.note c).p = s.p := rfl
@[simp] theorem note_n (s : State) (c : Cause) : (s.note c).n = s.n := rfl
@[simp] theorem note_result (s : State) (c : Cause) : (s.note c).result = s.result := rfl
@[simp] theorem note_view (s : State) (c : Cause) : (s.note c).view = s.view := rfl
@[simp] theorem note_frame (s : State) (c : Cause) : (s.note c).frame = s.frame := rfl
@[simp] theorem note_resets (s : State) (c : Cause) : (s.note c).resets = s.resets := rfl
@[simp] theorem note_env (s : State) (c : Cause) : (s.note c).env = s.env := rfl
@[simp] theorem note_trace (s : State) (c : Cause) : (s.note c).trace = s.trace := rfl
@[simp] theorem note_labels (s : State) (c : Cause) : (s.note c).labels = c :: s.labels := rfl

@[simp] theorem answer_cfg (s : State) (r : Result) : (s.answer r).cfg = s.cfg := rfl
@[simp] theorem answer_u (s : State) (r : Result) : (s.answer r).u = s.u := rfl
@[simp] theorem answer_p (s : State) (r : Result) : (s.answer r).p = s.p := rfl
@[simp] theorem answer_n (s : State) (r : Result) : (s.answer r).n = s.n := rfl
@[simp] theorem answer_result (s : State) (r : Result) : (s.answer r).result = r := rfl
@[simp] theorem answer_view (s : State) (r : Result) : (s.answer r).view = s.view := rfl
@[simp] theorem answer_frame (s : State) (r : Result) : (s.answer r).frame = s.frame := rfl
@[simp] theorem answer_resets (s : State) (r : Result) : (s.answer r).resets = s.resets := rfl
@[simp] theorem answer_env (s : State) (r : Result) : (s.answer r).env = s.env := rfl
@[simp] theorem answer_trace (s : State) (r : Result) : (s.answer r).trace = s.trace := rfl
@[simp] theorem answer_labels (s : State) (r : Result) : (s.answer r).labels = s.labels := rfl

@[simp] theorem bufWrite_cfg (s : State) (i : Nat) (e : Byte) : (s.bufWrite i e).cfg = s.cfg := rfl
@[simp] theorem bufWrite_u (s : State) (i : Nat) (e : Byte) : (s.bufWrite i e).u = s.u := rfl
@[simp] theorem bufWrite_p (s : State) (i : Nat) (e : Byte) : (s.bufWrite i e).p = { s.p with buf := memWrite s.p.buf i e } := rfl
@[simp] theorem bufWrite_n (s : State) (i : Nat) (e : Byte) : (s.bufWrite i e).n = s.n := rfl
@[simp] theorem bufWrite_result (s : State) (i : Nat) (e : Byte) : (s.bufWrite i e).result = s.result := rfl
@[simp] theorem bufWrite_view (s : State) (i : Nat) (e : Byte) : (s.bufWrite i e).view = s.view := rfl
@[simp] theorem bufWrite_frame (s : State) (i : Nat) (e : Byte) : (s.bufWrite i e).frame = s.frame := rfl
@[simp] theorem bufWrite_resets (s : State) (i : Nat) (e : Byte) : (s.bufWrite i e).resets = s.resets := rfl
@[simp] theorem bufWrite_env (s : State) (i : Nat) (e : Byte) : (s.bufWrite i e).env = s.env := rfl
@[simp] theorem bufWrite_trace (s : State) (i : Nat) (e : Byte) : (s.bufWrite i e).trace = s.trace := rfl
@[simp] theorem bufWrite_labels (s : State) (i : Nat) (e : Byte) : (s.bufWrite i e).labels = s.labels := rfl

@[simp] theorem parserClear_cfg (s : State) : (parserClear s).cfg = s.cfg := rfl
@[simp] theorem parserClear_u (s : State) : (parserClear s).u = s.u := rfl
@[simp] theorem parserClear_p (s : State) : (parserClear s).p = s.p.cleared := rfl
@[simp] theorem parserClear_n (s : State) : (parserClear s).n = s.n := rfl
@[simp] theorem parserClear_result (s : State) : (parserClear s).result = s.result := rfl
@[simp] theorem parserClear_view (s : State) : (parserClear s).view = s.view := rfl
@[simp] theorem parserClear_frame (s : State) : (parserClear s).frame = [] := rfl
@[simp] theorem parserClear_resets (s : State) : (parserClear s).resets = s.resets := rfl
@[simp] theorem parserClear_env (s : State) : (parserClear s).env = s.env := rfl
@[simp] theorem parserClear_trace (s : State) : (parserClear s).trace = s.trace := rfl
@[simp] theorem parserClear_labels (s : State) : (parserClear s).labels = s.labels := rfl

@[simp] theorem abandon_cfg (s : State) (c : Cause) : (abandon c s).cfg = s.cfg := rfl
@[simp] theorem abandon_u (s : State) (c : Cause) : (abandon c s).u = s.u := rfl
@[simp] theorem abandon_p (s : State) (c : Cause) : (abandon c s).p = s.p.cleared := rfl
@[simp] theorem abandon_n (s : State) (c : Cause) : (abandon c s).n = s.n := rfl
@[simp] theorem abandon_result (s : State) (c : Cause) : (abandon c s).result = s.result := rfl
@[simp] theorem abandon_view (s : State) (c : Cause) : (abandon c s).view = s.view := rfl
@[simp] theorem abandon_frame (s : State) (c : Cause) : (abandon c s).frame = [] := rfl
@[simp] theorem abandon_resets (s : State) (c : Cause) : (abandon c s).resets = s.resets := rfl
@[simp] theorem abandon_env (s : State) (c : Cause) : (abandon c s).env = s.env := rfl
@[simp] theorem abandon_trace (s : State) (c : Cause) : (abandon c s).trace = s.trace := rfl
@[simp] theorem abandon_labels (s : State) (c : Cause) : (abandon c s).labels = c :: s.labels := rfl

@[simp] theorem reopen_cfg (s : State) : (reopen s).cfg = s.cfg := rfl
@[simp] theorem reopen_u (s : State) : (reopen s).u = s.u := rfl
@[simp] theorem reopen_p (s : State) : (reopen s).p = { s.p.cleared with inside := true } := rfl
@[simp] theorem reopen_n (s : State) : (reopen s).n = s.n := rfl
@[simp] theorem reopen_result (s : State) : (reopen s).result = s.result := rfl
@[simp] theorem reopen_view (s : State) : (reopen s).view = s.view := rfl
@[simp] theorem reopen_frame (s : State) : (reopen s).frame = [] := rfl
@[simp] theorem reopen_resets (s : State) : (reopen s).resets = s.resets := rfl
@[simp] theorem reopen_env (s : State) : (reopen s).env = s.env := rfl
@[simp] theorem reopen_trace (s : State) : (reopen s).trace = s.trace := rfl
@[simp] theorem reopen_labels (s : State) : (reopen s).labels = s.labels := rfl

@[simp] theorem ageView_cfg (s : State) : (ageView s).cfg = s.cfg := rfl
@[simp] theorem ageView_u (s : State) : (ageView s).u = s.u := rfl
@[simp] theorem ageView_p (s : State) : (ageView s).p = s.p := rfl
@[simp] theorem ageView_n (s : State) : (ageView s).n = s.n := rfl
@[simp] theorem ageView_result (s : State) : (ageView s).result = s.result := rfl
@[simp] theorem ageView_view (s : State) : (ageView s).view = s.view.map fun v => { v with age := v.age + 1 } := rfl
@[simp] theorem ageView_frame (s : State) : (ageView s).frame = s.frame := rfl
@[simp] theorem ageView_resets (s : State) : (ageView s).resets = s.resets := rfl
@[simp] theorem ageView_env (s : State) : (ageView s).env = s.env := rfl
@[simp] theorem ageView_trace (s : State) : (ageView s).trace = s.trace := rfl
@[simp] theorem ageView_labels (s : State) : (ageView s).labels = s.labels := rfl

@[simp] theorem handOutView_cfg (s : State) (k : Nat) : (handOutView k s).cfg = s.cfg := rfl
@[simp] theorem handOutView_u (s : State) (k : Nat) : (handOutView k s).u = s.u := rfl
@[simp] theorem handOutView_p (s : State) (k : Nat) : (handOutView k s).p = s.p := rfl
@[simp] theorem handOutView_n (s : State) (k : Nat) : (handOutView k s).n = s.n := rfl
@[simp] theorem handOutView_result (s : State) (k : Nat) : (handOutView k s).result = s.result := rfl
@[simp] theorem handOutView_view (s : State) (k : Nat) : (handOutView k s).view = some { serial := (match s.view with | some v => v.serial + 1 | none => 0), len := k, age := 0 } := rfl
@[simp] theorem handOutView_frame (s : State) (k : Nat) : (handOutView k s).frame = s.frame := rfl
@[simp] theorem handOutView_resets (s : State) (k : Nat) : (handOutView k s).resets = s.resets := rfl
@[simp] theorem handOutView_env (s : State) (k : Nat) : (handOutView k s).env = s.env := rfl
@[simp] theorem handOutView_trace (s : State) (k : Nat) : (handOutView k s).trace = s.trace := rfl
@[simp] theorem handOutView_labels (s : State) (k : Nat) : (handOutView k s).labels = s.labels := rfl

@[simp] theorem absorb_cfg (s : State) (e : Byte) : (absorb e s).cfg = s.cfg := rfl
@[simp] theorem absorb_u (s : State) (e : Byte) : (absorb e s).u = s.u := rfl
@[simp] theorem absorb_p (s : State) (e : Byte) : (absorb e s).p = { s.p with unesc := false, crc := crcStep s.cfg.crcPoly s.p.crc e } := rfl
@[simp] theorem absorb_n (s : State) (e : Byte) : (absorb e s).n = s.n := rfl
@[simp] theorem absorb_result (s : State) (e : Byte) : (absorb e s).result = s.result := rfl
@[simp] theorem absorb_view (s : State) (e : Byte) : (absorb e s).view = s.view := rfl
@[simp] theorem absorb_frame (s : State) (e : Byte) : (absorb e s).frame = s.frame ++ [e] := rfl
@[simp] theorem absorb_resets (s : State) (e : Byte) : (absorb e s).resets = s.resets := rfl
@[simp] theorem absorb_env (s : State) (e : Byte) : (absorb e s).env = s.env := rfl
@[simp] theorem absorb_trace (s : State) (e : Byte) : (absorb e s).trace = s.trace := rfl
@[simp] theorem absorb_labels (s : State) (e : Byte) : (absorb e s).labels = s.labels := rfl

@[simp] theorem recordPending_cfg (s : State) (v : ServiceId) (d : Half) (t : Tid) : (recordPending v d t s).cfg = s.cfg := rfl
@[simp] theorem recordPending_u (s : State) (v : ServiceId) (d : Half) (t : Tid) : (recordPending v d t s).u = s.u := rfl
@[simp] theorem recordPending_p (s : State) (v : ServiceId) (d : Half) (t : Tid) : (recordPending v d t s).p = s.p := rfl
@[simp] theorem recordPending_n (s : State) (v : ServiceId) (d : Half) (t : Tid) : (recordPending v d t s).n = { s.n with pendValid := true, pendServer := d, pendService := v, pendTid := t } := rfl
@[simp] theorem recordPending_result (s : State) (v : ServiceId) (d : Half) (t : Tid) : (recordPending v d t s).result = s.result := rfl
@[simp] theorem recordPending_view (s : State) (v : ServiceId) (d : Half) (t : Tid) : (recordPending v d t s).view = s.view := rfl
@[simp] theorem recordPending_frame (s : State) (v : ServiceId) (d : Half) (t : Tid) : (recordPending v d t s).frame = s.frame := rfl
@[simp] theorem recordPending_resets (s : State) (v : ServiceId) (d : Half) (t : Tid) : (recordPending v d t s).resets = s.resets := rfl
@[simp] theorem recordPending_env (s : State) (v : ServiceId) (d : Half) (t : Tid) : (recordPending v d t s).env = s.env := rfl
@[simp] theorem recordPending_trace (s : State) (v : ServiceId) (d : Half) (t : Tid) : (recordPending v d t s).trace = s.trace := rfl
@[simp] theorem recordPending_labels (s : State) (v : ServiceId) (d : Half) (t : Tid) : (recordPending v d t s).labels = s.labels := rfl

@[simp] theorem afterOffers_cfg (s : State) (os : List (Byte × Bool)) : (s.afterOffers os).cfg = s.cfg := rfl
@[simp] theorem afterOffers_u (s : State) (os : List (Byte × Bool)) : (s.afterOffers os).u = s.u := rfl
@[simp] theorem afterOffers_p (s : State) (os : List (Byte × Bool)) : (s.afterOffers os).p = s.p := rfl
@[simp] theorem afterOffers_n (s : State) (os : List (Byte × Bool)) : (s.afterOffers os).n = s.n := rfl
@[simp] theorem afterOffers_result (s : State) (os : List (Byte × Bool)) : (s.afterOffers os).result = s.result := rfl
@[simp] theorem afterOffers_view (s : State) (os : List (Byte × Bool)) : (s.afterOffers os).view = s.view := rfl
@[simp] theorem afterOffers_frame (s : State) (os : List (Byte × Bool)) : (s.afterOffers os).frame = s.frame := rfl
@[simp] theorem afterOffers_resets (s : State) (os : List (Byte × Bool)) : (s.afterOffers os).resets = s.resets := rfl
@[simp] theorem afterOffers_env (s : State) (os : List (Byte × Bool)) : (s.afterOffers os).env = { s.env with tx := s.env.tx.drop os.length } := rfl
@[simp] theorem afterOffers_trace (s : State) (os : List (Byte × Bool)) : (s.afterOffers os).trace = (os.map fun o => Event.offer o.1 o.2).reverse ++ s.trace := rfl
@[simp] theorem afterOffers_labels (s : State) (os : List (Byte × Bool)) : (s.afterOffers os).labels = s.labels := rfl

@[simp] theorem taken_cfg (s : State) (rest : List Presentation) : (s.taken rest).cfg = s.cfg := rfl
@[simp] theorem taken_u (s : State) (rest : List Presentation) : (s.taken rest).u = s.u := rfl
@[simp] theorem taken_p (s : State) (rest : List Presentation) : (s.taken rest).p = s.p := rfl
@[simp] theorem taken_n (s : State) (rest : List Presentation) : (s.taken rest).n = s.n := rfl
@[simp] theorem taken_result (s : State) (rest : List Presentation) : (s.taken rest).result = s.result := rfl
@[simp] theorem taken_view (s : State) (rest : List Presentation) : (s.taken rest).view = s.view := rfl
@[simp] theorem taken_frame (s : State) (rest : List Presentation) : (s.taken rest).frame = s.frame := rfl
@[simp] theorem taken_resets (s : State) (rest : List Presentation) : (s.taken rest).resets = s.resets := rfl
@[simp] theorem taken_env (s : State) (rest : List Presentation) : (s.taken rest).env = { s.env with host := rest } := rfl
@[simp] theorem taken_trace (s : State) (rest : List Presentation) : (s.taken rest).trace = s.trace := rfl
@[simp] theorem taken_labels (s : State) (rest : List Presentation) : (s.taken rest).labels = s.labels := rfl

@[simp] theorem hardReset_cfg (s : State) : (hardReset s).cfg = s.cfg := rfl
@[simp] theorem hardReset_u (s : State) : (hardReset s).u = Config.crcInit := rfl
@[simp] theorem hardReset_p (s : State) : (hardReset s).p = Parser.reset := rfl
@[simp] theorem hardReset_n (s : State) : (hardReset s).n = Node.reset := rfl
@[simp] theorem hardReset_result (s : State) : (hardReset s).result = .none := rfl
@[simp] theorem hardReset_view (s : State) : (hardReset s).view = none := rfl
@[simp] theorem hardReset_frame (s : State) : (hardReset s).frame = [] := rfl
@[simp] theorem hardReset_resets (s : State) : (hardReset s).resets = s.resets + 1 := rfl
@[simp] theorem hardReset_env (s : State) : (hardReset s).env = s.env := rfl
@[simp] theorem hardReset_trace (s : State) : (hardReset s).trace = s.trace := rfl
@[simp] theorem hardReset_labels (s : State) : (hardReset s).labels = s.labels := rfl

@[simp] theorem withoutGhosts_cfg (s : State) : s.withoutGhosts.cfg = s.cfg := rfl
@[simp] theorem withoutGhosts_u (s : State) : s.withoutGhosts.u = s.u := rfl
@[simp] theorem withoutGhosts_p (s : State) : s.withoutGhosts.p = s.p := rfl
@[simp] theorem withoutGhosts_n (s : State) : s.withoutGhosts.n = s.n := rfl
@[simp] theorem withoutGhosts_result (s : State) : s.withoutGhosts.result = s.result := rfl
@[simp] theorem withoutGhosts_view (s : State) : s.withoutGhosts.view = none := rfl
@[simp] theorem withoutGhosts_frame (s : State) : s.withoutGhosts.frame = [] := rfl
@[simp] theorem withoutGhosts_resets (s : State) : s.withoutGhosts.resets = s.resets := rfl
@[simp] theorem withoutGhosts_env (s : State) : s.withoutGhosts.env = s.env := rfl
@[simp] theorem withoutGhosts_trace (s : State) : s.withoutGhosts.trace = [] := rfl
@[simp] theorem withoutGhosts_labels (s : State) : s.withoutGhosts.labels = [] := rfl

@[simp] theorem cleared_inside (p : Parser) : p.cleared.inside = false := rfl
@[simp] theorem cleared_unesc (p : Parser) : p.cleared.unesc = false := rfl
@[simp] theorem cleared_offset (p : Parser) : p.cleared.offset = 0 := rfl
@[simp] theorem cleared_crc (p : Parser) : p.cleared.crc = Config.crcInit := rfl
@[simp] theorem cleared_buf (p : Parser) : p.cleared.buf = p.buf := rfl

end Sys2Proof.Machine
end

