-- ==== Sys2Proof/Laws/Memory.lean ====
section
/-! SUPPORT. The laws of the byte arrays: a read after a write, the canonical form, and what a slice of `P.buf` is. -/

namespace Sys2Proof.Machine

/-- A read after a write gives the byte written there and leaves every other address alone. -/
theorem memRead_memWrite (m : Memory) (i a : Nat) (e : Byte) :
    memRead (memWrite m i e) a = if a = i then some e else memRead m a := by
  induction m with
  | nil => simp [memWrite, memRead, eq_comm]
  | cons c rest ih =>
    obtain ⟨x, b⟩ := c
    simp only [memWrite]
    split
    · simp [memRead, eq_comm]
    · split
      · subst_vars
        by_cases h : a = x
        · simp [memRead, h]
        · simp [memRead, h, Ne.symm h]
      · simp only [memRead, ih]
        by_cases h : x = a
        · subst h; simp [Ne.symm ‹_›]
        · simp [h]

@[simp] theorem memRead_memWrite_same (m : Memory) (i : Nat) (e : Byte) :
    memRead (memWrite m i e) i = some e := by simp [memRead_memWrite]

theorem memRead_memWrite_other (m : Memory) {i a : Nat} (e : Byte) (h : a ≠ i) :
    memRead (memWrite m i e) a = memRead m a := by simp [memRead_memWrite, h]

/-- The canonical form, told by the first address and the rest. -/
theorem wf_cons (a : Host.Cell) (m : Memory) :
    Memory.wf (a :: m) = true ↔ (∀ c ∈ m, a.1 < c.1) ∧ Memory.wf m = true := by
  induction m generalizing a with
  | nil => simp [Memory.wf]
  | cons b rest ih =>
    simp only [Memory.wf, Bool.and_eq_true, decide_eq_true_eq]
    constructor
    · rintro ⟨h, hw⟩
      refine ⟨?_, hw⟩
      intro c hc
      rcases List.mem_cons.1 hc with rfl | hc
      · exact h
      · exact lt_trans h ((ih b).1 hw |>.1 c hc)
    · rintro ⟨h, hw⟩
      exact ⟨h b (by simp), hw⟩

/-- Every entry after a write is the one written or one that was there. -/
theorem mem_memWrite {m : Memory} {i : Nat} {e : Byte} {c : Host.Cell} (h : c ∈ memWrite m i e) :
    c = (i, e) ∨ c ∈ m := by
  induction m with
  | nil => simpa [memWrite] using h
  | cons d rest ih =>
    obtain ⟨x, b⟩ := d
    simp only [memWrite] at h
    split at h
    · simpa using h
    · split at h
      · rcases List.mem_cons.1 h with rfl | h
        · exact .inl rfl
        · exact .inr (List.mem_cons_of_mem _ h)
      · rcases List.mem_cons.1 h with rfl | h
        · exact .inr (by simp)
        · rcases ih h with rfl | h
          · exact .inl rfl
          · exact .inr (List.mem_cons_of_mem _ h)

/-- A write keeps the canonical form. -/
theorem memWrite_wf (m : Memory) (i : Nat) (e : Byte) (h : Memory.wf m = true) :
    Memory.wf (memWrite m i e) = true := by
  induction m with
  | nil => rfl
  | cons d rest ih =>
    obtain ⟨x, b⟩ := d
    obtain ⟨hlt, hw⟩ := (wf_cons _ _).1 h
    simp only [memWrite]
    split
    · refine (wf_cons _ _).2 ⟨?_, h⟩
      intro c hc
      rcases List.mem_cons.1 hc with rfl | hc
      · assumption
      · exact lt_trans ‹i < x› (hlt c hc)
    · split
      · subst_vars; exact (wf_cons _ _).2 ⟨hlt, hw⟩
      · refine (wf_cons _ _).2 ⟨?_, ih hw⟩
        intro c hc
        rcases mem_memWrite hc with rfl | hc
        · have := ‹¬i < x›; have := ‹¬i = x›; simp; omega
        · exact hlt c hc

/-- A write inside the capacity keeps the canonical form inside it. -/
theorem memWrite_within {cap : Nat} {m : Memory} {i : Nat} (e : Byte) (hi : i < cap)
    (h : Memory.within cap m = true) : Memory.within cap (memWrite m i e) = true := by
  simp only [Memory.within, Bool.and_eq_true, List.all_eq_true, decide_eq_true_eq] at h ⊢
  refine ⟨memWrite_wf m i e h.1, fun c hc => ?_⟩
  rcases mem_memWrite hc with rfl | hc
  · exact hi
  · exact h.2 c hc

/-- Writes inside the capacity keep the canonical form inside it. -/
theorem memWriteAll_within {cap : Nat} {m : Memory} (writes : List Host.Cell)
    (hw : writes.all (fun w => decide (w.1 < cap)) = true) (h : Memory.within cap m = true) :
    Memory.within cap (memWriteAll m writes) = true := by
  induction writes generalizing m with
  | nil => exact h
  | cons c rest ih =>
    obtain ⟨i, e⟩ := c
    simp only [List.all_cons, Bool.and_eq_true, decide_eq_true_eq] at hw
    exact ih hw.2 (memWrite_within e hw.1 h)

/-- What `P.buf` reads as after a write inside it. -/
theorem bufRead_bufWrite (s : State) (i a : Nat) (e : Byte) :
    (s.bufWrite i e).bufRead a =
      if a = i then (if i < s.cfg.bufCap then some e else none) else s.bufRead a := by
  simp only [State.bufRead, bufWrite_cfg, bufWrite_p, memRead_memWrite]
  by_cases h : a = i <;> simp [h]

/-- A slice of `P.buf` depends on the parameters and the buffer alone. -/
theorem bufSlice_congr {s t : State} (hc : s.cfg = t.cfg) (hb : s.p.buf = t.p.buf) (i n : Nat) :
    s.bufSlice i n = t.bufSlice i n := by
  induction n generalizing i with
  | zero => rfl
  | succ n ih =>
    have h : s.bufRead i = t.bufRead i := by unfold State.bufRead; rw [hc, hb]
    unfold State.bufSlice
    rw [h, ih]

/-- A payload view depends on the parameters and the buffer alone. -/
theorem payloadView_congr {s t : State} (hc : s.cfg = t.cfg) (hb : s.p.buf = t.p.buf) (n : Nat) :
    s.payloadView n = t.payloadView n := bufSlice_congr hc hb 0 n

@[simp] theorem payloadView_ageView (s : State) (n : Nat) : (ageView s).payloadView n = s.payloadView n :=
  payloadView_congr (s := ageView s) (t := s) rfl rfl n

/-- A slice of `P.buf` holds, at each index, the byte read there. -/
theorem bufSlice_eq_some {s : State} {i n : Nat} {l : List Byte} :
    s.bufSlice i n = some l ↔ l.length = n ∧ ∀ k, k < n → s.bufRead (i + k) = l[k]? := by
  induction n generalizing i l with
  | zero =>
    simp only [State.bufSlice, Option.some.injEq]
    constructor
    · rintro rfl; simp
    · rintro ⟨h, -⟩; simpa using (List.length_eq_zero_iff.1 h).symm
  | succ n ih =>
    simp only [State.bufSlice]
    constructor
    · intro h
      split at h
      · rename_i b bs hb hbs
        obtain rfl := Option.some.inj h
        obtain ⟨hl, hr⟩ := ih.1 hbs
        refine ⟨by simp [hl], fun k hk => ?_⟩
        cases k with
        | zero => simpa using hb
        | succ k =>
          have := hr k (by omega)
          rw [show i + (k + 1) = i + 1 + k by omega, this]
          simp
      · exact absurd h (by simp)
    · rintro ⟨hl, hr⟩
      cases l with
      | nil => simp at hl
      | cons b bs =>
        have hb : s.bufRead i = some b := by simpa using hr 0 (by omega)
        have hbs : s.bufSlice (i + 1) n = some bs := by
          refine ih.2 ⟨by simpa using hl, fun k hk => ?_⟩
          have := hr (k + 1) (by omega)
          rw [show i + (k + 1) = i + 1 + k by omega] at this
          simpa using this
        simp [hb, hbs]

/-- A slice exists where every byte of it can be read. -/
theorem bufSlice_isSome {s : State} {i n : Nat} (h : ∀ k, k < n → (s.bufRead (i + k)).isSome = true) :
    ∃ l, s.bufSlice i n = some l := by
  induction n generalizing i with
  | zero => exact ⟨[], rfl⟩
  | succ n ih =>
    obtain ⟨b, hb⟩ := Option.isSome_iff_exists.1 (h 0 (by omega))
    obtain ⟨bs, hbs⟩ := ih (i := i + 1) fun k hk => by
      have := h (k + 1) (by omega)
      rwa [show i + (k + 1) = i + 1 + k by omega] at this
    exact ⟨b :: bs, by simp only [Nat.add_zero] at hb; simp [State.bufSlice, hb, hbs]⟩

end Sys2Proof.Machine
end

