-- ==== Sys2Proof/Laws/Operands.lean ====
section
/-! SUPPORT. The laws of the byte lanes: a lane after a lane is written, and a value is its lanes. -/

namespace Sys2Proof.Machine

/-- A lane of the bytes of a value is the byte there. -/
theorem getElem_lane {w : Nat} (v : BitVec w) (k i : Nat) (h : i < 8) : (lane v k)[i] = v.getLsbD (8 * k + i) := by
  simp [lane, BitVec.getElem_extractLsb']

/-- Writing a lane gives that lane the byte and keeps every other lane. -/
theorem lane_setLane {w : Nat} (v : BitVec w) (k j : Nat) (e : Byte) (hj : 8 * j + 8 ≤ w) :
    lane (setLane v k e) j = if j = k then e else lane v j := by
  ext i hi
  rw [getElem_lane _ _ _ hi]
  simp only [setLane, BitVec.getLsbD_or, BitVec.getLsbD_and, BitVec.getLsbD_not, BitVec.getLsbD_shiftLeft,
    BitVec.getLsbD_setWidth]
  have hw : 8 * j + i < w := by omega
  by_cases h : j = k
  · subst h
    have hm : (0xFF#8).getLsbD i = true := by interval_cases i <;> rfl
    have h1 : ¬8 * j + i < 8 * j := by omega
    have h2 : i < w := by omega
    simp [hw, h1, h2, hm, hi]
  · rw [if_neg h, getElem_lane _ _ _ hi]
    have h2 : ¬8 * j + i < 8 * k → 8 ≤ 8 * j + i - 8 * k := by omega
    by_cases h1 : 8 * j + i < 8 * k
    · simp [hw, h1]
    · simp [hw, h1, BitVec.getLsbD_of_ge _ _ (h2 h1)]

/-- Two values whose lanes agree are equal. -/
theorem eq_of_lanes {n : Nat} {v w : BitVec (8 * n)} (h : ∀ k, k < n → lane v k = lane w k) : v = w := by
  ext i hi
  have e : ∀ x : BitVec (8 * n), x[i] = (lane x (i / 8))[i % 8]'(Nat.mod_lt _ (by decide)) := fun x => by
    rw [getElem_lane, ← BitVec.getLsbD_eq_getElem]; congr 1; omega
  rw [e v, e w]
  congr 1
  exact h _ (by omega)

/-- The lowest lane of a value with a byte appended below it. -/
theorem lane_append_zero {w : Nat} (v : BitVec w) (b : Byte) : lane (v ++ b) 0 = b := by
  ext i hi
  rw [getElem_lane _ _ _ hi, BitVec.getLsbD_append, if_pos (by omega), Nat.mul_zero, Nat.zero_add]
  rfl

/-- The other lanes of a value with a byte appended below it. -/
theorem lane_append_succ {w : Nat} (v : BitVec w) (b : Byte) (k : Nat) : lane (v ++ b) (k + 1) = lane v k := by
  ext i hi
  rw [getElem_lane _ _ _ hi, getElem_lane _ _ _ hi, BitVec.getLsbD_append, if_neg (by omega)]
  congr 1
  omega

/-- The only lane of a byte. -/
theorem lane_byte (b : Byte) : lane b 0 = b := by
  ext i hi
  rw [getElem_lane _ _ _ hi, Nat.mul_zero, Nat.zero_add]
  rfl

@[simp] theorem le16_of16 (b0 b1 : Byte) : le16 (of16 b0 b1) = [b0, b1] := by
  unfold le16 of16
  rw [lane_append_zero, lane_append_succ, lane_byte]

@[simp] theorem le64_of64 (b0 b1 b2 b3 b4 b5 b6 b7 : Byte) :
    le64 (of64 b0 b1 b2 b3 b4 b5 b6 b7) = [b0, b1, b2, b3, b4, b5, b6, b7] := by
  unfold le64 of64
  repeat rw [lane_append_succ]
  repeat rw [lane_append_zero]
  rw [lane_byte]

/-- The bytes of a value, put together again, are the value. -/
@[simp] theorem of16_lanes (v : Half) : of16 (lane v 0) (lane v 1) = v := by
  have h := le16_of16 (lane v 0) (lane v 1)
  simp only [le16, List.cons.injEq] at h
  refine eq_of_lanes (n := 2) fun k hk => ?_
  interval_cases k
  exacts [h.1, h.2.1]

@[simp] theorem of64_lanes (v : Tid) : of64 (lane v 0) (lane v 1) (lane v 2) (lane v 3) (lane v 4) (lane v 5)
    (lane v 6) (lane v 7) = v := by
  have h := le64_of64 (lane v 0) (lane v 1) (lane v 2) (lane v 3) (lane v 4) (lane v 5) (lane v 6) (lane v 7)
  simp only [le64, List.cons.injEq] at h
  obtain ⟨h0, h1, h2, h3, h4, h5, h6, h7, -⟩ := h
  refine eq_of_lanes (n := 8) fun k hk => ?_
  interval_cases k
  exacts [h0, h1, h2, h3, h4, h5, h6, h7]

end Sys2Proof.Machine
end

