-- ==== Sys2Proof/Laws/Ops.lean ====
section
/-! SUPPORT. What each shared operation can do, said once: the interfaces, the encoder, the parser step and the poll. -/

namespace Sys2Proof.Machine

/-! ### Outcomes -/

section
variable {α β γ : Type}

@[simp] theorem andThen_next (a : α) (f : α → Host.Outcome β Fault Refusal) : andThen (.next a) f = f a := rfl
@[simp] theorem andThen_fault (r : Fault) (f : α → Host.Outcome β Fault Refusal) :
    andThen (.fault r) f = .fault r := rfl
@[simp] theorem andThen_refused (r : Refusal) (f : α → Host.Outcome β Fault Refusal) :
    andThen (.refused r) f = .refused r := rfl

/-- What goes on to a next value came through a next value. -/
theorem andThen_eq_next {o : Host.Outcome α Fault Refusal} {f : α → Host.Outcome β Fault Refusal} {b : β} :
    andThen o f = .next b ↔ ∃ a, o = .next a ∧ f a = .next b := by
  cases o <;> simp

theorem andThen_assoc (o : Host.Outcome α Fault Refusal) (f : α → Host.Outcome β Fault Refusal)
    (g : β → Host.Outcome γ Fault Refusal) :
    andThen (andThen o f) g = andThen o fun a => andThen (f a) g := by
  cases o <;> rfl

end

/-! ### The interfaces -/

/-- `rx_take()` answers the next entry of the list, none where it has run out, and consumes it. -/
theorem rxTake_eq (s : State) :
    rxTake s = ((s.env.rx.head?).join,
      { s with
        env := { s.env with rx := s.env.rx.tail }
        trace := .rxTake (s.env.rx.head?).join :: s.trace }) := by
  unfold rxTake
  split <;> rename_i h <;> simp [h, State.record]
  cases s with
  | mk cfg u p n result view frame resets env trace labels => cases env; simp_all

/-- A call of `processResponse` that returns leaves the next answer consumed and the call in the trace. -/
theorem callResponse_next {payload : List Byte} {s t : State} (h : callResponse payload s = .next t) :
    s.env.onResponse.head? ≠ some .reentered ∧
    t = { s with
      env := { s.env with onResponse := s.env.onResponse.tail }
      trace := .processResponse payload :: s.trace } := by
  unfold callResponse at h
  split at h
  · rename_i he
    cases h
    refine ⟨by simp [he], ?_⟩
    cases s with
    | mk cfg u p n result view frame resets env trace labels => cases env; simp_all [State.record]
  · rename_i he; cases h; simp [he, State.record]
  · cases h

/-- A call of `processRequest` that returns either met no listed answer, or one inside the contract. -/
theorem callRequest_next {v : ServiceId} {d : Half} {payload : List Byte} {s : State} {r : Option Nat × State}
    (h : callRequest v d payload s = .next r) :
    (s.env.onRequest = [] ∧ r = (none, s.record (.processRequest v d payload))) ∨
    ∃ writes len rest, s.env.onRequest = .returned writes len :: rest ∧ answerLegal s.cfg writes len = true ∧
      r = (len, { s with
        n := { s.n with respBuf := memWriteAll s.n.respBuf writes }
        env := { s.env with onRequest := rest }
        trace := .processRequest v d payload :: s.trace }) := by
  unfold callRequest at h
  split at h
  · cases h; exact .inl ⟨‹_›, rfl⟩
  · split at h
    · cases h; exact .inr ⟨_, _, _, ‹_›, ‹_›, rfl⟩
    · cases h
  · cases h

/-! ### The encoder -/

@[simp] theorem afterOffers_nil (s : State) : s.afterOffers [] = s := by
  cases s with
  | mk cfg u p n result view frame resets env trace labels => cases env; simp [State.afterOffers]

theorem afterOffers_append (s : State) (a b : List (Byte × Bool)) :
    (s.afterOffers a).afterOffers b = s.afterOffers (a ++ b) := by
  simp [State.afterOffers, List.drop_drop]

/-- Offers for a concatenation: those for the first part and, if it was accepted whole, those for the second. -/
theorem offersFor_append (xs ys : List Byte) (tx : List Bool) :
    offersFor (xs ++ ys) tx = offersFor xs tx ++
      if allAccepted (offersFor xs tx) then offersFor ys (tx.drop (offersFor xs tx).length) else [] := by
  induction xs generalizing tx with
  | nil => simp [offersFor, allAccepted]
  | cons b bs ih =>
    cases tx with
    | nil => simpa [offersFor, allAccepted] using ih []
    | cons a rest =>
      cases a
      · simp [offersFor, allAccepted]
      · simpa [offersFor, allAccepted] using ih rest

/-- What sending some bytes answers and leaves: the offers up to the first refusal, and whether there was none. -/
def sendOf (bytes : List Byte) (s : State) : Bool × State :=
  (allAccepted (offersFor bytes s.env.tx), s.afterOffers (offersFor bytes s.env.tx))

theorem sendOf_nil (s : State) : sendOf [] s = (true, s) := by simp [sendOf, offersFor, allAccepted]

/-- Sending a concatenation is sending the first part and, if it was accepted whole, the second. -/
theorem ifSent_sendOf (xs ys : List Byte) (s : State) :
    ifSent (sendOf xs s) (sendOf ys) = sendOf (xs ++ ys) s := by
  simp only [ifSent, sendOf, offersFor_append]
  cases h : allAccepted (offersFor xs s.env.tx)
  · simp only [Bool.false_eq_true, if_false, List.append_nil, h]
  · simp only [if_true, afterOffers_append, afterOffers_env]
    simp only [allAccepted] at h
    simp [allAccepted, h]

theorem ifSent_assoc (r : Bool × State) (f g : State → Bool × State) :
    ifSent (ifSent r f) g = ifSent r fun s => ifSent (f s) g := by
  obtain ⟨b, s⟩ := r
  cases b <;> rfl

theorem ifSent_true (r : Bool × State) : ifSent r (fun s => (true, s)) = r := by
  obtain ⟨b, s⟩ := r
  cases b <;> rfl

theorem offer_eq (b : Byte) : offer b = sendOf [b] := by
  funext s
  unfold offer
  split
  · rename_i h
    cases s with
    | mk cfg u p n result view frame resets env trace labels =>
      cases env
      simp_all [sendOf, offersFor, allAccepted, State.afterOffers, State.record]
  · rename_i a rest h
    cases a <;> simp [sendOf, offersFor, allAccepted, State.afterOffers, State.record, h]

/-- `emit_esc` offers the escape form of its byte. -/
theorem emitEsc_eq (v : Byte) : emitEsc v = sendOf (escapeForm v) := by
  funext s
  unfold emitEsc escapeForm
  split
  · rw [offer_eq, offer_eq, ifSent_sendOf]; rfl
  · rw [offer_eq]

theorem emitAll_eq (bytes : List Byte) : emitAll bytes = sendOf (bytes.flatMap escapeForm) := by
  induction bytes with
  | nil => funext s; simp [emitAll, sendOf_nil]
  | cons b bs ih => funext s; rw [emitAll, ih, emitEsc_eq, ifSent_sendOf, List.flatMap_cons]

/-- Sending with the transient register: the bytes go out, and what follows gets the run over them. -/
theorem emitChecked_eq (poly : Word) (bytes : List Byte) (crc : Word) (s : State)
    (f : Word → State → Bool × State) :
    emitChecked poly bytes crc s f = ifSent (sendOf (bytes.flatMap escapeForm) s) (f (crcRun poly crc bytes)) := by
  induction bytes generalizing crc s with
  | nil => simp [emitChecked, sendOf_nil, ifSent, crcRun]
  | cons b bs ih =>
    simp only [emitChecked, emitEsc_eq, ih, List.flatMap_cons, ← ifSent_sendOf, ifSent_assoc, crcRun]

theorem emitCodeword_eq (poly : Word) (bytes : List Byte) (s : State) (f : State → Bool × State) :
    emitCodeword poly bytes s f = ifSent (sendOf ((codeword poly bytes).flatMap escapeForm) s) f := by
  simp only [emitCodeword, emitChecked_eq, emitAll_eq, codeword, crcValueOf, List.flatMap_append, ← ifSent_sendOf,
    ifSent_assoc]

/-- The encoder offers the frame of its transfer up to the first refusal, and changes nothing else. -/
theorem encodeTransfer_eq (t : Transfer) (s : State) :
    encodeTransfer t s = (allAccepted (frameOffers t s), s.afterOffers (frameOffers t s)) := by
  have h : encodeTransfer t s = sendOf (frameOf s.cfg.crcPoly t) s := by
    unfold encodeTransfer emitRaw
    simp only [emitCodeword_eq, offer_eq]
    simp only [ifSent_sendOf]
    simp [frameOf, logicalBytes]
  rw [h]
  rfl

/-! ### The parser -/

/-- Routing a byte keeps everything but the parser, the ghost bytes of the frame and the ghost labels. -/
theorem routeByte_keeps (o : Nat) (e : Byte) (s : State) :
    ∃ p f l, routeByte o e s = { s with p := p, frame := f, labels := l } := by
  unfold routeByte
  split
  case _ => unfold decodeVersion; split; exacts [⟨_, _, _, rfl⟩, ⟨_, _, _, rfl⟩]
  case _ => exact ⟨_, _, _, rfl⟩
  case _ => exact ⟨_, _, _, rfl⟩
  case _ => exact ⟨_, _, _, rfl⟩
  case _ => exact ⟨_, _, _, rfl⟩
  case _ => exact ⟨_, _, _, rfl⟩
  case _ => exact ⟨_, _, _, rfl⟩
  case _ => unfold decodeEotMarker; split; exacts [⟨_, _, _, rfl⟩, ⟨_, _, _, rfl⟩]
  case _ =>
    unfold decodeHeaderCrc
    split
    · split; exacts [⟨_, _, _, rfl⟩, ⟨_, _, _, rfl⟩]
    · exact ⟨_, _, _, rfl⟩
  case _ => unfold storePayload; split; exacts [⟨_, _, _, rfl⟩, ⟨_, _, _, rfl⟩]

/-- Routing a byte abandons the frame or stays inside it, with the offset, the pending escape and the ghost bytes as they were. -/
theorem routeByte_cases (o : Nat) (e : Byte) (s : State) :
    (∃ c, routeByte o e s = abandon c s) ∨
    ((routeByte o e s).p.inside = s.p.inside ∧ (routeByte o e s).p.offset = s.p.offset ∧
      (routeByte o e s).p.unesc = s.p.unesc ∧ (routeByte o e s).frame = s.frame) := by
  unfold routeByte
  split
  case _ => unfold decodeVersion; split; exacts [.inr ⟨rfl, rfl, rfl, rfl⟩, .inl ⟨_, rfl⟩]
  case _ => exact .inr ⟨rfl, rfl, rfl, rfl⟩
  case _ => exact .inr ⟨rfl, rfl, rfl, rfl⟩
  case _ => exact .inr ⟨rfl, rfl, rfl, rfl⟩
  case _ => exact .inr ⟨rfl, rfl, rfl, rfl⟩
  case _ => exact .inr ⟨rfl, rfl, rfl, rfl⟩
  case _ => exact .inr ⟨rfl, rfl, rfl, rfl⟩
  case _ => unfold decodeEotMarker; split; exacts [.inr ⟨rfl, rfl, rfl, rfl⟩, .inl ⟨_, rfl⟩]
  case _ =>
    unfold decodeHeaderCrc
    split
    · split; exacts [.inr ⟨rfl, rfl, rfl, rfl⟩, .inl ⟨_, rfl⟩]
    · exact .inr ⟨rfl, rfl, rfl, rfl⟩
  case _ => unfold storePayload; split; exacts [.inr ⟨rfl, rfl, rfl, rfl⟩, .inl ⟨_, rfl⟩]

/-- In the header region a byte is decoded without touching the buffer. -/
theorem routeByte_header_buf {o : Nat} (e : Byte) (s : State) (h : o < 32) :
    (routeByte o e s).p.buf = s.p.buf := by
  unfold routeByte
  split
  case _ => unfold decodeVersion; split <;> rfl
  case _ => rfl
  case _ => rfl
  case _ => rfl
  case _ => rfl
  case _ => rfl
  case _ => rfl
  case _ => unfold decodeEotMarker; split <;> rfl
  case _ => unfold decodeHeaderCrc; split <;> try split
            all_goals rfl
  case _ i hi => exfalso; revert hi; unfold offsetRule; split_ifs <;> simp

theorem offsetRule_payload {o : Nat} (h : 32 ≤ o) : offsetRule o = .payload (o - 32) := by
  unfold offsetRule Config.headerSize
  rw [if_neg, if_neg, dif_neg, dif_neg, dif_neg, dif_neg, dif_neg, dif_neg, dif_neg] <;> omega

/-- In the payload region a byte is stored or overflows. -/
theorem routeByte_payload {o : Nat} (e : Byte) (s : State) (h : 32 ≤ o) :
    routeByte o e s = storePayload (o - 32) e s := by
  simp [routeByte, offsetRule_payload h]

/-- What a delimiter that completes returns and leaves. -/
theorem delimRule_next {s : State} {r : Option Transfer × State} (h : delimRule s = .next r) :
    (s.emitReady = true ∧ ∃ payload, s.payloadView s.emitLength = some payload ∧
      r = (some
        { pri := s.p.pri
          src := s.p.src
          dst := s.p.dst
          dspec := s.p.dspec
          tid := s.p.tid
          payload := payload }, reopen (handOutView payload.length s))) ∨
    (s.emitReady = false ∧ r = (none, reopen (noteClose s))) := by
  obtain ⟨out, ho, hr⟩ := andThen_eq_next.1 h
  unfold emission at ho
  split at ho
  · split at ho
    · cases ho; cases hr; exact .inl ⟨‹_›, _, ‹_›, rfl⟩
    · cases ho
  · rename_i hn
    cases ho; cases hr; exact .inr ⟨by simpa using hn, rfl⟩

/-- Noting how a frame was closed changes the ghost labels alone. -/
theorem noteClose_eq (s : State) : ∃ l, noteClose s = { s with labels := l } := by
  unfold noteClose
  split
  · split; exacts [⟨_, rfl⟩, ⟨_, rfl⟩]
  · exact ⟨_, rfl⟩

theorem advance_eq (o : Nat) (s : State) :
    advance o s = { s with p := if s.p.inside then { s.p with offset := nextOffset s.cfg o } else s.p } := by
  unfold advance
  split <;> rfl

/-- In range the counter does not wrap (R150, R151). -/
theorem nextOffset_eq {c : Params} {o : Nat} (h : o < Config.headerSize + c.bufCap) : nextOffset c o = o + 1 :=
  Nat.mod_eq_of_lt (Nat.lt_of_le_of_lt h c.lt_two_pow_offW)

/-- A data symbol's rule keeps everything but the parser, the ghost bytes of the frame and the ghost labels. -/
theorem dataRule_keeps (b : Byte) (s : State) :
    ∃ p f l, dataRule b s = { s with p := p, frame := f, labels := l } := by
  unfold dataRule
  obtain ⟨p, f, l, h⟩ := routeByte_keeps s.p.offset (effectiveByte s.p.unesc b) (absorb (effectiveByte s.p.unesc b) s)
  rw [h, advance_eq]
  exact ⟨_, _, _, rfl⟩

/-- A parser step that completes keeps everything but the parser, the view and the ghosts of the frame and the labels. -/
theorem parserStep_keeps {b : Byte} {s : State} {r : Option Transfer × State} (h : parserStep b s = .next r) :
    ∃ p v f l, r.2 = { s with p := p, view := v, frame := f, labels := l } := by
  unfold parserStep at h
  split at h
  · rcases delimRule_next h with ⟨-, payload, -, rfl⟩ | ⟨-, rfl⟩
    · exact ⟨_, _, _, _, rfl⟩
    · obtain ⟨l, hl⟩ := noteClose_eq (ageView s)
      rw [hl]; exact ⟨_, _, _, _, rfl⟩
  · cases h
    unfold escSymbol
    split
    · unfold escRule; split; exacts [⟨_, _, _, _, rfl⟩, ⟨_, _, _, _, rfl⟩]
    · exact ⟨_, _, _, _, rfl⟩
  · cases h
    unfold dataSymbol
    split
    · obtain ⟨p, f, l, hd⟩ := dataRule_keeps b (ageView s)
      rw [hd]; exact ⟨_, _, _, _, rfl⟩
    · exact ⟨_, _, _, _, rfl⟩

/-! ### The classes -/

theorem noteResponse_eq (s : State) : ∃ l, noteResponse s = { s with labels := l } := by
  unfold noteResponse
  split
  · exact ⟨_, rfl⟩
  · split; exacts [⟨_, rfl⟩, ⟨_, rfl⟩]

theorem noteRequest_eq (s : State) : ∃ l, noteRequest s = { s with labels := l } := by
  unfold noteRequest
  split; exacts [⟨_, rfl⟩, ⟨_, rfl⟩]

theorem noteSink_eq (ok : Bool) (s : State) : ∃ l, noteSink ok s = { s with labels := l } := by
  unfold noteSink
  split; exacts [⟨_, rfl⟩, ⟨_, rfl⟩]

/-- What the processing of a completed transfer may change: only the pending flag, which it can only clear, the response
buffer, inside its capacity, the environment's answers, the trace and the labels. -/
structure ClassKeeps (s s' : State) : Prop where
  shape : ∃ pv rb tx onResponse onRequest trace labels, s' = { s with
    n := { s.n with pendValid := pv, respBuf := rb }
    env := { s.env with tx := tx, onResponse := onResponse, onRequest := onRequest }
    trace := trace
    labels := labels }
  pending : s'.n.pendValid = true → s.n.pendValid = true
  buffer : Memory.within s.cfg.respCap s.n.respBuf = true → Memory.within s.cfg.respCap s'.n.respBuf = true
  responses : ∀ a ∈ s'.env.onResponse, a ∈ s.env.onResponse
  requests : ∀ a ∈ s'.env.onRequest, a ∈ s.env.onRequest

theorem ClassKeeps.refl (s : State) (l : List Cause) : ClassKeeps s { s with labels := l } :=
  ⟨⟨_, _, _, _, _, _, _, rfl⟩, id, id, fun _ => id, fun _ => id⟩

/-- What a processed response that completes has done. -/
theorem onResponse_keeps {t : Transfer} {s s' : State} (h : onResponse t s = .next s') :
    ClassKeeps s s' ∧ s'.n.respBuf = s.n.respBuf := by
  unfold onResponse at h
  split at h
  · obtain ⟨s1, h1, h2⟩ := andThen_eq_next.1 h
    obtain ⟨-, rfl⟩ := callResponse_next h1
    cases h2
    exact ⟨⟨⟨_, _, _, _, _, _, _, rfl⟩, by simp, id, fun _ => List.mem_of_mem_tail, fun _ => id⟩, rfl⟩
  · cases h
    obtain ⟨l, hl⟩ := noteResponse_eq s
    rw [hl]; exact ⟨.refl s l, rfl⟩

/-- What a processed request that completes has done. -/
theorem onRequest_keeps {t : Transfer} {s s' : State} (h : onRequest t s = .next s') :
    ClassKeeps s s' ∧ s'.n.pendValid = s.n.pendValid := by
  unfold onRequest at h
  split at h
  · obtain ⟨r, h1, h2⟩ := andThen_eq_next.1 h
    rcases callRequest_next h1 with ⟨-, rfl⟩ | ⟨writes, len, rest, hl, hlegal, rfl⟩
    · cases h2; exact ⟨⟨⟨_, _, _, _, _, _, _, rfl⟩, id, id, fun _ => id, fun _ => id⟩, rfl⟩
    · simp only [answerLegal, Bool.and_eq_true] at hlegal
      have hrest : ∀ a ∈ rest, a ∈ s.env.onRequest := fun a ha => hl ▸ List.mem_cons_of_mem _ ha
      cases len with
      | none =>
        cases h2
        exact ⟨⟨⟨_, _, _, _, _, _, _, rfl⟩, id, memWriteAll_within writes hlegal.1, fun _ => id, hrest⟩, rfl⟩
      | some n =>
        simp only [sendResponse, encodeTransfer_eq] at h2
        cases h2
        exact ⟨⟨⟨_, _, _, _, _, _, _, rfl⟩, id, memWriteAll_within writes hlegal.1, fun _ => id, hrest⟩, rfl⟩
  · cases h
    obtain ⟨l, hl⟩ := noteRequest_eq s
    rw [hl]; exact ⟨.refl s l, rfl⟩

/-- What a processed transfer that completes has done. -/
theorem processTransfer_keeps {t : Transfer} {s s' : State} (h : processTransfer t s = .next s') :
    ClassKeeps s s' := by
  unfold processTransfer at h
  split at h
  · exact (onResponse_keeps h).1
  · exact (onRequest_keeps h).1
  · cases h; exact .refl s _

/-! ### The poll -/

/-- The induction over a poll, once: what `rx_take()` and one received byte keep, the loop keeps. -/
theorem pollLoop_keeps {P : State → Prop} (hrx : ∀ s, P s → P (rxTake s).2)
    (hbyte : ∀ b s s', P s → pollByte b s = .next s' → P s') :
    ∀ k s t, P s → pollLoop k s = .next t → P t := by
  intro k
  induction k with
  | zero => intro s t hs h; cases h; exact hs
  | succ k ih =>
    intro s t hs h
    have h1 := hrx s hs
    unfold pollLoop at h
    split at h
    · rename_i s' he; cases h; rw [he] at h1; exact h1
    · rename_i b s' he
      rw [he] at h1
      obtain ⟨s2, h2, h3⟩ := andThen_eq_next.1 h
      exact ih s2 t (hbyte b s' s2 h1 h2) h3

end Sys2Proof.Machine
end

