-- ==== Sys2Proof/Laws/PerInstr.lean ====
section
/-! SUPPORT. A law of the instructions as syntax, one lemma per constructor: the encoding of a well-formed instruction
stands in its row's encoding space, with the row's fixed bits (spec/opcode_table.json, the columns format, match and
mask) or, for a row selected by offset, an offset of the row's range (30_encoding.md R71, R86). -/

namespace Sys2Proof.Laws.FixedBits

/-- The selector an encoding space looks at: its format in the table's order, and its number. -/
def selector : Encoded → Nat × Nat
  | .command code _ => (0, code.toNat)
  | .wire b => (1, b.toNat)
  | .offset o _ => (2, o)
  | .dataSpec t => (3, t.dspec.toNat)

/-- Whether a selector is one of a row that fixes bits. -/
def fixes (format mask pattern : Nat) (x : Nat × Nat) : Prop := x.1 = format ∧ x.2 &&& mask = pattern

/-- Whether a selector is one of a row that is an offset range, the last offset none where it is open. -/
def inRange (first : Nat) (last : Option Nat) (x : Nat × Nat) : Prop :=
  x.1 = 2 ∧ first ≤ x.2 ∧ ∀ l, last = some l → x.2 ≤ l

/-- Whether a selector is a data spec with this bit 15 and, where the row fixes it, this bit 14. -/
def topBits (b15 : Bool) (b14 : Option Bool) (x : Nat × Nat) : Prop :=
  x.1 = 3 ∧ x.2.testBit 15 = b15 ∧ ∀ b, b14 = some b → x.2.testBit 14 = b

/-- The row of an instruction, as a condition on a selector. -/
def row : Instr → Nat × Nat → Prop
  | .crcReset => fixes 0 0xFF 0x00
  | .crcUpdate _ => fixes 0 0xFF 0x01
  | .crcValue => fixes 0 0xFF 0x02
  | .crcResidueOk => fixes 0 0xFF 0x03
  | .parseReset => fixes 0 0xFF 0x10
  | .parseUpdate _ => fixes 0 0xFF 0x11
  | .encEncode _ => fixes 0 0xFF 0x20
  | .nodePoll _ => fixes 0 0xFF 0x30
  | .nodeSendRequest _ _ _ _ => fixes 0 0xFF 0x31
  | .nodeCancelRequest => fixes 0 0xFF 0x32
  | .nodePublish _ _ _ => fixes 0 0xFF 0x33
  | .nodeSetId _ => fixes 0 0xFF 0x34
  | .symDelim => fixes 1 0xFF 0x9E
  | .symEsc => fixes 1 0xFF 0x8E
  | .symData _ => fun x => fixes 1 0x00 0x00 x ∧ x.2 ≠ 0x9E ∧ x.2 ≠ 0x8E
  | .hdrVersion _ => inRange 0 (some 0)
  | .hdrPriority _ => inRange 1 (some 1)
  | .hdrSource _ _ => inRange 2 (some 3)
  | .hdrDestination _ _ => inRange 4 (some 5)
  | .hdrDataSpec _ _ => inRange 6 (some 7)
  | .hdrReserved _ _ => inRange 8 (some 15)
  | .hdrTransferId _ _ => inRange 16 (some 23)
  | .hdrEotMarker _ _ => inRange 24 (some 27)
  | .hdrCrc _ _ => inRange 28 (some 31)
  | .payloadStore _ _ => inRange 32 none
  | .classResponse _ => topBits true (some true)
  | .classRequest _ => topBits true (some false)
  | .classMessage _ => topBits false none

/-- The encoding of a well-formed instruction is one of its row. -/
def Statement (i : Instr) : Prop := i.wellFormed = true → row i (selector (encode i))

theorem crcReset : Statement .crcReset := fun _ =>
  ⟨rfl, show (0x00 : Nat) &&& 0xFF = 0x00 from rfl⟩
theorem crcUpdate (b : Byte) : Statement (.crcUpdate b) := fun _ =>
  ⟨rfl, show (0x01 : Nat) &&& 0xFF = 0x01 from rfl⟩
theorem crcValue : Statement .crcValue := fun _ =>
  ⟨rfl, show (0x02 : Nat) &&& 0xFF = 0x02 from rfl⟩
theorem crcResidueOk : Statement .crcResidueOk := fun _ =>
  ⟨rfl, show (0x03 : Nat) &&& 0xFF = 0x03 from rfl⟩
theorem parseReset : Statement .parseReset := fun _ =>
  ⟨rfl, show (0x10 : Nat) &&& 0xFF = 0x10 from rfl⟩
theorem parseUpdate (b : Byte) : Statement (.parseUpdate b) := fun _ =>
  ⟨rfl, show (0x11 : Nat) &&& 0xFF = 0x11 from rfl⟩
theorem encEncode (t : Transfer) : Statement (.encEncode t) := fun _ =>
  ⟨rfl, show (0x20 : Nat) &&& 0xFF = 0x20 from rfl⟩
theorem nodePoll (time : BitVec 64) : Statement (.nodePoll time) := fun _ =>
  ⟨rfl, show (0x30 : Nat) &&& 0xFF = 0x30 from rfl⟩
theorem nodeSendRequest (v : ServiceId) (d : Half) (k : Tid) (l : List Byte) : Statement (.nodeSendRequest v d k l) := fun _ =>
  ⟨rfl, show (0x31 : Nat) &&& 0xFF = 0x31 from rfl⟩
theorem nodeCancelRequest : Statement .nodeCancelRequest := fun _ =>
  ⟨rfl, show (0x32 : Nat) &&& 0xFF = 0x32 from rfl⟩
theorem nodePublish (v : SubjectId) (k : Tid) (l : List Byte) : Statement (.nodePublish v k l) := fun _ =>
  ⟨rfl, show (0x33 : Nat) &&& 0xFF = 0x33 from rfl⟩
theorem nodeSetId (v : Half) : Statement (.nodeSetId v) := fun _ =>
  ⟨rfl, show (0x34 : Nat) &&& 0xFF = 0x34 from rfl⟩
theorem symDelim : Statement .symDelim := fun _ => ⟨rfl, by decide⟩
theorem symEsc : Statement .symEsc := fun _ => ⟨rfl, by decide⟩
theorem symData (b : Byte) : Statement (.symData b) := fun h => by
  simp only [Instr.wellFormed, Bool.and_eq_true, bne_iff_ne] at h
  exact ⟨⟨rfl, Nat.and_zero _⟩, fun e => h.1 (BitVec.eq_of_toNat_eq e), fun e => h.2 (BitVec.eq_of_toNat_eq e)⟩
theorem hdrVersion (e : Byte) : Statement (.hdrVersion e) := fun _ => ⟨rfl, Nat.le_refl _, fun _ h => by cases h; exact Nat.le_refl _⟩
theorem hdrPriority (e : Byte) : Statement (.hdrPriority e) := fun _ => ⟨rfl, Nat.le_refl _, fun _ h => by cases h; exact Nat.le_refl _⟩
theorem hdrSource (k : Fin 2) (e : Byte) : Statement (.hdrSource k e) := fun _ =>
  ⟨rfl, Nat.le_add_right _ _, fun _ h => by cases h; simp only [encode, selector]; omega⟩
theorem hdrDestination (k : Fin 2) (e : Byte) : Statement (.hdrDestination k e) := fun _ =>
  ⟨rfl, Nat.le_add_right _ _, fun _ h => by cases h; simp only [encode, selector]; omega⟩
theorem hdrDataSpec (k : Fin 2) (e : Byte) : Statement (.hdrDataSpec k e) := fun _ =>
  ⟨rfl, Nat.le_add_right _ _, fun _ h => by cases h; simp only [encode, selector]; omega⟩
theorem hdrReserved (k : Fin 8) (e : Byte) : Statement (.hdrReserved k e) := fun _ =>
  ⟨rfl, Nat.le_add_right _ _, fun _ h => by cases h; simp only [encode, selector]; omega⟩
theorem hdrTransferId (k : Fin 8) (e : Byte) : Statement (.hdrTransferId k e) := fun _ =>
  ⟨rfl, Nat.le_add_right _ _, fun _ h => by cases h; simp only [encode, selector]; omega⟩
theorem hdrEotMarker (k : Fin 4) (e : Byte) : Statement (.hdrEotMarker k e) := fun _ =>
  ⟨rfl, Nat.le_add_right _ _, fun _ h => by cases h; simp only [encode, selector]; omega⟩
theorem hdrCrc (k : Fin 4) (e : Byte) : Statement (.hdrCrc k e) := fun _ =>
  ⟨rfl, Nat.le_add_right _ _, fun _ h => by cases h; simp only [encode, selector]; omega⟩
theorem payloadStore (i : Nat) (e : Byte) : Statement (.payloadStore i e) := fun _ =>
  ⟨rfl, Nat.le_add_right _ _, fun _ h => by cases h⟩
theorem classResponse (t : Transfer) : Statement (.classResponse t) := fun h => by
  simp only [Instr.wellFormed, Machine.classify, beq_iff_eq, BitVec.getLsbD] at h
  split_ifs at h with h15 h14
  exact ⟨rfl, h15, fun b hb => by cases hb; exact h14⟩
theorem classRequest (t : Transfer) : Statement (.classRequest t) := fun h => by
  simp only [Instr.wellFormed, Machine.classify, beq_iff_eq, BitVec.getLsbD] at h
  split_ifs at h with h15 h14
  exact ⟨rfl, h15, fun b hb => by cases hb; exact Bool.eq_false_iff.2 h14⟩
theorem classMessage (t : Transfer) : Statement (.classMessage t) := fun h => by
  simp only [Instr.wellFormed, Machine.classify, beq_iff_eq, BitVec.getLsbD] at h
  split_ifs at h with h15
  exact ⟨rfl, Bool.eq_false_iff.2 h15, fun _ hb => by cases hb⟩

end Sys2Proof.Laws.FixedBits
end

