-- ==== Sys2Proof/Tests/Slice0.lean ====
section
/-! SUPPORT. The author's own tests: the well-formedness checks, words written out from the encodings of spec/, one-step
checks whose expected values are those of 95_test_vectors.md (the vector or rule is named at each), and for every
statement that has hypotheses a state and operands that meet them. -/

namespace Sys2Proof.Tests

open Sys2Proof.Machine

/-! ### Well-formedness: each check refuses an ill-formed term -/

theorem test_wf_symData_delimiter : (Instr.symData 0x9E).wellFormed = false := by decide
theorem test_wf_symData_escape : (Instr.symData 0x8E).wellFormed = false := by decide
theorem test_wf_symData_plain : (Instr.symData 0x61).wellFormed = true := by decide

/-- A transfer with a data spec and nothing else. -/
def withSpec (d : Half) : Transfer := { pri := 0, src := 0, dst := 0, dspec := d, tid := 0, payload := [] }

theorem test_wf_classResponse : (Instr.classResponse (withSpec 0x8005)).wellFormed = false := by decide
theorem test_wf_classRequest : (Instr.classRequest (withSpec 0xC005)).wellFormed = false := by decide
theorem test_wf_classMessage : (Instr.classMessage (withSpec 0x8000)).wellFormed = false := by decide
theorem test_admitted_length : (Instr.nodePublish 0 0 [1, 2, 3, 4]).admitted (Params.withMax 3) = false := by decide

/-! ### Decoding: words written out from R81, R76, R131 and R73 -/

theorem test_decode_crcReset : decode (.command 0x00 []) = .ok .crcReset := by decide
theorem test_decode_crcUpdate : decode (.command 0x01 [0x31]) = .ok (.crcUpdate 0x31) := by decide
theorem test_decode_crcValue : decode (.command 0x02 []) = .ok .crcValue := by decide
theorem test_decode_crcResidueOk : decode (.command 0x03 []) = .ok .crcResidueOk := by decide
theorem test_decode_parseReset : decode (.command 0x10 []) = .ok .parseReset := by decide
theorem test_decode_parseUpdate : decode (.command 0x11 [0x9E]) = .ok (.parseUpdate 0x9E) := by decide
theorem test_decode_encEncode :
    decode (.command 0x20 [7, 0xFF, 0xFF, 7, 0, 5, 0x80, 42, 0, 0, 0, 0, 0, 0, 0, 1, 2]) =
      .ok (.encEncode { pri := 7, src := 0xFFFF, dst := 7, dspec := 0x8005, tid := 42, payload := [1, 2] }) := by decide
theorem test_decode_nodePoll :
    decode (.command 0x30 [1, 2, 0, 0, 0, 0, 0, 0]) = .ok (.nodePoll 0x0201) := by decide
theorem test_decode_nodeSendRequest :
    decode (.command 0x31 [5, 0, 7, 0, 42, 0, 0, 0, 0, 0, 0, 0, 1, 2, 3]) =
      .ok (.nodeSendRequest 5 7 42 [1, 2, 3]) := by decide
theorem test_decode_nodeCancelRequest : decode (.command 0x32 []) = .ok .nodeCancelRequest := by decide
theorem test_decode_nodePublish :
    decode (.command 0x33 [100, 0, 1, 0, 0, 0, 0, 0, 0, 0]) = .ok (.nodePublish 100 1 []) := by decide
theorem test_decode_nodeSetId : decode (.command 0x34 [3, 0]) = .ok (.nodeSetId 3) := by decide
theorem test_decode_symDelim : decode (.wire 0x9E) = .ok .symDelim := by decide
theorem test_decode_symEsc : decode (.wire 0x8E) = .ok .symEsc := by decide
theorem test_decode_symData : decode (.wire 0x9F) = .ok (.symData 0x9F) := by decide
theorem test_decode_hdrVersion : decode (.offset 0 1) = .ok (.hdrVersion 1) := by decide
theorem test_decode_hdrPriority : decode (.offset 1 7) = .ok (.hdrPriority 7) := by decide
theorem test_decode_hdrSource : decode (.offset 3 0x12) = .ok (.hdrSource 1 0x12) := by decide
theorem test_decode_hdrDestination : decode (.offset 4 7) = .ok (.hdrDestination 0 7) := by decide
theorem test_decode_hdrDataSpec : decode (.offset 7 0x80) = .ok (.hdrDataSpec 1 0x80) := by decide
theorem test_decode_hdrReserved : decode (.offset 15 0xAA) = .ok (.hdrReserved 7 0xAA) := by decide
theorem test_decode_hdrTransferId : decode (.offset 16 42) = .ok (.hdrTransferId 0 42) := by decide
theorem test_decode_hdrEotMarker : decode (.offset 27 0x80) = .ok (.hdrEotMarker 3 0x80) := by decide
theorem test_decode_hdrCrc : decode (.offset 28 0x42) = .ok (.hdrCrc 0 0x42) := by decide
theorem test_decode_payloadStore : decode (.offset 32 1) = .ok (.payloadStore 0 1) := by decide
theorem test_decode_classResponse :
    decodeTableWord 16 0xC005 = some (.classResponse (withSpec 0xC005)) := by decide
theorem test_decode_classRequest :
    decodeTableWord 16 0x8005 = some (.classRequest (withSpec 0x8005)) := by decide
theorem test_decode_classMessage :
    decodeTableWord 16 0x4005 = some (.classMessage (withSpec 0x4005)) := by decide
/-- R83: the first and the last reserved code of each gap. -/
theorem test_decode_reserved :
    [0x04#8, 0x0F, 0x12, 0x1F, 0x21, 0x2F, 0x35, 0xFF].all (fun c => (opcodeOf c).isNone) = true := by decide
/-- D18: a service id of more than 14 bits is not representable. -/
theorem test_decode_wide_service :
    decode (.command 0x31 [0, 0x40, 7, 0, 42, 0, 0, 0, 0, 0, 0, 0]) = .error (.badOperands .nodeSendRequest) := by decide
theorem test_fetchWord_runs : ∃ t, step (State.reset.withFetchWord 8 0x00) = .next t ∧ t.u = 0xFFFFFFFF :=
  ⟨_, rfl, rfl⟩

/-- Header byte 1, selected and run. -/
theorem test_fetchWord_offset : ∃ t, step (State.reset.withFetchWord 24 0x050001) = .next t ∧ t.p.pri = 5 :=
  ⟨_, rfl, rfl⟩

/-! ### One step of each instruction -/

/-- What a field of the next state is, none where the instruction stops. -/
def after {α : Type} (o : Host.Outcome State Fault Refusal) (f : State → α) : Option α :=
  match o with
  | .next s => some (f s)
  | .fault _ => none
  | .refused _ => none

/-- The state after reset with another `U.reg`. -/
def withReg (r : Word) : State := { State.reset with u := r }

/-- The state after reset but inside a frame. -/
def inFrame (unesc : Bool) (offset : Nat) (crc : Word) (buf : Memory) : State :=
  { State.reset with
    p := { Parser.reset with inside := true, unesc := unesc, offset := offset, crc := crc, buf := buf } }

/-- The sequencer triple of R37. -/
def triple (s : State) : Bool × Bool × Nat := (s.p.inside, s.p.unesc, s.p.offset)

/-- A node with an identity and the pending record of V-N4, server 7, service 5, transfer id 42. -/
def node (id : Half) (pending : Bool) : State :=
  { State.reset with
    n := { Node.reset with localId := id, pendValid := pending, pendServer := 7, pendService := 5, pendTid := 42 } }

/-- V-CRC-2, first row. -/
theorem test_crcReset : after (exec .crcReset (withReg 0x1CF96D7C)) (·.u) = some 0xFFFFFFFF := by decide
/-- V-CRC-1. -/
theorem test_crcUpdate : after (exec (.crcUpdate 0x31) (withReg 0xFFFFFFFF)) (·.u) = some 0x6F0A661C := by decide
theorem test_crcUpdate_ones : after (exec (.crcUpdate 0xFF) (withReg 0xFFFFFFFF)) (·.u) = some 0x00FFFFFF := by decide
/-- V-CRC-2, last row. -/
theorem test_crcValue : after (exec .crcValue (withReg 0x1CF96D7C)) (·.result) = some (.word 0xE3069283) := by decide
/-- V-CRC-3. -/
theorem test_crcResidueOk : after (exec .crcResidueOk (withReg 0xB798B438)) (·.result) = some (.bit true) := by decide +kernel
theorem test_crcResidueOk_fresh : after (exec .crcResidueOk State.reset) (·.result) = some (.bit false) := by decide +kernel
/-- R123. -/
theorem test_parseReset :
    after (exec .parseReset (inFrame true 17 0 [(0, 1)])) (fun s => (triple s, s.p.crc, s.p.buf)) =
      some ((false, false, 0), 0xFFFFFFFF, [(0, 1)]) := by decide
/-- R124, both examples. -/
theorem test_parseUpdate : after (exec (.parseUpdate 0x9E) State.reset) triple = some (true, false, 0) := by decide
theorem test_parseUpdate_outside :
    after (exec (.parseUpdate 0x8E) State.reset) (fun s => (s.p, s.result)) =
      some (Parser.reset, .transfer none) := by decide
/-- V-E7: the sink refuses offer 5. -/
theorem test_encEncode_refused :
    after (exec (.encEncode { pri := 7, src := 0xFFFF, dst := 7, dspec := 0x8005, tid := 42, payload := [1, 2, 3] })
        { State.reset with env := { Env.empty with tx := [true, true, true, true, false] } })
      (fun s => (s.result, s.trace.reverse)) =
      some (.bit false, [.offer 0x9E true, .offer 0x00 true, .offer 0x07 true, .offer 0xFF true, .offer 0xFF false]) := by
  decide
/-- V-N15: a budget of 6. -/
theorem test_nodePoll_budget :
    after (exec (.nodePoll 0)
        { State.reset with
          cfg := { Params.default with pollBudget := 6 }
          env := { Env.empty with rx := [some 0x9E, some 0, some 7, some 0xFF, some 0xFF, some 7, some 0] } })
      (fun s => (triple s, s.env.rx)) = some ((true, false, 5), [some 0]) := by decide
/-- V-N3. -/
theorem test_nodeSendRequest_anonymous :
    after (exec (.nodeSendRequest 5 7 42 [1, 2, 3]) State.reset) (fun s => (s.result, s.trace, s.n.pendValid)) =
      some (.bit false, [], false) := by decide
/-- V-N16, with a sink that refuses offer 10: the record stays. -/
theorem test_nodeSendRequest_refused :
    after (exec (.nodeSendRequest 6 9 100 [])
        { node 3 true with env := { Env.empty with tx := List.replicate 9 true ++ [false] } })
      (fun s => (s.result, s.trace.length, s.pending)) = some (.bit false, 10, (true, 7, 5, 42)) := by decide
/-- V-N11. -/
theorem test_nodeCancelRequest :
    after (exec .nodeCancelRequest (node 3 true)) (·.pending) = some (false, 7, 5, 42) := by decide
/-- V-N3. -/
theorem test_nodePublish_anonymous :
    after (exec (.nodePublish 100 1 []) State.reset) (fun s => (s.result, s.trace)) = some (.bit false, []) := by decide
/-- V-N12, cut at the data spec by a sink that refuses offer 9. -/
theorem test_nodePublish_spec :
    after (exec (.nodePublish 0x7FFF 1 [])
        { node 3 true with env := { Env.empty with tx := List.replicate 8 true ++ [false] } })
      (fun s => s.trace.head?) = some (some (.offer 0x7F false)) := by decide
/-- V-N2. -/
theorem test_nodeSetId : after (exec (.nodeSetId 3) State.reset) (·.n) =
    some { Node.reset with localId := 3 } := by decide
/-- V-P14: at offset 35 nothing is emitted. -/
theorem test_symDelim_short :
    after (exec .symDelim (inFrame false 35 0xB798B438 [])) (fun s => (triple s, s.result)) =
      some ((true, false, 0), .transfer none) := by decide
/-- V-P8, second case, cut to a payload of one byte: a pending escape does not prevent the emit. -/
theorem test_symDelim_emits :
    after (exec .symDelim (inFrame true 37 0xB798B438 [(0, 0xAA)])) (·.result) =
      some (.transfer (some
        { pri := 7, src := 0xFFFF, dst := 0xFFFF, dspec := 0, tid := 0, payload := [0xAA] })) := by decide +kernel
/-- R128. -/
theorem test_symEsc : after (exec .symEsc (inFrame false 33 1 [])) (fun s => (triple s, s.p.crc)) =
    some ((true, true, 33), 1) := by decide
theorem test_symEsc_double : after (exec .symEsc (inFrame true 33 1 [])) triple = some (false, false, 0) := by decide
/-- R129. -/
theorem test_symData :
    after (exec (.symData 0x61) (inFrame true 32 0xFFFFFFFF [])) (fun s => (triple s, s.p.buf)) =
      some ((true, false, 33), [(0, 0x9E)]) := by decide
/-- V-P1, wire index 1. -/
theorem test_symData_version :
    after (exec (.symData 0x00) (inFrame false 0 0xFFFFFFFF [])) (fun s => (triple s, s.p.crc)) =
      some ((true, false, 1), 0xAD82ACAE) := by decide
/-- R132. -/
theorem test_hdrVersion : after (exec (.hdrVersion 1) (inFrame false 0 0 [])) triple = some (false, false, 0) := by
  decide
/-- R133. -/
theorem test_hdrPriority : after (exec (.hdrPriority 0xFF) State.reset) (·.p.pri) = some 255 := by decide
/-- R134, its second byte. -/
theorem test_hdrSource : after (exec (.hdrSource 1 0x12) State.reset) (·.p.src) = some 0x12FF := by decide
/-- R135, its first byte. -/
theorem test_hdrDestination : after (exec (.hdrDestination 0 7) State.reset) (·.p.dst) = some 0xFF07 := by decide
/-- R136, its second byte. -/
theorem test_hdrDataSpec : after (exec (.hdrDataSpec 1 0x80) State.reset) (·.p.dspec) = some 0x8000 := by decide
/-- R137. -/
theorem test_hdrReserved : after (exec (.hdrReserved 0 0xAA) State.reset) id = some State.reset := by decide
/-- R138, the last byte of its second example. -/
theorem test_hdrTransferId :
    after (exec (.hdrTransferId 7 0x01) State.reset) (·.p.tid) = some 0x0100000000000000 := by decide
/-- V-P4a and V-P1, wire index 28. -/
theorem test_hdrEotMarker_wrong :
    after (exec (.hdrEotMarker 3 0) (inFrame false 27 0 [])) triple = some (false, false, 0) := by decide
theorem test_hdrEotMarker_right :
    after (exec (.hdrEotMarker 3 0x80) (inFrame false 27 0 [])) triple = some (true, false, 27) := by decide
/-- V-P1, wire index 32, and V-P5. -/
theorem test_hdrCrc_right :
    after (exec (.hdrCrc 3 0xDF) (inFrame false 31 0xB798B438 [])) (fun s => (triple s, s.p.crc)) =
      some ((true, false, 31), 0xFFFFFFFF) := by decide +kernel
theorem test_hdrCrc_wrong :
    after (exec (.hdrCrc 3 0xDF) (inFrame false 31 0xB798B439 [])) triple = some (false, false, 0) := by decide +kernel
/-- V-P10: with a maximum payload of 3 the buffer holds 7 bytes. -/
theorem test_payloadStore_full :
    after (exec (.payloadStore 7 0x29) { inFrame false 39 0 [] with cfg := Params.withMax 3 }) triple =
      some (false, false, 0) := by decide
theorem test_payloadStore_last :
    after (exec (.payloadStore 6 0x30) { inFrame false 38 0 [] with cfg := Params.withMax 3 }) (·.p.buf) =
      some [(6, 0x30)] := by decide

/-- The response of R186. -/
def response (tid : Tid) : Transfer :=
  { pri := 7, src := 7, dst := 3, dspec := 0xC005, tid := tid, payload := [0xAA, 0xBB] }

/-- R186. -/
theorem test_classResponse :
    after (exec (.classResponse (response 42)) (node 3 true)) (fun s => (s.trace, s.pending)) =
      some ([.processResponse [0xAA, 0xBB]], (false, 7, 5, 42)) := by decide
/-- V-N10, case d. -/
theorem test_classResponse_other_tid :
    after (exec (.classResponse (response 43)) (node 3 true)) (fun s => (s.trace, s.pending)) =
      some ([], (true, 7, 5, 42)) := by decide

/-- The transfer of V-S8. -/
def transferA : Transfer :=
  { pri := 7, src := 0xFFFF, dst := 7, dspec := 0x8005, tid := 42, payload := [1, 2, 3] }

/-- V-N14: the reactor declines. -/
theorem test_classRequest_declined :
    after (exec (.classRequest transferA) (node 7 false)) (·.trace) =
      some [.processRequest 5 0xFFFF [1, 2, 3]] := by decide
/-- V-N5, cut after the source by a sink that refuses offer 5: the response comes from node 7 with the priority of the
request. -/
theorem test_classRequest_served :
    after (exec (.classRequest transferA)
        { node 7 false with
          env := { Env.empty with
            tx := [true, true, true, true, false]
            onRequest := [.returned [(0, 0xAA), (1, 0xBB)] (some 2)] } })
      (fun s => (s.n.respBuf, s.trace.take 3)) =
      some ([(0, 0xAA), (1, 0xBB)], [.offer 0x00 false, .offer 0x07 true, .offer 0x07 true]) := by decide
/-- V-N13. -/
theorem test_classMessage :
    after (exec (.classMessage (withSpec 0x4005)) (node 7 false)) (fun s => (s.n, s.trace)) =
      some ((node 7 false).n, []) := by decide

/-! ### Witnesses: for each statement with hypotheses, a state and operands that meet them -/

/-- The parser once it has received the 37 logical bytes of frame B of V-P12, its closing delimiter still to come, with a
view of one byte in its window. -/
def midFrame (env : Env) : State :=
  { State.reset with
    p :=
      { inside := true
        unesc := false
        offset := 37
        crc := 0xB798B438
        pri := 0
        src := 3
        dst := 7
        dspec := 0x8001
        tid := 43
        buf := [(0, 0xAA), (1, 0xCF), (2, 0xCE), (3, 0xD4), (4, 0x9B)] }
    view := some { serial := 0, len := 1, age := 1 }
    frame := [0x00, 0x00, 0x03, 0x00, 0x07, 0x00, 0x01, 0x80] ++ List.replicate 8 0x00 ++ [0x2B]
      ++ List.replicate 7 0x00 ++ [0x00, 0x00, 0x00, 0x80, 0xAC, 0x93, 0xF6, 0x00, 0xAA, 0xCF, 0xCE, 0xD4, 0x9B]
    env := env }

/-- For StepKeepsInvariant, ParserFollowsTransitionTable and OnlyDelimitersYieldTransfers among others. -/
theorem test_witness_invariant (env : Env) : (midFrame env).Inv where
  outside_clear h := by cases h
  offset_bound := by show 37 ≤ 52; decide
  buf_within := rfl
  resp_within := rfl
  region_written _ i h := by
    have h : i < 5 := by have : i + 32 < 37 := h; omega
    rcases i with _ | _ | _ | _ | _ | i <;> first | rfl | omega
  view_written v h _ := by
    cases h
    refine ⟨by show 1 ≤ 16; decide, fun i h => ?_⟩
    obtain rfl : i = 0 := by have h : i < 1 := h; omega
    rfl

/-- An environment that presents one delimiter to `PARSE.UPDATE` and whose reactor answers at the bounds of R241. -/
def lawfulEnv : Env :=
  { Env.empty with
    host := [.op (.command 0x11 [0x9E])]
    rx := [some 0x9E]
    onResponse := [.returned]
    onRequest := [.returned [(15, 1)] (some 16), .returned [] none] }

/-- The same state has received exactly these bytes: StepKeepsFrameChecked (it presents its delimiter) and
EmittedTransferIsOfItsFrame. -/
theorem test_witness_FrameChecked : (midFrame lawfulEnv).FrameChecked where
  length := rfl
  held o h := by
    have h : o < 37 := h
    iterate 37 (rcases o with _ | o; · trivial)
    omega
  crc := by
    show (0xB798B438 : Word) = crcRun Config.castagnoli Config.crcInit [0xAA, 0xCF, 0xCE, 0xD4, 0x9B]
    decide +kernel
  residue _ := by
    show residueCorrect Params.default
      (crcRun Config.castagnoli Config.crcInit ((midFrame lawfulEnv).frame.take 32)) = true
    decide +kernel
/-- V-P12, its second transfer. -/
theorem test_witness_EmittedTransferIsOfItsFrame :
    after (exec .symDelim (midFrame lawfulEnv)) (·.result) = some (.transfer (some
      { pri := 0, src := 3, dst := 7, dspec := 0x8001, tid := 43, payload := [0xAA] })) := by decide +kernel
theorem test_witness_AdmittedStepNeverStops_and_PollCompletes :
    (midFrame lawfulEnv).Inv ∧ (midFrame lawfulEnv).reactorLegal = true ∧ (midFrame lawfulEnv).admits = true :=
  ⟨test_witness_invariant _, by decide, by decide⟩
theorem test_witness_StepKeepsInvariant : after (step (midFrame lawfulEnv)) (·.p.inside) = some true := by decide +kernel
theorem test_witness_StepRunsTheDecodedInstruction :
    (midFrame lawfulEnv).env.host = [.op (.command 0x11 [0x9E])] ∧
      decode (.command 0x11 [0x9E]) = .ok (.parseUpdate 0x9E) ∧ (Instr.parseUpdate 0x9E).wellFormed = true ∧
      (∀ o e, Encoded.command 0x11 [0x9E] ≠ .offset o e) ∧ (midFrame Env.empty).env.host = [] :=
  ⟨rfl, by decide, by decide, nofun, rfl⟩
/-- Header byte 1 presented on its own, at its offset and at another. -/
theorem test_witness_StepRunsTheSelectedOffset :
    after (step ((inFrame false 1 0 []).present (.offset 1 5))) (fun s => (triple s, s.p.pri)) =
        some ((true, false, 2), 5) ∧
      step ((inFrame false 2 0 []).present (.offset 1 5)) = .refused .offsetNotSelected := ⟨by decide, rfl⟩
theorem test_witness_StepRefusesSimultaneous :
    step { State.reset with env := { Env.empty with host := [.simultaneous (.wire 0x9E) (.command 0x00 [])] } } =
      .refused .concurrentOperations := rfl
theorem test_witness_HardwareResetValues :
    (midFrame { Env.empty with host := [.hardwareReset, .hardwareReset] }).env.host =
      .hardwareReset :: [.hardwareReset] := rfl

/-- A running block whose register is the run over two bytes given before, and instructions from there. -/
theorem test_witness_CrcRegisterIsRunSinceReset :
    (withReg (crcRun Config.castagnoli Config.crcInit [0x31, 0x32])).u =
        crcRun State.reset.cfg.crcPoly Config.crcInit [0x31, 0x32] ∧
      after (execAll [.crcUpdate 1, .nodePoll 0, .crcReset, .crcUpdate 0x31]
        (withReg (crcRun Config.castagnoli Config.crcInit [0x31, 0x32]))) (·.u) = some 0x6F0A661C := by decide +kernel
theorem test_witness_ResidueHoldsExactlyForCodewords :
    Params.default.legal = true ∧ 4 ≤ (codeword Config.castagnoli []).length ∧
      31 < 8 * (codeword Config.castagnoli []).length := by decide +kernel

/-- The three clauses: an empty payload, one byte of payload, an offset that is one too small, an unwritten byte. -/
theorem test_witness_DelimiterEmitsAndReopens :
    (inFrame false 36 0xB798B438 []).payloadView 0 = some [] ∧ 0xB798B438#32 = residueOf Params.default.crcPoly ∧
      (inFrame false 37 0xB798B438 [(0, 1)]).payloadView 1 = some [1] ∧ ¬36 ≤ (inFrame false 35 0 []).p.offset ∧
      (inFrame false 37 0xB798B438 []).payloadView 1 = none := by decide +kernel
/-- The last clause: the largest offset, 32 + BUF_CAP = 52, where the frame overflows, and the one before. -/
theorem test_witness_DataSymbolRunsItsOffset :
    (inFrame false 0 0 []).p.inside = true ∧ (inFrame false 52 0 []).p.offset = 32 + Params.default.bufCap ∧
      after (exec (.symData 1) (inFrame false 51 0 [])) triple = some (true, false, 52) ∧
      after (exec (.symData 1) (inFrame false 52 0 [])) triple = some (false, false, 0) := by decide
/-- R9: with a maximum payload of 16 the largest offset is 52, which takes 6 bits; with 28 it is 64, which takes 7. -/
theorem test_offW : Params.default.offW = 6 ∧ (Params.withMax 27).offW = 6 ∧ (Params.withMax 28).offW = 7 := by decide
theorem test_witness_DataSymbolFrame :
    State.reset.p.inside = false ∧ (inFrame false 31 0 []).p.offset < 32 ∧ 1 ≠ (inFrame false 32 0 []).p.offset - 32 := by
  decide
theorem test_witness_HeaderChecksPassOrAbandon : (0 : Fin 4) ≠ 3 := by decide
theorem test_witness_PayloadByteStoredOrOverflow :
    19 < State.reset.cfg.maxPayload + 4 ∧ State.reset.cfg.maxPayload + 4 ≤ 20 ∧
      ∃ t, exec (.payloadStore 19 1) State.reset = .next t := ⟨by decide, by decide, _, rfl⟩

/-- The parser right after an opening delimiter. -/
def frameStart : State := inFrame false 0 0xFFFFFFFF []

theorem test_witness_ParserRefinesFrameFunction :
    frameStart.atFrameStart = true ∧ 0x9E#8 ∉ [0x8E#8, 0x00, 0x07] := by decide
theorem test_witness_HeaderRejectionNeverYields :
    unescape (List.replicate 28 0x01) = some (List.replicate 28 0x01) ∧
      (List.replicate 28 0x01#8).take 1 ≠ [0x00] ∧
      unescape (List.replicate 28 0x00) = some (List.replicate 28 0x00) ∧
      ((List.replicate 28 0x00#8).drop 24).take 4 ≠ [0x00, 0x00, 0x00, 0x80] := by decide
theorem test_witness_PayloadViewHoldsForItsWindow :
    (after (exec (.parseUpdate 0x9E) (inFrame false 37 0xB798B438 [(0, 0xAA)])) fun s =>
      match s.result with
      | .transfer t => t.isSome
      | _ => false) = some true := by decide +kernel

/-- A transfer with a payload of the given length. -/
def sized (n : Nat) : Transfer := { withSpec 0x4001 with payload := List.replicate n 0x55 }

/-- The longest admitted payload and the shortest that is not: FrameRoundTrip, EncodeOffersTheFrame,
EncodedFrameIsValid, LongPayloadIsRefused. -/
theorem test_witness_lengths :
    (sized 16).payload.length ≤ State.reset.cfg.maxPayload ∧ State.reset.cfg.maxPayload < (sized 17).payload.length := by
  decide
theorem test_witness_AcceptedFrameOfferCount : allAccepted (frameOffers (sized 16) State.reset) = true := by
  decide +kernel

/-- The identified node of V-N4 with a sink that refuses its second offer. -/
def refusing : State := { node 3 false with env := { Env.empty with tx := [true, false] } }

/-- Anonymous; identified and accepted; identified and refused. The same states serve PublishOffersTheMessage. -/
theorem test_witness_SendRequestRecordsOnSuccess :
    State.reset.n.localId = 0xFFFF ∧ (node 3 false).n.localId ≠ 0xFFFF ∧
      allAccepted (frameOffers (sized 16) (node 3 false)) = true ∧
      allAccepted (frameOffers (sized 16) refusing) = false := by decide +kernel

/-- The node of V-N4 with a reactor that calls back. -/
def reentrant : State := { node 3 true with env := { Env.empty with onResponse := [.reentered], onRequest := [.reentered] } }

theorem test_witness_ResponseDeliveredOrDropped :
    (node 3 true).responseMatches (response 42) = true ∧ (node 3 true).responseMatches (response 43) = false ∧
      (node 3 true).env.onResponse.head? ≠ some .reentered ∧
      reentrant.responseMatches (response 42) = true ∧ reentrant.env.onResponse.head? = some .reentered := by decide
theorem test_witness_RequestServedOrDropped :
    (node 7 false).n.localId ≠ 0xFFFF ∧ transferA.dst = (node 7 false).n.localId ∧
      transferA.dst ≠ (node 3 false).n.localId ∧
      answerLegal Params.default [(15, 1)] (some 16) = true ∧ answerLegal Params.default [(15, 1)] none = true := by
  decide
/-- Node 7 with a reactor that gives this answer. -/
def answering (a : RequestAnswer) : State := { node 7 false with env := { Env.empty with onRequest := [a] } }

/-- A write at `RESP_CAP`, a length of `RESP_CAP + 1`, and a call back, each at the head of the list. -/
theorem test_witness_ReactorOutsideContractIsRefused :
    (answering (.returned [(16, 1)] none)).n.localId ≠ 0xFFFF ∧
      transferA.dst = (answering (.returned [(16, 1)] none)).n.localId ∧
      (answering (.returned [(16, 1)] none)).env.onRequest.head? = some (.returned [(16, 1)] none) ∧
      (∃ w ∈ [((16, 1) : Host.Cell)], (answering (.returned [(16, 1)] none)).cfg.respCap ≤ w.1) ∧
      (answering (.returned [] (some 17))).env.onRequest.head? = some (.returned [] (some 17)) ∧
      (answering (.returned [] (some 17))).cfg.respCap < 17 ∧
      reentrant.n.localId ≠ 0xFFFF ∧ (response 42).dst = reentrant.n.localId ∧
      reentrant.env.onRequest.head? = some .reentered := by decide
/-- A response of `RESP_CAP` bytes. -/
theorem test_witness_ResponseBufferHoldsWhatWasWritten :
    (answering (.returned ((List.replicate 16 0x55#8).zipIdx.map fun x => (x.2, x.1)) (some 16))).env.onRequest =
        .returned ((List.replicate 16 0x55#8).zipIdx.map fun x => (x.2, x.1)) (some (List.replicate 16 0x55#8).length)
          :: [] ∧
      (List.replicate 16 0x55#8).length ≤ Params.default.respCap ∧
      (List.replicate 16 0x55#8).length ≤ Params.default.maxPayload ∧ transferA.dst = (answering .reentered).n.localId ∧
      (answering .reentered).n.localId ≠ 0xFFFF := by decide
theorem test_witness_PollTakesAtMostItsBudget :
    (∃ t, exec (.nodePoll 0) State.reset = .next t) ∧ State.reset.cfg.pollBudget ≠ 0 ∧ State.reset.env.rx = [] :=
  ⟨⟨_, rfl⟩, by decide, rfl⟩
theorem test_witness_PollSplitsAnywhere :
    (∀ k, k < 1 → ∃ x, (midFrame lawfulEnv).env.rx[k]? = some (some x)) ∧
      ∃ t, exec (.nodePoll 0) ((inFrame false 0 0 []).withBudget (1 + 2)) = .next t := by
  refine ⟨fun k h => ?_, _, rfl⟩
  obtain rfl : k = 0 := by omega
  exact ⟨0x9E, rfl⟩

/-- A successful request from the idle node 3: the transition of R201, and with it the premises of R205. -/
theorem test_witness_RequestResponseCorrelation :
    after (exec (.nodeSendRequest 5 7 42 [1]) (node 3 false)) (·.result) = some (.bit true) ∧
      after (exec (.nodeSendRequest 5 7 42 [1]) (node 3 false)) (·.n.localId) = some 3 ∧
      (response 42).dspec.setWidth 14 = 5#14 ∧ (response 42).src = 7 ∧ (response 42).dst = 3 := by decide +kernel
theorem test_witness_PendingRecordTransitions :
    ∃ t, exec .nodeCancelRequest (node 3 true) = .next t ∧ t.n.pendValid = false := ⟨_, rfl, rfl⟩
theorem test_witness_AnonymousNodeDoesNothing :
    State.reset.n.localId = 0xFFFF ∧ ([] : List Byte).length ≤ State.reset.cfg.maxPayload := by decide
theorem test_witness_RegistersKeepTheirWriters :
    ∃ t, exec (.nodeSetId 3) State.reset = .next t ∧ t.n.localId ≠ State.reset.n.localId := ⟨_, rfl, by decide⟩
theorem test_witness_EncodeOfDecode : ∃ i, decode (.offset 31 0xDF) = .ok i := ⟨_, rfl⟩
theorem test_witness_ReservedCommandsAreRefused :
    decode (.command 0x35 [1]) = .error (.reservedCommand 0x35) := by decide

end Sys2Proof.Tests
end

section
/-! PROOFS of the family 10_state: what a routed byte, a symbol, an instruction and a step can do, each said once; and
from that the invariants of 10_state.md R43, the writers of the registers, the response buffer and the hardware
reset. -/

namespace Sys2Proof.Machine

/-! ### The rules a DATA symbol selects -/

/-- The offset of the frame that selects a rule (R131, R141). -/
def OffsetRule.offset : OffsetRule → Nat
  | .version => 0
  | .priority => 1
  | .source k => 2 + k
  | .destination k => 4 + k
  | .dataSpec k => 6 + k
  | .reserved k => 8 + k
  | .transferId k => 16 + k
  | .eotMarker k => 24 + k
  | .headerCrc k => 28 + k
  | .payload i => Config.headerSize + i

@[simp] theorem offset_offsetRule (o : Nat) : (offsetRule o).offset = o := by
  unfold offsetRule
  split_ifs <;> simp only [OffsetRule.offset, Config.headerSize] <;> omega

@[simp] theorem offsetRule_offset (r : OffsetRule) : offsetRule r.offset = r := by
  cases r with
  | version | priority => rfl
  | source k | destination k | dataSpec k => fin_cases k <;> rfl
  | reserved k | transferId k | eotMarker k | headerCrc k => fin_cases k <;> rfl
  | payload i => simp [OffsetRule.offset, offsetRule_payload, Config.headerSize]

theorem offsetRule_eq_iff {o : Nat} {r : OffsetRule} : offsetRule o = r ↔ o = r.offset :=
  ⟨fun h => by rw [← h, offset_offsetRule], fun h => by rw [h, offsetRule_offset]⟩

/-- Writing a lane keeps every other lane. -/
theorem lane_setLane_other {w n : Nat} {k j : Fin n} {v : BitVec w} {e : Byte} (h : j ≠ k) (hn : 8 * n ≤ w) :
    lane (setLane v k e) j = lane v j :=
  (lane_setLane v k j e (by omega)).trans (if_neg (Fin.val_ne_of_ne h))

theorem bufRead_bufWrite_other {s : State} {i a : Nat} {e : Byte} (h : a ≠ i) :
    (s.bufWrite i e).bufRead a = s.bufRead a := (bufRead_bufWrite s i a e).trans (if_neg h)

/-- What the rule of a byte does where it does not abandon the frame (R132 to R141). -/
inductive Routed (e : Byte) (s : State) : OffsetRule → State → Prop where
  | version : e = Config.frameVersion → Routed e s .version s
  | priority : Routed e s .priority { s with p := { s.p with pri := e } }
  | source (k : Fin 2) : Routed e s (.source k) { s with p := { s.p with src := setLane s.p.src k e } }
  | destination (k : Fin 2) : Routed e s (.destination k) { s with p := { s.p with dst := setLane s.p.dst k e } }
  | dataSpec (k : Fin 2) : Routed e s (.dataSpec k) { s with p := { s.p with dspec := setLane s.p.dspec k e } }
  | reserved (k : Fin 8) : Routed e s (.reserved k) s
  | transferId (k : Fin 8) : Routed e s (.transferId k) { s with p := { s.p with tid := setLane s.p.tid k e } }
  | eotMarker (k : Fin 4) : e = eotByte k → Routed e s (.eotMarker k) s
  | headerCrcPart (k : Fin 4) : k ≠ 3 → Routed e s (.headerCrc k) s
  | headerCrcLast : residueCorrect s.cfg s.p.crc = true →
      Routed e s (.headerCrc 3) { s with p := { s.p with crc := Config.crcInit } }
  | payload (i : Nat) : i < s.cfg.bufCap → Routed e s (.payload i) (s.bufWrite i e)

/-- A routed byte abandons the frame, or its rule has stored or checked it. -/
theorem routeByte_routed (o : Nat) (e : Byte) (s : State) :
    (∃ c, routeByte o e s = abandon c s) ∨ Routed e s (offsetRule o) (routeByte o e s) := by
  unfold routeByte
  cases offsetRule o with
  | version => dsimp only [decodeVersion]; split; exacts [.inr (.version ‹_›), .inl ⟨_, rfl⟩]
  | priority => exact .inr .priority
  | source k => exact .inr (.source k)
  | destination k => exact .inr (.destination k)
  | dataSpec k => exact .inr (.dataSpec k)
  | reserved k => exact .inr (.reserved k)
  | transferId k => exact .inr (.transferId k)
  | eotMarker k => dsimp only [decodeEotMarker]; split; exacts [.inr (.eotMarker k ‹_›), .inl ⟨_, rfl⟩]
  | headerCrc k =>
    dsimp only [decodeHeaderCrc]
    split
    · subst k
      split; exacts [.inr (.headerCrcLast ‹_›), .inl ⟨_, rfl⟩]
    · exact .inr (.headerCrcPart k ‹_›)
  | payload i => dsimp only [storePayload]; split; exacts [.inr (.payload i ‹_›), .inl ⟨_, rfl⟩]

section
variable {e : Byte} {s s' : State} {r : OffsetRule}

/-- A stored or checked byte keeps what is not a register of the header, the CRC or the buffer. -/
theorem Routed.keeps (h : Routed e s r s') : s'.cfg = s.cfg ∧ s'.p.inside = s.p.inside ∧ s'.frame = s.frame ∧
    s'.view = s.view ∧ s'.n = s.n := by
  cases h <;> exact ⟨rfl, rfl, rfl, rfl, rfl⟩

/-- A byte is stored only where there is room for it. -/
theorem Routed.room (h : Routed e s r s') : r.offset < Config.headerSize + s.cfg.bufCap := by
  cases h with
  | payload i hi => exact Nat.add_lt_add_left hi _
  | _ => simp only [OffsetRule.offset, Config.headerSize]; omega

/-- The last header byte resets the register (R140); no other rule writes it. -/
theorem Routed.crc_eq (h : Routed e s r s') : s'.p.crc = if r.offset = 31 then Config.crcInit else s.p.crc := by
  cases h with
  | headerCrcLast => rfl
  | _ => exact (if_neg (by simp only [OffsetRule.offset, Config.headerSize]; omega)).symm

/-- The last header byte is past only where the residue is right (R140). -/
theorem Routed.residue (h : Routed e s r s') (hr : r.offset = 31) : residueCorrect s.cfg s.p.crc = true := by
  cases h with
  | headerCrcLast hres => exact hres
  | _ => simp only [OffsetRule.offset, Config.headerSize] at hr; omega

/-- A rule leaves its byte behind. -/
theorem Routed.holds (h : Routed e s r s') : s'.Holds r.offset e := by
  unfold State.Holds
  rw [offsetRule_offset]
  cases h with
  | version he => exact he
  | eotMarker k he => exact he
  | priority => rfl
  | reserved | headerCrcPart | headerCrcLast => trivial
  | source k | destination k | dataSpec k => exact (lane_setLane _ _ _ _ (by omega)).trans (if_pos rfl)
  | transferId k => exact (lane_setLane _ _ _ _ (by omega)).trans (if_pos rfl)
  | payload i hi => simp [bufRead_bufWrite, hi]

/-- A rule keeps what the rules of the other offsets left behind. -/
theorem Routed.holds_other (h : Routed e s r s') {o : Nat} {b : Byte} (ho : o ≠ r.offset) (hb : s.Holds o b) :
    s'.Holds o b := by
  have hne : offsetRule o ≠ r := fun h => ho (offsetRule_eq_iff.1 h)
  unfold State.Holds at hb ⊢
  cases h with
  | version | reserved | eotMarker | headerCrcPart | headerCrcLast => exact hb
  | priority => cases hr : offsetRule o with
    | priority => exact absurd hr hne
    | _ => rw [hr] at hb; exact hb
  | source k => cases hr : offsetRule o with
    | source j => rw [hr] at hb hne; exact (lane_setLane_other (by simpa using hne) (by decide)).trans hb
    | _ => rw [hr] at hb; exact hb
  | destination k => cases hr : offsetRule o with
    | destination j => rw [hr] at hb hne; exact (lane_setLane_other (by simpa using hne) (by decide)).trans hb
    | _ => rw [hr] at hb; exact hb
  | dataSpec k => cases hr : offsetRule o with
    | dataSpec j => rw [hr] at hb hne; exact (lane_setLane_other (by simpa using hne) (by decide)).trans hb
    | _ => rw [hr] at hb; exact hb
  | transferId k => cases hr : offsetRule o with
    | transferId j => rw [hr] at hb hne; exact (lane_setLane_other (by simpa using hne) (by decide)).trans hb
    | _ => rw [hr] at hb; exact hb
  | payload i => cases hr : offsetRule o with
    | payload j => rw [hr] at hb hne; exact (bufRead_bufWrite_other (by simpa using hne)).trans hb
    | _ => rw [hr] at hb; exact hb
end

/-! ### What a step runs -/

/-- The symbol instruction of a wire byte does what `PARSE.UPDATE` does with it (R76, R124). -/
theorem exec_decodeWire (b : Byte) (s : State) : exec (decodeWire b) s = execParseUpdate b s := by
  unfold decodeWire execParseUpdate parserStep
  cases symbolOf b <;> rfl

/-- The instructions a command code selects (R81). -/
inductive IsOperation : Instr → Prop where
  | crcReset : IsOperation .crcReset
  | crcUpdate (b : Byte) : IsOperation (.crcUpdate b)
  | crcValue : IsOperation .crcValue
  | crcResidueOk : IsOperation .crcResidueOk
  | parseReset : IsOperation .parseReset
  | parseUpdate (b : Byte) : IsOperation (.parseUpdate b)
  | encEncode (t : Transfer) : IsOperation (.encEncode t)
  | nodePoll (time : BitVec 64) : IsOperation (.nodePoll time)
  | nodeSendRequest (service : ServiceId) (server : Half) (tid : Tid) (payload : List Byte) :
      IsOperation (.nodeSendRequest service server tid payload)
  | nodeCancelRequest : IsOperation .nodeCancelRequest
  | nodePublish (subject : SubjectId) (tid : Tid) (payload : List Byte) :
      IsOperation (.nodePublish subject tid payload)
  | nodeSetId (id : Half) : IsOperation (.nodeSetId id)

theorem decodeBare_ok {op : Opcode} {i j : Instr} {operands : List Byte} (h : decodeBare op i operands = .ok j) :
    j = i := by
  unfold decodeBare at h
  split at h <;> cases h
  rfl

theorem decodeByteOperand_ok {op : Opcode} {f : Byte → Instr} {j : Instr} {operands : List Byte}
    (h : decodeByteOperand op f operands = .ok j) : ∃ b, j = f b := by
  unfold decodeByteOperand at h
  split at h <;> cases h
  exact ⟨_, rfl⟩

/-- Operand bytes that decode, decode to an operation. -/
theorem decodeOperands_isOperation {op : Opcode} {operands : List Byte} {i : Instr}
    (h : decodeOperands op operands = .ok i) : IsOperation i := by
  cases op with
  | crcReset => rw [decodeBare_ok h]; exact .crcReset
  | crcUpdate => obtain ⟨b, rfl⟩ := decodeByteOperand_ok h; exact .crcUpdate b
  | crcValue => rw [decodeBare_ok h]; exact .crcValue
  | crcResidueOk => rw [decodeBare_ok h]; exact .crcResidueOk
  | parseReset => rw [decodeBare_ok h]; exact .parseReset
  | parseUpdate => obtain ⟨b, rfl⟩ := decodeByteOperand_ok h; exact .parseUpdate b
  | encEncode => dsimp only [decodeOperands] at h; unfold decodeEncode at h; split at h <;> cases h; exact .encEncode _
  | nodePoll => dsimp only [decodeOperands] at h; unfold decodePoll at h; split at h <;> cases h; exact .nodePoll _
  | nodeSendRequest =>
    dsimp only [decodeOperands] at h; unfold decodeSendRequest at h
    split at h
    · split at h <;> cases h
      exact .nodeSendRequest _ _ _ _
    · cases h
  | nodeCancelRequest => rw [decodeBare_ok h]; exact .nodeCancelRequest
  | nodePublish =>
    dsimp only [decodeOperands] at h; unfold decodePublish at h
    split at h
    · split at h <;> cases h
      exact .nodePublish _ _ _
    · cases h
  | nodeSetId => dsimp only [decodeOperands] at h; unfold decodeSetId at h; split at h <;> cases h; exact .nodeSetId _

theorem decodeCommand_isOperation {code : Byte} {operands : List Byte} {i : Instr}
    (h : decodeCommand code operands = .ok i) : IsOperation i := by
  unfold decodeCommand at h
  split at h
  · exact decodeOperands_isOperation h
  · cases h

/-- Everything a step that completes can have done: nothing, the hardware reset, an operation, a parser symbol, a class,
or a selected offset rule with the rest of its DATA symbol. -/
theorem step_next {s t : State} (h : step s = .next t) :
    t = s ∨ ∃ rest,
      t = hardReset (s.taken rest) ∨
      (∃ i, IsOperation i ∧ exec i (s.taken rest) = .next t) ∨
      (∃ b, execParseUpdate b (s.taken rest) = .next t) ∨
      (∃ r, processTransfer r (s.taken rest) = .next t) ∨
      ∃ e, t = (dataSymbol e
        { s.taken rest with p := { (s.taken rest).p with unesc := false } }).answer (.transfer none) := by
  unfold step at h
  split at h
  · cases h; exact .inl rfl
  · cases h; exact .inr ⟨_, .inl rfl⟩
  · cases h
  · rename_i enc rest _
    refine .inr ⟨rest, .inr ?_⟩
    split at h
    · rename_i i hd
      rcases runDecoded_next hd h with ⟨hno, he⟩ | ⟨e, -, ht⟩
      · cases enc with
        | command code operands => exact .inl ⟨i, decodeCommand_isOperation hd, he⟩
        | wire b => cases hd; exact .inr (.inl ⟨b, exec_decodeWire b _ ▸ he⟩)
        | offset o e => exact absurd rfl (hno o e)
        | dataSpec r => cases hd; exact .inr (.inr (.inl ⟨r, exec_decodeTransfer r _ ▸ he⟩))
      · exact .inr (.inr (.inr ⟨e, ht⟩))
    · cases h

/-! ### What the operations change -/

/-- What an encoding that completes changes. -/
theorem execEncEncode_next {r : Transfer} {s t : State} (h : execEncEncode r s = .next t) :
    ∃ result env trace labels, t = { s with result := result, env := env, trace := trace, labels := labels } := by
  unfold execEncEncode at h
  split at h
  · simp only [encodeTransfer_eq] at h
    cases h
    obtain ⟨l, hl⟩ := noteSink_eq (allAccepted (frameOffers r s)) (s.afterOffers (frameOffers r s))
    rw [hl]; exact ⟨_, _, _, _, rfl⟩
  · cases h

/-- What a publication that completes changes. -/
theorem execNodePublish_next {subject : SubjectId} {tid : Tid} {payload : List Byte} {s t : State}
    (h : execNodePublish subject tid payload s = .next t) :
    ∃ result env trace labels, t = { s with result := result, env := env, trace := trace, labels := labels } := by
  unfold execNodePublish at h
  split at h
  · split at h
    · simp only [encodeTransfer_eq] at h
      cases h
      obtain ⟨l, hl⟩ := noteSink_eq (allAccepted (frameOffers (publishTransfer subject tid payload s) s))
        (s.afterOffers (frameOffers (publishTransfer subject tid payload s) s))
      rw [hl]; exact ⟨_, _, _, _, rfl⟩
    · cases h; exact ⟨_, _, _, _, rfl⟩
  · cases h

/-- What a request that completes changes: beside the call, only the pending record. -/
theorem execNodeSendRequest_next {service : ServiceId} {server : Half} {tid : Tid} {payload : List Byte} {s t : State}
    (h : execNodeSendRequest service server tid payload s = .next t) :
    ∃ pv ps pc pt result env trace labels, t = { s with
      n := { s.n with pendValid := pv, pendServer := ps, pendService := pc, pendTid := pt }
      result := result
      env := env
      trace := trace
      labels := labels } := by
  unfold execNodeSendRequest at h
  split at h
  · split at h
    · simp only [encodeTransfer_eq] at h
      split at h
      · cases h; exact ⟨_, _, _, _, _, _, _, _, rfl⟩
      · cases h; exact ⟨_, _, _, _, _, _, _, _, rfl⟩
    · cases h; exact ⟨_, _, _, _, _, _, _, _, rfl⟩
  · cases h

/-! ### Predicates on the parser that a step keeps -/

/-- A change outside the parser, its view and the ghost bytes of its frame, that keeps `N.resp_buf` inside its
capacity. -/
structure ParserUntouched (s t : State) : Prop where
  cfg : t.cfg = s.cfg
  p : t.p = s.p
  view : t.view = s.view
  frame : t.frame = s.frame
  resp : Memory.within s.cfg.respCap s.n.respBuf = true → Memory.within s.cfg.respCap t.n.respBuf = true

theorem ClassKeeps.parserUntouched {s t : State} (h : ClassKeeps s t) : ParserUntouched s t := by
  have hresp := h.buffer
  obtain ⟨pv, rb, tx, onResponse, onRequest, trace, labels, rfl⟩ := h.shape
  exact ⟨rfl, rfl, rfl, rfl, hresp⟩

/-- What a predicate has to be kept by so that every step keeps it. -/
structure KeptByUnits (P : State → Prop) : Prop where
  untouched : ∀ {s t}, P s → ParserUntouched s t → P t
  reset : ∀ {s}, P s → P (hardReset s)
  clear : ∀ {s}, P s → P (parserClear s)
  unescaped : ∀ {s}, P s → P { s with p := { s.p with unesc := false } }
  delim : ∀ {s r}, P s → delimSymbol s = .next r → P r.2
  esc : ∀ {s}, P s → P (escSymbol s)
  data : ∀ {s} b, P s → P (dataSymbol b s)

section
variable {P : State → Prop} (hP : KeptByUnits P) {s t : State}
include hP

theorem KeptByUnits.answer (r : Result) (h : P s) : P (s.answer r) :=
  hP.untouched h ⟨rfl, rfl, rfl, rfl, id⟩

theorem KeptByUnits.parserStep {b : Byte} {r : Option Transfer × State} (h : P s)
    (hr : parserStep b s = .next r) : P r.2 := by
  unfold Machine.parserStep at hr
  split at hr
  · exact hP.delim h hr
  · cases hr; exact hP.esc h
  · cases hr; exact hP.data b h

theorem KeptByUnits.parseUpdate {b : Byte} (h : P s) (ht : execParseUpdate b s = .next t) : P t := by
  obtain ⟨r, hr, hrt⟩ := andThen_eq_next.1 ht
  cases hrt
  exact hP.answer _ (hP.parserStep h hr)

theorem KeptByUnits.processTransfer {r : Transfer} (h : P s) (ht : processTransfer r s = .next t) : P t :=
  hP.untouched h (processTransfer_keeps ht).parserUntouched

theorem KeptByUnits.pollByte {b : Byte} (h : P s) (ht : pollByte b s = .next t) : P t := by
  obtain ⟨r, hr, hrt⟩ := andThen_eq_next.1 ht
  have h1 := hP.parserStep h hr
  split at hrt
  · exact hP.processTransfer h1 hrt
  · cases hrt; exact h1

theorem KeptByUnits.nodePoll {time : BitVec 64} (h : P s) (ht : execNodePoll time s = .next t) : P t := by
  obtain ⟨t1, h1, h2⟩ := andThen_eq_next.1 ht
  cases h2
  refine hP.answer _ (pollLoop_keeps (P := P) (fun s hs => ?_) (fun _ _ _ => hP.pollByte) _ s t1 h h1)
  rw [rxTake_eq]
  exact hP.untouched hs ⟨rfl, rfl, rfl, rfl, id⟩

theorem KeptByUnits.operation {i : Instr} (hi : IsOperation i) (h : P s) (ht : exec i s = .next t) : P t := by
  cases hi with
  | crcReset | crcUpdate | crcValue | crcResidueOk | nodeCancelRequest | nodeSetId =>
    cases ht; exact hP.untouched h ⟨rfl, rfl, rfl, rfl, id⟩
  | parseReset => cases ht; exact hP.answer _ (hP.clear h)
  | parseUpdate b => exact hP.parseUpdate h ht
  | encEncode r =>
    obtain ⟨result, env, trace, labels, rfl⟩ := execEncEncode_next ht
    exact hP.untouched h ⟨rfl, rfl, rfl, rfl, id⟩
  | nodePoll time => exact hP.nodePoll (time := time) h ht
  | nodeSendRequest service server tid payload =>
    obtain ⟨pv, ps, pc, pt, result, env, trace, labels, rfl⟩ := execNodeSendRequest_next ht
    exact hP.untouched h ⟨rfl, rfl, rfl, rfl, id⟩
  | nodePublish subject tid payload =>
    obtain ⟨result, env, trace, labels, rfl⟩ := execNodePublish_next ht
    exact hP.untouched h ⟨rfl, rfl, rfl, rfl, id⟩

/-- What the units keep, every step keeps. -/
theorem KeptByUnits.step (h : P s) (ht : step s = .next t) : P t := by
  rcases step_next ht with rfl | ⟨rest, hrest⟩
  · exact h
  have h1 : P (s.taken rest) := hP.untouched h ⟨rfl, rfl, rfl, rfl, id⟩
  rcases hrest with rfl | ⟨i, hi, he⟩ | ⟨b, he⟩ | ⟨r, he⟩ | ⟨e, rfl⟩
  · exact hP.reset h1
  · exact hP.operation hi h1 he
  · exact hP.parseUpdate h1 he
  · exact hP.processTransfer h1 he
  · exact hP.answer _ (hP.data e (hP.unescaped h1))

end

/-! ### The three symbols -/

/-- What a DATA symbol does: outside a frame its byte is dropped; inside, it abandons the frame, or its rule has stored
or checked the logical byte and the offset counts it (R129, R130). -/
theorem dataSymbol_cases (b : Byte) (s : State) :
    (s.p.inside = false ∧ dataSymbol b s = dropByte (ageView s)) ∨
    (∃ c e, dataSymbol b s = abandon c (absorb e (ageView s))) ∨
    ∃ e s1, s.p.inside = true ∧ Routed e (absorb e (ageView s)) (offsetRule s.p.offset) s1 ∧
      dataSymbol b s = { s1 with p := { s1.p with offset := s.p.offset + 1 } } := by
  unfold dataSymbol
  split
  · rename_i hin
    refine .inr ?_
    unfold dataRule
    simp only [ageView_p]
    generalize effectiveByte s.p.unesc b = e
    rcases routeByte_routed s.p.offset e (absorb e (ageView s)) with ⟨c, hc⟩ | hr
    · rw [hc]; exact .inl ⟨c, e, rfl⟩
    · generalize routeByte s.p.offset e (absorb e (ageView s)) = s1 at hr
      obtain ⟨hcfg, hin1, -⟩ := hr.keeps
      have hroom := hr.room
      rw [offset_offsetRule] at hroom
      refine .inr ⟨e, s1, hin, hr, ?_⟩
      rw [advance_eq, if_pos (hin1.trans hin), hcfg, nextOffset_eq hroom]
  · exact .inl ⟨Bool.eq_false_iff.2 ‹_›, rfl⟩

/-- What an ESC symbol does: outside a frame it is dropped; inside, it abandons the frame or leaves an escape pending
(R128, R130). -/
theorem escSymbol_cases (s : State) :
    (s.p.inside = false ∧ escSymbol s = dropByte (ageView s)) ∨
    escSymbol s = abandon .abDoubleEsc (ageView s) ∨
    (s.p.inside = true ∧ escSymbol s = { ageView s with p := { s.p with unesc := true } }) := by
  unfold escSymbol
  split
  · unfold escRule; split; exacts [.inr (.inl rfl), .inr (.inr ⟨‹_›, rfl⟩)]
  · exact .inl ⟨Bool.eq_false_iff.2 ‹_›, rfl⟩

/-- What a delimiter that completes leaves: the view is handed out where it emits, and the parser is reopened (R125). -/
theorem delimSymbol_next {s : State} {r : Option Transfer × State} (h : delimSymbol s = .next r) :
    (s.emitReady = true ∧ ∃ payload, s.payloadView s.emitLength = some payload ∧
      r = (some
        { pri := s.p.pri
          src := s.p.src
          dst := s.p.dst
          dspec := s.p.dspec
          tid := s.p.tid
          payload := payload }, reopen (handOutView payload.length (ageView s)))) ∨
    (s.emitReady = false ∧ ∃ l, r = (none, reopen { ageView s with labels := l })) := by
  rcases delimRule_next h with ⟨hready, payload, hpay, rfl⟩ | ⟨hready, rfl⟩
  · rw [payloadView_ageView] at hpay
    exact .inl ⟨hready, payload, hpay, rfl⟩
  · obtain ⟨l, hl⟩ := noteClose_eq (ageView s)
    exact .inr ⟨hready, l, by rw [hl]⟩

/-! ### R43 (i), (ii), (v): the invariant of the state -/

theorem bufRead_congr {s t : State} (hc : t.cfg = s.cfg) (hb : t.p.buf = s.p.buf) (i : Nat) :
    t.bufRead i = s.bufRead i := by
  unfold State.bufRead
  rw [hc, hb]

/-- A view still inside its window a step later was inside it before, so its bytes can be read. -/
theorem State.Inv.view_of_age {s : State} (h : s.Inv) : ∀ v, (ageView s).view = some v → v.age ≤ 1 →
    v.len ≤ s.cfg.maxPayload ∧ ∀ i, i < v.len → (s.bufRead i).isSome = true := by
  intro v hv hage
  rw [ageView_view, Option.map_eq_some_iff] at hv
  obtain ⟨w, hw, rfl⟩ := hv
  exact h.view_written w hw (Nat.le_of_succ_le hage)

theorem State.Inv.ageView {s : State} (h : s.Inv) : (ageView s).Inv :=
  ⟨h.outside_clear, h.offset_bound, h.buf_within, h.resp_within, h.region_written, h.view_of_age⟩

/-- A parser at the start of a frame, or cleared outside one, over the same buffer and views keeps the invariant. -/
theorem State.Inv.of_start {s t : State} (h : s.Inv) (hcfg : t.cfg = s.cfg) (hbuf : t.p.buf = s.p.buf)
    (hresp : t.n.respBuf = s.n.respBuf) (hunesc : t.p.unesc = false) (hoff : t.p.offset = 0)
    (hcrc : t.p.crc = Config.crcInit)
    (hview : ∀ v, t.view = some v → v.age ≤ 1 →
      v.len ≤ s.cfg.maxPayload ∧ ∀ i, i < v.len → (s.bufRead i).isSome = true) : t.Inv where
  outside_clear _ := ⟨hunesc, hoff, hcrc⟩
  offset_bound := by omega
  buf_within := by rw [hcfg, hbuf]; exact h.buf_within
  resp_within := by rw [hcfg, hresp]; exact h.resp_within
  region_written _ i hi := by omega
  view_written v hv hage := by
    simp only [bufRead_congr hcfg hbuf, hcfg]
    exact hview v hv hage

theorem State.Inv.parserClear {s : State} (h : s.Inv) : (parserClear s).Inv :=
  h.of_start rfl rfl rfl rfl rfl rfl h.view_written

theorem State.Inv.abandon {s : State} (c : Cause) (h : s.Inv) : (abandon c s).Inv :=
  h.of_start rfl rfl rfl rfl rfl rfl h.view_written

theorem State.Inv.untouched {s t : State} (h : s.Inv) (hst : ParserUntouched s t) : t.Inv := by
  obtain ⟨hcfg, hp, hview, -, hresp⟩ := hst
  have hread : ∀ i, t.bufRead i = s.bufRead i := bufRead_congr hcfg (by rw [hp])
  constructor
  · rw [hp]; exact h.outside_clear
  · rw [hp, hcfg]; exact h.offset_bound
  · rw [hp, hcfg]; exact h.buf_within
  · rw [hcfg]; exact hresp h.resp_within
  · simp only [hp, hread]; exact h.region_written
  · simp only [hview, hcfg, hread]; exact h.view_written

/-- A transfer that is emitted is no longer than a payload, and its bytes can be read. -/
theorem State.Inv.emitted_view {s : State} (h : s.Inv) {payload : List Byte}
    (hpay : s.payloadView s.emitLength = some payload) :
    payload.length ≤ s.cfg.maxPayload ∧ ∀ i, i < payload.length → (s.bufRead i).isSome = true := by
  obtain ⟨hlen, hread⟩ := bufSlice_eq_some.1 hpay
  refine ⟨?_, fun i hi => ?_⟩
  · have := h.offset_bound
    simp only [hlen, State.emitLength, Params.bufCap] at this ⊢
    omega
  · have := hread i (hlen ▸ hi)
    rw [Nat.zero_add] at this
    rw [this, List.getElem?_eq_getElem hi]
    rfl

theorem State.Inv.delimSymbol {s : State} {r : Option Transfer × State} (h : s.Inv)
    (hr : delimSymbol s = .next r) : r.2.Inv := by
  rcases delimSymbol_next hr with ⟨-, payload, hpay, rfl⟩ | ⟨-, l, rfl⟩
  · refine h.of_start rfl rfl rfl rfl rfl rfl fun v hv _ => ?_
    cases hv
    exact h.emitted_view hpay
  · exact h.of_start rfl rfl rfl rfl rfl rfl h.view_of_age

theorem State.Inv.escSymbol {s : State} (h : s.Inv) : (escSymbol s).Inv := by
  rcases escSymbol_cases s with ⟨-, hs⟩ | hs | ⟨hin, hs⟩ <;> rw [hs]
  · exact h.ageView.untouched ⟨rfl, rfl, rfl, rfl, id⟩
  · exact h.ageView.abandon _
  · exact ⟨fun hout => absurd hout (by simp [hin]), h.offset_bound, h.buf_within, h.resp_within, h.region_written,
      h.view_of_age⟩

section
variable {e : Byte} {s s' : State} {r : OffsetRule}

/-- A byte that could be read can be read after a rule. -/
theorem Routed.bufRead_isSome (h : Routed e s r s') {i : Nat} (hi : (s.bufRead i).isSome = true) :
    (s'.bufRead i).isSome = true := by
  cases h with
  | payload j hj =>
    rw [bufRead_bufWrite]
    split
    · simp
    · exact hi
  | _ => exact hi

/-- The byte of the payload region that a rule has stored can be read. -/
theorem Routed.stored_isSome (h : Routed e s r s') {i : Nat} (hi : r.offset = i + Config.headerSize) :
    (s'.bufRead i).isSome = true := by
  cases h with
  | payload j hj =>
    obtain rfl : i = j := by simp only [OffsetRule.offset] at hi; omega
    rw [bufRead_bufWrite, if_pos rfl, if_pos hj]
    rfl
  | _ => simp only [OffsetRule.offset, Config.headerSize] at hi; omega

/-- A rule keeps the buffer canonical and inside its capacity. -/
theorem Routed.buf_within (h : Routed e s r s') (hb : Memory.within s.cfg.bufCap s.p.buf = true) :
    Memory.within s.cfg.bufCap s'.p.buf = true := by
  cases h with
  | payload j hj => exact memWrite_within e hj hb
  | _ => exact hb

end

/-- The step of the offset after a rule that did not abandon the frame keeps the invariant. -/
theorem State.Inv.routed {e : Byte} {s s1 : State} (h : s.Inv) (hin : s.p.inside = true)
    (hr : Routed e (absorb e (Machine.ageView s)) (offsetRule s.p.offset) s1) :
    State.Inv { s1 with p := { s1.p with offset := s.p.offset + 1 } } := by
  obtain ⟨hcfg, hin1, -, hview, hn⟩ := hr.keeps
  have hkeep : ∀ i, (s.bufRead i).isSome = true → (s1.bufRead i).isSome = true := fun _ => hr.bufRead_isSome
  have hroom := hr.room
  rw [offset_offsetRule] at hroom
  constructor
  · intro hout
    exact absurd ((hin1.trans hin).symm.trans hout) nofun
  · rw [hcfg]; exact hroom
  · rw [hcfg]; exact hr.buf_within h.buf_within
  · rw [hcfg, hn]; exact h.resp_within
  · intro _ i hi
    rcases Nat.lt_or_eq_of_le (Nat.le_of_lt_succ hi) with hlt | heq
    · exact hkeep i (h.region_written hin i hlt)
    · exact hr.stored_isSome ((offset_offsetRule _).trans heq.symm)
  · intro v hv hage
    obtain ⟨hlen, hread⟩ := h.view_of_age v (hview ▸ hv) hage
    exact ⟨hcfg ▸ hlen, fun i hi => hkeep i (hread i hi)⟩

theorem State.Inv.dataSymbol {s : State} (b : Byte) (h : s.Inv) : (dataSymbol b s).Inv := by
  rcases dataSymbol_cases b s with ⟨-, hs⟩ | ⟨c, e, hs⟩ | ⟨e, s1, hin, hr, hs⟩ <;> rw [hs]
  · exact h.ageView.untouched ⟨rfl, rfl, rfl, rfl, id⟩
  · exact h.of_start rfl rfl rfl rfl rfl rfl h.view_of_age
  · exact h.routed hin hr

theorem State.Inv.unescaped {s : State} (h : s.Inv) : State.Inv { s with p := { s.p with unesc := false } } where
  outside_clear hout := ⟨rfl, (h.outside_clear hout).2⟩
  offset_bound := h.offset_bound
  buf_within := h.buf_within
  resp_within := h.resp_within
  region_written := h.region_written
  view_written := h.view_written

/-- A block whose registers and arrays are those of a hardware reset has the invariant. -/
theorem State.Inv.of_reset {s : State} (hp : s.p = Parser.reset) (hn : s.n = Node.reset) (hview : s.view = none) :
    s.Inv := by
  constructor
  · rw [hp]; exact fun _ => ⟨rfl, rfl, rfl⟩
  · rw [hp]; exact Nat.zero_le _
  · rw [hp]; rfl
  · rw [hn]; rfl
  · rw [hp]; exact nofun
  · rw [hview]; exact nofun

theorem inv_keptByUnits : KeptByUnits State.Inv where
  untouched := State.Inv.untouched
  reset _ := .of_reset rfl rfl rfl
  clear := State.Inv.parserClear
  unescaped := State.Inv.unescaped
  delim := State.Inv.delimSymbol
  esc := State.Inv.escSymbol
  data b := State.Inv.dataSymbol b

/-! ### R43 (iii), (iv): what the frame in progress left behind -/

/-- The byte a rule left behind stands in the header registers and the buffer, and in nothing else of the parser. -/
theorem State.Holds.congr {s t : State} {o : Nat} {b : Byte} (h : s.Holds o b) (hcfg : t.cfg = s.cfg)
    (hp : ∃ inside unesc offset crc, t.p =
      { s.p with inside := inside, unesc := unesc, offset := offset, crc := crc }) : t.Holds o b := by
  obtain ⟨inside, unesc, offset, crc, hp⟩ := hp
  have hread := bufRead_congr hcfg (show t.p.buf = s.p.buf by rw [hp])
  unfold State.Holds at h ⊢
  rw [hp, funext hread]
  exact h

/-- A parser at offset 0 with a fresh CRC holds what the empty frame left behind. -/
theorem State.FrameChecked.of_start {s : State} (hoff : s.p.offset = 0) (hframe : s.frame = [])
    (hcrc : s.p.crc = Config.crcInit) : s.FrameChecked where
  length := by rw [hoff, hframe]; rfl
  held o ho := by omega
  crc := by rw [hoff, hframe, hcrc]; rfl
  residue ho := by rw [hoff] at ho; exact absurd ho (by decide)

/-- The pending escape is no part of what the frame left behind. -/
theorem State.FrameChecked.congr {s t : State} (h : s.FrameChecked) (hcfg : t.cfg = s.cfg) (hframe : t.frame = s.frame)
    (hp : ∃ unesc, t.p = { s.p with unesc := unesc }) : t.FrameChecked := by
  obtain ⟨unesc, hp⟩ := hp
  have hoff : t.p.offset = s.p.offset := by rw [hp]
  have hcrc : t.p.crc = s.p.crc := by rw [hp]
  constructor
  · rw [hframe, hoff]; exact h.length
  · intro o ho
    rw [hframe]
    exact (h.held o (hoff ▸ ho)).congr hcfg ⟨_, _, _, _, hp⟩
  · rw [hframe, hoff, hcrc, hcfg]; exact h.crc
  · rw [hframe, hoff, hcfg]; exact h.residue

theorem State.FrameChecked.delimSymbol {s : State} {r : Option Transfer × State}
    (hr : delimSymbol s = .next r) : r.2.FrameChecked := by
  rcases delimSymbol_next hr with ⟨-, payload, -, rfl⟩ | ⟨-, l, rfl⟩
  · exact .of_start rfl rfl rfl
  · exact .of_start rfl rfl rfl

theorem State.FrameChecked.escSymbol {s : State} (h : s.FrameChecked) : (escSymbol s).FrameChecked := by
  rcases escSymbol_cases s with ⟨-, hs⟩ | hs | ⟨-, hs⟩ <;> rw [hs]
  · exact h.congr rfl rfl ⟨_, rfl⟩
  · exact .of_start rfl rfl rfl
  · exact h.congr rfl rfl ⟨_, rfl⟩

theorem crcRun_concat (poly r : Word) (l : List Byte) (b : Byte) :
    crcRun poly r (l ++ [b]) = crcStep poly (crcRun poly r l) b := by
  induction l generalizing r with
  | nil => rfl
  | cons c l ih => exact ih _

theorem byteAt_append_left {l : List Byte} {o : Nat} (b : Byte) (h : o < l.length) : byteAt (l ++ [b]) o = byteAt l o :=
  List.getD_append _ _ _ _ h

theorem byteAt_append_length (l : List Byte) (b : Byte) : byteAt (l ++ [b]) l.length = b := by
  simp [byteAt]

/-- In the header `P.crc` is the CRC run of the header so far. -/
theorem State.FrameChecked.crc_header {s : State} (h : s.FrameChecked) (ho : s.p.offset < Config.headerSize) :
    s.p.crc = crcRun s.cfg.crcPoly Config.crcInit s.frame := by
  rw [h.crc, if_pos ho]

/-- Past the header `P.crc` is the CRC run of the payload region so far. -/
theorem State.FrameChecked.crc_region {s : State} (h : s.FrameChecked) (ho : Config.headerSize ≤ s.p.offset) :
    s.p.crc = crcRun s.cfg.crcPoly Config.crcInit (s.frame.drop 32) := by
  rw [h.crc, if_neg (Nat.not_lt.2 ho)]

/-- `P.crc` after a rule is the CRC run of the header or of the payload region with its byte. -/
theorem State.FrameChecked.routed_crc {e : Byte} {s s1 : State} (h : s.FrameChecked)
    (hr : Routed e (absorb e (ageView s)) (offsetRule s.p.offset) s1) :
    s1.p.crc = crcRun s.cfg.crcPoly Config.crcInit
      (if s.p.offset + 1 < Config.headerSize then s.frame ++ [e] else (s.frame ++ [e]).drop 32) := by
  have hsize : Config.headerSize = 32 := rfl
  have hlen := h.length
  rw [hr.crc_eq, offset_offsetRule]
  simp only [absorb_p, ageView_cfg, ageView_p]
  rcases Nat.lt_trichotomy s.p.offset 31 with hlt | heq | hgt
  · rw [if_neg (by omega), if_pos (by omega), crcRun_concat, h.crc_header (by omega)]
  · rw [if_pos heq, if_neg (by omega), List.drop_of_length_le (by simp [hlen, heq])]
    rfl
  · rw [if_neg (by omega), if_neg (by omega), List.drop_append_of_le_length (by omega), crcRun_concat,
      h.crc_region (by omega)]

/-- The header residue after a rule: checked by the last byte of the header, and kept from then on. -/
theorem State.FrameChecked.routed_residue {e : Byte} {s s1 : State} (h : s.FrameChecked)
    (hr : Routed e (absorb e (ageView s)) (offsetRule s.p.offset) s1) (ho : Config.headerSize ≤ s.p.offset + 1) :
    residueCorrect s.cfg (crcRun s.cfg.crcPoly Config.crcInit ((s.frame ++ [e]).take 32)) = true := by
  have hsize : Config.headerSize = 32 := rfl
  have hlen := h.length
  rcases Nat.lt_or_eq_of_le ho with hlt | heq
  · rw [List.take_append_of_le_length (by omega)]
    exact h.residue (by omega)
  · have hres := hr.residue (by rw [offset_offsetRule]; omega)
    rw [List.take_of_length_le (by rw [List.length_append, List.length_singleton]; omega), crcRun_concat,
      ← h.crc_header (by omega)]
    exact hres

/-- The step of the offset after a rule that did not abandon the frame adds its byte to what the frame left behind. -/
theorem State.FrameChecked.routed {e : Byte} {s s1 : State} (h : s.FrameChecked)
    (hr : Routed e (absorb e (ageView s)) (offsetRule s.p.offset) s1) :
    State.FrameChecked { s1 with p := { s1.p with offset := s.p.offset + 1 } } := by
  obtain ⟨hcfg, -, hframe, -⟩ := hr.keeps
  simp only [absorb_cfg, absorb_frame, ageView_cfg, ageView_frame] at hcfg hframe
  have hlen := h.length
  constructor
  · simp only [hframe, List.length_append, hlen, List.length_singleton]
  · intro o ho
    rw [hframe]
    refine State.Holds.congr (s := s1) ?_ rfl ⟨_, _, _, _, rfl⟩
    rcases Nat.lt_or_eq_of_le (Nat.le_of_lt_succ ho) with hlt | rfl
    · rw [byteAt_append_left e (hlen ▸ hlt)]
      refine hr.holds_other (by rw [offset_offsetRule]; omega) ?_
      exact (h.held o hlt).congr rfl ⟨_, _, _, _, rfl⟩
    · have hholds := hr.holds
      rw [offset_offsetRule] at hholds
      rw [← hlen, byteAt_append_length, hlen]
      exact hholds
  · simp only [hcfg, hframe]; exact h.routed_crc hr
  · simp only [hcfg, hframe]; exact h.routed_residue hr

theorem State.FrameChecked.dataSymbol {s : State} (b : Byte) (h : s.FrameChecked) :
    (dataSymbol b s).FrameChecked := by
  rcases dataSymbol_cases b s with ⟨-, hs⟩ | ⟨c, e, hs⟩ | ⟨e, s1, -, hr, hs⟩ <;> rw [hs]
  · exact h.congr rfl rfl ⟨_, rfl⟩
  · exact .of_start rfl rfl rfl
  · exact h.routed hr

theorem frameChecked_keptByUnits : KeptByUnits State.FrameChecked where
  untouched h hst := h.congr hst.cfg hst.frame ⟨_, hst.p⟩
  reset _ := .of_start rfl rfl rfl
  clear _ := .of_start rfl rfl rfl
  unescaped h := h.congr rfl rfl ⟨_, rfl⟩
  delim _ := State.FrameChecked.delimSymbol
  esc := State.FrameChecked.escSymbol
  data b := State.FrameChecked.dataSymbol b

/-- Settles O51: the units keep each part of the invariant, so every step does. -/
theorem stepKeepsInvariant : Obligations.StepKeepsInvariant :=
  fun _ _ => inv_keptByUnits.step

/-- Settles O52. A frame that is not started over keeps what it left behind and adds the byte just routed; nothing of
the other invariant is needed, since a rule that stores its byte has shown that there is room. -/
theorem stepKeepsFrameChecked : Obligations.StepKeepsFrameChecked :=
  fun _ _ _ => frameChecked_keptByUnits.step

/-- Settles O50: both invariants hold of cleared registers and unwritten buffers. -/
theorem invariantAtReset : Obligations.InvariantAtReset :=
  fun _ => ⟨.of_reset rfl rfl rfl, .of_start rfl rfl rfl⟩

/-! ### The writers of the registers -/

/-- The instructions of the parser: its operations, symbols and offset rules. -/
inductive IsParserInstr : Instr → Prop where
  | parseReset : IsParserInstr .parseReset
  | parseUpdate (b : Byte) : IsParserInstr (.parseUpdate b)
  | symDelim : IsParserInstr .symDelim
  | symEsc : IsParserInstr .symEsc
  | symData (b : Byte) : IsParserInstr (.symData b)
  | offset (o : Nat) (e : Byte) : IsParserInstr (decodeOffset o e)

/-- The instruction of a rule is the one its offset decodes to. -/
theorem IsParserInstr.of_rule (r : OffsetRule) (e : Byte) {i : Instr} (h : decodeOffset r.offset e = i) :
    IsParserInstr i := h ▸ .offset _ _

/-- Every instruction is an operation, an instruction of the parser, or a class. -/
theorem instr_kinds (i : Instr) :
    IsOperation i ∨ IsParserInstr i ∨ ∃ t, i = .classResponse t ∨ i = .classRequest t ∨ i = .classMessage t := by
  cases i with
  | crcReset => exact .inl .crcReset
  | crcUpdate b => exact .inl (.crcUpdate b)
  | crcValue => exact .inl .crcValue
  | crcResidueOk => exact .inl .crcResidueOk
  | parseReset => exact .inl .parseReset
  | parseUpdate b => exact .inl (.parseUpdate b)
  | encEncode t => exact .inl (.encEncode t)
  | nodePoll time => exact .inl (.nodePoll time)
  | nodeSendRequest service server tid payload => exact .inl (.nodeSendRequest service server tid payload)
  | nodeCancelRequest => exact .inl .nodeCancelRequest
  | nodePublish subject tid payload => exact .inl (.nodePublish subject tid payload)
  | nodeSetId id => exact .inl (.nodeSetId id)
  | symDelim => exact .inr (.inl .symDelim)
  | symEsc => exact .inr (.inl .symEsc)
  | symData b => exact .inr (.inl (.symData b))
  | hdrVersion e => exact .inr (.inl (.of_rule .version e (by simp [decodeOffset])))
  | hdrPriority e => exact .inr (.inl (.of_rule .priority e (by simp [decodeOffset])))
  | hdrSource k e => exact .inr (.inl (.of_rule (.source k) e (by simp [decodeOffset])))
  | hdrDestination k e => exact .inr (.inl (.of_rule (.destination k) e (by simp [decodeOffset])))
  | hdrDataSpec k e => exact .inr (.inl (.of_rule (.dataSpec k) e (by simp [decodeOffset])))
  | hdrReserved k e => exact .inr (.inl (.of_rule (.reserved k) e (by simp [decodeOffset])))
  | hdrTransferId k e => exact .inr (.inl (.of_rule (.transferId k) e (by simp [decodeOffset])))
  | hdrEotMarker k e => exact .inr (.inl (.of_rule (.eotMarker k) e (by simp [decodeOffset])))
  | hdrCrc k e => exact .inr (.inl (.of_rule (.headerCrc k) e (by simp [decodeOffset])))
  | payloadStore i e => exact .inr (.inl (.of_rule (.payload i) e (by simp [decodeOffset])))
  | classResponse t => exact .inr (.inr ⟨t, .inl rfl⟩)
  | classRequest t => exact .inr (.inr ⟨t, .inr (.inl rfl)⟩)
  | classMessage t => exact .inr (.inr ⟨t, .inr (.inr rfl)⟩)

/-- What a `PARSE.UPDATE` that completes changes. -/
theorem execParseUpdate_next {b : Byte} {s t : State} (h : execParseUpdate b s = .next t) :
    ∃ p v f l r, t = { s with p := p, view := v, frame := f, labels := l, result := r } := by
  obtain ⟨r, hr, hrt⟩ := andThen_eq_next.1 h
  obtain ⟨p, v, f, l, hs⟩ := parserStep_keeps hr
  cases hrt
  exact ⟨p, v, f, l, _, by rw [hs]; rfl⟩

/-- A DATA symbol keeps everything but the parser, the view and the ghosts of the frame and the labels. -/
theorem dataSymbol_keeps (b : Byte) (s : State) :
    ∃ p v f l, dataSymbol b s = { s with p := p, view := v, frame := f, labels := l } := by
  unfold dataSymbol
  split
  · obtain ⟨p, f, l, hs⟩ := dataRule_keeps b (ageView s)
    rw [hs]; exact ⟨_, _, _, _, rfl⟩
  · exact ⟨_, _, _, _, rfl⟩

/-- What an instruction of the parser that completes changes. -/
theorem IsParserInstr.next {i : Instr} (hi : IsParserInstr i) {s t : State} (h : exec i s = .next t) :
    ∃ p v f l r, t = { s with p := p, view := v, frame := f, labels := l, result := r } := by
  cases hi with
  | parseReset => cases h; exact ⟨_, _, _, _, _, rfl⟩
  | parseUpdate b => exact execParseUpdate_next h
  | symDelim => exact execParseUpdate_next (b := Config.frameDelimiter) h
  | symEsc => exact execParseUpdate_next (b := Config.escapeByte) h
  | symData b =>
    cases h
    obtain ⟨p, v, f, l, hs⟩ := dataSymbol_keeps b s
    rw [hs]; exact ⟨_, _, _, _, _, rfl⟩
  | offset o e =>
    rw [exec_decodeOffset] at h
    cases h
    obtain ⟨p, f, l, hs⟩ := routeByte_keeps o e s
    exact ⟨p, _, f, l, _, hs⟩

/-- A poll keeps the parameters, `U.reg` and the identity. -/
theorem execNodePoll_keeps {time : BitVec 64} {s t : State} (h : execNodePoll time s = .next t) :
    t.cfg = s.cfg ∧ t.u = s.u ∧ t.n.localId = s.n.localId := by
  obtain ⟨t1, h1, h2⟩ := andThen_eq_next.1 h
  cases h2
  refine pollLoop_keeps (P := fun x => x.cfg = s.cfg ∧ x.u = s.u ∧ x.n.localId = s.n.localId) (fun x hx => ?_)
    (fun b x x' hx hb => ?_) _ s t1 ⟨rfl, rfl, rfl⟩ h1
  · rw [rxTake_eq]; exact hx
  · obtain ⟨r, hr, hrt⟩ := andThen_eq_next.1 hb
    obtain ⟨p, v, f, l, hs⟩ := parserStep_keeps hr
    rw [hs] at hrt
    split at hrt
    · obtain ⟨pv, rb, tx, onResponse, onRequest, trace, labels, rfl⟩ := (processTransfer_keeps hrt).shape
      exact hx
    · cases hrt; exact hx

/-- Settles O48. What the instructions of each kind change is an equation; of a register that an instruction keeps there
is nothing to show, and of one that it changes the instruction is a writer. -/
theorem registersKeepTheirWriters : Obligations.RegistersKeepTheirWriters := by
  intro i s t h
  rcases instr_kinds i with hi | hi | ⟨r, rfl | rfl | rfl⟩
  · cases hi with
    | crcReset => cases h; exact ⟨rfl, fun _ => .inl rfl, absurd rfl, absurd rfl, absurd rfl, absurd rfl⟩
    | crcUpdate b => cases h; exact ⟨rfl, fun _ => .inr ⟨b, rfl⟩, absurd rfl, absurd rfl, absurd rfl, absurd rfl⟩
    | crcValue | crcResidueOk =>
      cases h; exact ⟨rfl, absurd rfl, absurd rfl, absurd rfl, absurd rfl, absurd rfl⟩
    | parseReset => cases h; exact ⟨rfl, absurd rfl, absurd rfl, absurd rfl, absurd rfl, fun _ => .inl rfl⟩
    | parseUpdate b =>
      obtain ⟨p, v, f, l, r, rfl⟩ := execParseUpdate_next h
      exact ⟨rfl, absurd rfl, absurd rfl, absurd rfl, absurd rfl, fun _ => .inr (.inl ⟨b, rfl⟩)⟩
    | encEncode r =>
      obtain ⟨result, env, trace, labels, rfl⟩ := execEncEncode_next h
      exact ⟨rfl, absurd rfl, absurd rfl, absurd rfl, absurd rfl, absurd rfl⟩
    | nodePoll time =>
      obtain ⟨hcfg, hu, hid⟩ := execNodePoll_keeps (time := time) h
      exact ⟨hcfg, absurd hu, absurd hid, fun _ => .inr (.inr (.inr ⟨time, rfl⟩)), fun _ => .inr ⟨time, rfl⟩,
        fun _ => .inr (.inr (.inl ⟨time, rfl⟩))⟩
    | nodeSendRequest service server tid payload =>
      obtain ⟨pv, ps, pc, pt, result, env, trace, labels, rfl⟩ := execNodeSendRequest_next h
      exact ⟨rfl, absurd rfl, absurd rfl, fun _ => .inr (.inl ⟨_, _, _, _, rfl⟩), absurd rfl, absurd rfl⟩
    | nodeCancelRequest => cases h; exact ⟨rfl, absurd rfl, absurd rfl, fun _ => .inl rfl, absurd rfl, absurd rfl⟩
    | nodePublish subject tid payload =>
      obtain ⟨result, env, trace, labels, rfl⟩ := execNodePublish_next h
      exact ⟨rfl, absurd rfl, absurd rfl, absurd rfl, absurd rfl, absurd rfl⟩
    | nodeSetId id => cases h; exact ⟨rfl, absurd rfl, fun _ => ⟨id, rfl⟩, absurd rfl, absurd rfl, absurd rfl⟩
  · obtain ⟨p, v, f, l, r, rfl⟩ := hi.next h
    refine ⟨rfl, absurd rfl, absurd rfl, absurd rfl, absurd rfl, fun _ => ?_⟩
    cases hi with
    | parseReset => exact .inl rfl
    | parseUpdate b => exact .inr (.inl ⟨b, rfl⟩)
    | symDelim => exact .inr (.inr (.inr (.inl rfl)))
    | symEsc => exact .inr (.inr (.inr (.inr (.inl rfl))))
    | symData b => exact .inr (.inr (.inr (.inr (.inr (.inl ⟨b, rfl⟩)))))
    | offset o e => exact .inr (.inr (.inr (.inr (.inr (.inr ⟨o, e, rfl⟩)))))
  · obtain ⟨hkeeps, hbuf⟩ := onResponse_keeps h
    obtain ⟨pv, rb, tx, onResponse, onRequest, trace, labels, rfl⟩ := hkeeps.shape
    exact ⟨rfl, absurd rfl, absurd rfl, fun _ => .inr (.inr (.inl ⟨r, rfl⟩)), absurd hbuf, absurd rfl⟩
  · obtain ⟨hkeeps, hpend⟩ := onRequest_keeps h
    obtain ⟨pv, rb, tx, onResponse, onRequest, trace, labels, rfl⟩ := hkeeps.shape
    exact ⟨rfl, absurd rfl, absurd rfl, absurd (by rw [State.pending, State.pending, hpend]), fun _ => .inl ⟨r, rfl⟩,
      absurd rfl⟩
  · cases h
    exact ⟨rfl, absurd rfl, absurd rfl, absurd rfl, absurd rfl, absurd rfl⟩

/-! ### The response buffer -/

/-- Writing a byte sequence from an index on gives the bytes there and leaves every other entry alone. -/
theorem memRead_memWriteAll_zipIdx (bytes : List Byte) (m : Memory) (k a : Nat) :
    memRead (memWriteAll m ((bytes.zipIdx k).map fun x => (x.2, x.1))) a =
      if k ≤ a ∧ a < k + bytes.length then bytes[a - k]? else memRead m a := by
  induction bytes generalizing m k with
  | nil => simp [memWriteAll]
  | cons b bs ih =>
    simp only [List.zipIdx_cons, List.map_cons, memWriteAll, ih, memRead_memWrite, List.length_cons]
    rcases Nat.lt_trichotomy a k with hlt | rfl | hgt
    · rw [if_neg (by omega), if_neg (by omega), if_neg (by omega)]
    · simp
    · rw [show a - k = a - (k + 1) + 1 by omega, List.getElem?_cons_succ, if_neg (show a ≠ k by omega)]
      exact if_congr (by omega) rfl rfl

/-- The first bytes of `N.resp_buf` are a sequence written there (R56). -/
theorem respSlice_eq {s : State} {m : Memory} {bytes : List Byte} (hm : s.n.respBuf = m)
    (h : ∀ i, i < bytes.length → memRead m i = bytes[i]?) : s.respSlice bytes.length = bytes := by
  subst hm
  refine List.ext_getElem (by simp [State.respSlice]) fun i h1 h2 => ?_
  simp [State.respSlice, State.respRead, h i h2, h2]

/-- A reactor that writes a byte sequence from index 0 on and returns its length is inside its contract. -/
theorem answerLegal_zipIdx {c : Params} {bytes : List Byte} (hcap : bytes.length ≤ c.respCap)
    (hmax : bytes.length ≤ c.maxPayload) :
    answerLegal c (bytes.zipIdx.map fun x => (x.2, x.1)) (some bytes.length) = true := by
  simp only [answerLegal, List.all_map, Bool.and_eq_true, List.all_eq_true, Function.comp_apply, decide_eq_true_eq]
  refine ⟨fun x hx => ?_, hcap, hmax⟩
  have := List.snd_lt_of_mem_zipIdx hx
  omega

/-- A served request to which the reactor returns a length offers the frame of the response with that much of
`N.resp_buf` (R189). -/
theorem execClassRequest_answered {s : State} {t : Transfer} {writes : List Host.Cell} {n : Nat}
    {rest : List RequestAnswer} (haccept : s.requestAccepted t = true)
    (hlegal : answerLegal s.cfg writes (some n) = true)
    (hanswer : s.env.onRequest = .returned writes (some n) :: rest) {s1 : State}
    (hs1 : s1 = { s with
      n := { s.n with respBuf := memWriteAll s.n.respBuf writes }
      env := { s.env with onRequest := rest }
      trace := .processRequest (serviceOf t.dspec) t.src t.payload :: s.trace }) :
    execClassRequest t s = .next (s1.afterOffers (frameOffers (responseTransfer t n s1) s1)) := by
  subst hs1
  rw [execClassRequest, onRequest, if_pos haccept, callRequest, hanswer]
  simp only [hlegal, if_true, andThen_next, sendResponse, encodeTransfer_eq]
  rfl

/-- Settles O38: the writes put the sequence at the front of `N.resp_buf`, and the response reads it back. -/
theorem responseBufferHoldsWhatWasWritten : Obligations.ResponseBufferHoldsWhatWasWritten := by
  intro s t bytes rest hid hdst hcap hmax hanswer
  have haccept : s.requestAccepted t = true := by
    simp only [State.requestAccepted, State.identified, Bool.and_eq_true, bne_iff_ne, beq_iff_eq]
    exact ⟨hid, hdst⟩
  have hfront : ∀ i, i < bytes.length →
      memRead (memWriteAll s.n.respBuf (bytes.zipIdx.map fun x => (x.2, x.1))) i = bytes[i]? := fun i hi => by
    rw [memRead_memWriteAll_zipIdx, if_pos (by omega)]; rfl
  refine ⟨_, ?_, hfront, fun i hi => ?_⟩
  · rw [exec_classRequest, execClassRequest_answered haccept (answerLegal_zipIdx hcap hmax) hanswer rfl,
      responseTransfer, respSlice_eq rfl hfront]
    rfl
  · rw [memRead_memWriteAll_zipIdx, if_neg (by omega)]

/-! ### What the frame in progress left behind, past its header -/

theorem byteAt_eq_getElem {l : List Byte} {o : Nat} (h : o < l.length) : byteAt l o = l[o] :=
  List.getD_eq_getElem _ _ h

theorem of16_eq_of_lanes {v : Half} {b0 b1 : Byte} (h0 : lane v 0 = b0) (h1 : lane v 1 = b1) : v = of16 b0 b1 := by
  rw [← h0, ← h1, of16_lanes]

theorem of64_eq_of_lanes {v : Tid} {b0 b1 b2 b3 b4 b5 b6 b7 : Byte} (h0 : lane v 0 = b0) (h1 : lane v 1 = b1)
    (h2 : lane v 2 = b2) (h3 : lane v 3 = b3) (h4 : lane v 4 = b4) (h5 : lane v 5 = b5) (h6 : lane v 6 = b6)
    (h7 : lane v 7 = b7) : v = of64 b0 b1 b2 b3 b4 b5 b6 b7 := by
  rw [← h0, ← h1, ← h2, ← h3, ← h4, ← h5, ← h6, ← h7, of64_lanes]

section
variable {s : State} (h : s.FrameChecked)
include h

/-- The marker stands in the frame at its offset (R139). -/
theorem State.FrameChecked.marker (ho : Config.headerSize ≤ s.p.offset) :
    (s.frame.drop 24).take 4 = Config.eotMarker := by
  have hsize : Config.headerSize = 32 := rfl
  have hlen := h.length
  have hbyte (k : Fin 4) : byteAt s.frame (24 + k) = eotByte k := by
    have hk := h.held (24 + k) (by omega)
    rw [State.Holds, show 24 + k.val = (OffsetRule.eotMarker k).offset from rfl, offsetRule_offset] at hk
    exact hk
  refine List.ext_getElem (by simp [Config.eotMarker]; omega) fun i h1 h2 => ?_
  have hi : i < 4 := h2
  rw [List.getElem_take, List.getElem_drop, ← byteAt_eq_getElem, hbyte ⟨i, hi⟩]
  exact List.getD_eq_getElem _ _ h2

/-- R43 (iii): the registers hold the lanes that the rules of their offsets left behind. -/
theorem State.FrameChecked.headerChecked : s.HeaderChecked := by
  intro _ ho
  have held {o : Nat} (hlt : o < 32) : s.Holds o (byteAt s.frame o) := h.held o (Nat.lt_of_lt_of_le hlt ho)
  exact ⟨held (o := 0) (by decide), h.marker ho, h.residue ho, held (o := 1) (by decide),
    of16_eq_of_lanes (held (o := 2) (by decide)) (held (o := 3) (by decide)),
    of16_eq_of_lanes (held (o := 4) (by decide)) (held (o := 5) (by decide)),
    of16_eq_of_lanes (held (o := 6) (by decide)) (held (o := 7) (by decide)),
    of64_eq_of_lanes (held (o := 16) (by decide)) (held (o := 17) (by decide)) (held (o := 18) (by decide))
      (held (o := 19) (by decide)) (held (o := 20) (by decide)) (held (o := 21) (by decide))
      (held (o := 22) (by decide)) (held (o := 23) (by decide))⟩

/-- R43 (iv): the buffer holds the bytes that the payload rule left behind. -/
theorem State.FrameChecked.regionChecked : s.RegionChecked := by
  intro _ ho
  have hlen := h.length
  refine ⟨bufSlice_eq_some.2 ⟨by rw [List.length_drop, hlen]; rfl, fun k hk => ?_⟩, h.crc_region ho⟩
  have hk' : 32 + k < s.p.offset := by simp only [Config.headerSize] at hk; omega
  have hread := h.held (32 + k) hk'
  rw [State.Holds, offsetRule_payload (Nat.le_add_right _ _), Nat.add_sub_cancel_left,
    byteAt_eq_getElem (hlen ▸ hk')] at hread
  rw [Nat.zero_add, List.getElem?_drop, List.getElem?_eq_getElem (hlen ▸ hk')]
  exact hread

end

/-- A shorter slice of `P.buf` is the front of a longer one. -/
theorem bufSlice_take {s : State} {i m n : Nat} {l : List Byte} (h : s.bufSlice i n = some l) (hmn : m ≤ n) :
    s.bufSlice i m = some (l.take m) := by
  obtain ⟨hlen, hread⟩ := bufSlice_eq_some.1 h
  refine bufSlice_eq_some.2 ⟨by rw [List.length_take, hlen, Nat.min_eq_left hmn], fun k hk => ?_⟩
  rw [List.getElem?_take_of_lt hk]
  exact hread k (Nat.lt_of_lt_of_le hk hmn)

/-- The conditions of a delimiter that emits (R125). -/
theorem emitReady_iff {s : State} : s.emitReady = true ↔
    s.p.inside = true ∧ Config.headerSize + Config.crcSize ≤ s.p.offset ∧ residueCorrect s.cfg s.p.crc = true := by
  simp [State.emitReady, and_assoc]

/-- What a delimiter presented on its own has emitted (R125). -/
theorem execSymDelim_emits {s t : State} {r : Transfer} (h : execSymDelim s = .next t)
    (hr : t.result = .transfer (some r)) : s.emitReady = true ∧ s.payloadView s.emitLength = some r.payload ∧
      r = { pri := s.p.pri
            src := s.p.src
            dst := s.p.dst
            dspec := s.p.dspec
            tid := s.p.tid
            payload := r.payload } := by
  obtain ⟨out, hout, ht⟩ := andThen_eq_next.1 h
  cases ht
  rcases delimSymbol_next hout with ⟨hready, payload, hpay, rfl⟩ | ⟨-, l, rfl⟩
  · cases hr; exact ⟨hready, hpay, rfl⟩
  · cases hr

/-- A frame past its header whose residue is right is valid. -/
theorem frameValid_of_checked {s : State} (hinv : s.Inv) (h : s.FrameChecked) (hready : s.emitReady = true) :
    frameValid s.cfg s.frame = true := by
  obtain ⟨hin, hoff, hcrc⟩ := emitReady_iff.1 hready
  have hsize : Config.headerSize = 32 := rfl
  have hcrcSize : Config.crcSize = 4 := rfl
  have hpast : Config.headerSize ≤ s.p.offset := by omega
  have hlen := h.length
  have hbound := hinv.offset_bound
  obtain ⟨hversion, hmarker, hres, -⟩ := h.headerChecked hin hpast
  rw [h.crc_region hpast] at hcrc
  simp only [frameValid, Bool.and_eq_true, decide_eq_true_eq, beq_iff_eq]
  simp only [Params.bufCap] at hbound
  exact ⟨⟨⟨⟨⟨by omega, by omega⟩, hversion⟩, hmarker⟩, hres⟩, hcrc⟩

/-- Settles O53: the registers and the buffer hold the frame, so what a delimiter builds from them is the frame's own
transfer. -/
theorem emittedTransferIsOfItsFrame : Obligations.EmittedTransferIsOfItsFrame := by
  intro s hinv h
  refine ⟨h.headerChecked, h.regionChecked, fun t r ht hr => ?_⟩
  obtain ⟨hready, hpay, hreg⟩ := execSymDelim_emits ht hr
  obtain ⟨hin, hoff, -⟩ := emitReady_iff.1 hready
  have hsize : Config.headerSize = 32 := rfl
  have hcrcSize : Config.crcSize = 4 := rfl
  have hpast : Config.headerSize ≤ s.p.offset := by omega
  have hlen := h.length
  obtain ⟨-, -, -, hpri, hsrc, hdst, hdspec, htid⟩ := h.headerChecked hin hpast
  have hshort : s.emitLength ≤ s.p.offset - Config.headerSize := by simp only [State.emitLength]; omega
  have hfront := bufSlice_take (h.regionChecked hin hpast).1 hshort
  have hpayload : r.payload = (s.frame.drop 32).take (s.frame.length - 36) := by
    rw [hlen]
    exact Option.some.inj (hpay.symm.trans hfront)
  refine ⟨?_, frameValid_of_checked hinv h hready, ?_⟩
  · rw [hpayload, List.length_take, List.length_drop]
    omega
  · rw [hreg, hpri, hsrc, hdst, hdspec, htid, hpayload]
    rfl

/-! ### The hardware reset -/

/-- Settles O49: both resets write the registers with `Parser.reset` and `Node.reset`. -/
theorem hardwareResetValues : Obligations.HardwareResetValues := by
  intro c s rest hhost
  refine ⟨hardReset (s.taken rest), by rw [step, hhost], rfl, rfl, ?_⟩
  rintro x (rfl | rfl) <;> exact ⟨rfl, rfl, rfl, rfl, rfl, rfl, rfl, rfl, rfl, rfl, rfl, rfl⟩

end Sys2Proof.Machine
end

section
/-! PROOFS of the family 20_memory: the byte lanes of a transfer id, and the payload view of the transfer last emitted
inside its window. -/

namespace Sys2Proof.Machine

/-! ### The lanes of a transfer id (R51, R72) -/

/-- A transfer id after the given lanes of `v` were written to it, in order. -/
def setLanes (v : Tid) : List (Fin 8) → Tid → Tid
  | [], t => t
  | k :: ks, t => setLanes v ks (setLane t k (lane v k))

/-- A lane that was written holds the byte of `v`; the order of the writes does not matter. -/
theorem lane_setLanes (v t : Tid) (ks : List (Fin 8)) (j : Fin 8) :
    lane (setLanes v ks t) j = if j ∈ ks then lane v j else lane t j := by
  induction ks generalizing t with
  | nil => simp [setLanes]
  | cons k ks ih =>
    rw [setLanes, ih, lane_setLane _ _ _ _ (by omega)]
    by_cases hjk : j = k
    · subst hjk; simp
    · simp [hjk, Fin.val_ne_of_ne hjk]

/-- Writing all eight lanes leaves nothing of what the register held. -/
theorem setLanes_finRange (v t : Tid) : setLanes v (List.finRange 8) t = v :=
  eq_of_lanes (n := 8) fun k hk =>
    (lane_setLanes v t _ ⟨k, hk⟩).trans (if_pos (List.mem_finRange _))

/-- A run of `HDR.TRANSFER_ID` bytes writes their lanes of `P.tid` and nothing else. -/
theorem execAll_hdrTransferId (v : Tid) (ks : List (Fin 8)) (s : State) :
    execAll (ks.map fun k => .hdrTransferId k (lane v k)) s =
      .next { s with p := { s.p with tid := setLanes v ks s.p.tid } } := by
  induction ks generalizing s with
  | nil => rfl
  | cons k ks ih =>
    rw [List.map_cons, execAll, exec_hdrTransferId, execHdrTransferId, andThen_next, ih]
    rfl

/-- Settles O16: the eight bytes are the lanes of the id, and each of them is written. -/
theorem transferIdAssemblesLittleEndian : Obligations.TransferIdAssemblesLittleEndian := by
  intro s v
  have h := execAll_hdrTransferId v (List.finRange 8) s
  rw [setLanes_finRange] at h
  exact h

/-! ### The payload view inside its window (R60) -/

/-- The view last handed out, that many `PARSE.UPDATE` steps ago, is of this payload, and `P.buf` still holds it. -/
structure State.ViewHolds (s : State) (payload : List Byte) (age : Nat) : Prop where
  handedOut : ∃ serial, s.view = some { serial := serial, len := payload.length, age := age }
  held : s.payloadView payload.length = some payload

section
variable {s t : State} {payload : List Byte} {age : Nat}

/-- Inside the window a holder reads the payload, and nothing past its end. -/
theorem State.ViewHolds.viewByte (h : s.ViewHolds payload age) (hage : age ≤ 1) (i : Nat) :
    s.viewByte i = payload[i]? := by
  obtain ⟨serial, hview⟩ := h.handedOut
  simp only [State.viewByte, hview, if_pos hage]
  split
  · have hread := (bufSlice_eq_some.1 h.held).2 i ‹_›
    rwa [Nat.zero_add] at hread
  · exact (List.getElem?_eq_none (Nat.le_of_not_lt ‹_›)).symm

/-- The view rests on the parameters, the buffer and the window alone. -/
theorem State.ViewHolds.congr (h : s.ViewHolds payload age) (hcfg : t.cfg = s.cfg) (hbuf : t.p.buf = s.p.buf)
    (hview : t.view = s.view) : t.ViewHolds payload age :=
  ⟨hview ▸ h.handedOut, (payloadView_congr hcfg hbuf _).trans h.held⟩

/-- A view starts its window over the payload that stands in the buffer. -/
theorem State.ViewHolds.handOutView (h : s.payloadView payload.length = some payload) :
    (handOutView payload.length s).ViewHolds payload 0 :=
  ⟨⟨_, rfl⟩, (payloadView_congr (s := Machine.handOutView payload.length s) (t := s) rfl rfl _).trans h⟩

theorem State.ViewHolds.ageView (h : s.ViewHolds payload age) : (ageView s).ViewHolds payload (age + 1) := by
  obtain ⟨serial, hview⟩ := h.handedOut
  exact ⟨⟨serial, by rw [ageView_view, hview]; rfl⟩, (payloadView_ageView s _).trans h.held⟩

end

/-- A delimiter that returns a transfer hands out the view of its payload, and the frame it opens is at its start
(R125). -/
theorem execSymDelim_viewHolds {s t : State} {r : Transfer} (h : execSymDelim s = .next t)
    (hr : t.result = .transfer (some r)) : t.ViewHolds r.payload 0 ∧ t.p.offset = 0 := by
  obtain ⟨out, hout, ht⟩ := andThen_eq_next.1 h
  cases ht
  rcases delimSymbol_next hout with ⟨-, payload, hpay, rfl⟩ | ⟨-, l, rfl⟩
  · cases hr
    have hheld : s.payloadView payload.length = some payload := (bufSlice_eq_some.1 hpay).1 ▸ hpay
    have hholds := State.ViewHolds.handOutView (s := ageView s) (by rwa [payloadView_ageView])
    exact ⟨hholds.congr rfl rfl rfl, rfl⟩
  · cases hr

/-- A delimiter whose condition does not hold completes without a transfer, whatever the buffer holds (R125). -/
theorem delimSymbol_of_not_ready {s : State} (h : s.emitReady = false) :
    delimSymbol s = .next (none, reopen (noteClose (ageView s))) := by
  have hage : (ageView s).emitReady = false := h
  simp [delimSymbol, delimRule, emission, hage]

/-- The rules of the header store nothing in the buffer (R131). -/
theorem Routed.buf_of_header {e : Byte} {s s' : State} {r : OffsetRule} (h : Routed e s r s')
    (hr : r.offset < Config.headerSize) : s'.p.buf = s.p.buf := by
  cases h with
  | payload i => exact absurd hr (Nat.not_lt.2 (Nat.le_add_right _ _))
  | _ => rfl

section
variable {s : State} {payload : List Byte} {age : Nat}

theorem State.ViewHolds.delimSymbol (h : s.ViewHolds payload age) (ho : s.p.offset < Config.headerSize) :
    ∃ r, delimSymbol s = .next r ∧ r.2.ViewHolds payload (age + 1) := by
  have hready : s.emitReady = false := by
    refine Bool.eq_false_iff.2 fun hready => ?_
    obtain ⟨-, hoff, -⟩ := emitReady_iff.1 hready
    omega
  refine ⟨_, delimSymbol_of_not_ready hready, ?_⟩
  obtain ⟨l, hl⟩ := noteClose_eq (Machine.ageView s)
  rw [hl]
  exact h.ageView.congr rfl rfl rfl

theorem State.ViewHolds.escSymbol (h : s.ViewHolds payload age) : (escSymbol s).ViewHolds payload (age + 1) := by
  rcases escSymbol_cases s with ⟨-, hs⟩ | hs | ⟨-, hs⟩ <;> rw [hs] <;> exact h.ageView.congr rfl rfl rfl

theorem State.ViewHolds.dataSymbol (b : Byte) (h : s.ViewHolds payload age) (ho : s.p.offset < Config.headerSize) :
    (dataSymbol b s).ViewHolds payload (age + 1) := by
  rcases dataSymbol_cases b s with ⟨-, hs⟩ | ⟨c, e, hs⟩ | ⟨e, s1, -, hr, hs⟩ <;> rw [hs]
  · exact h.ageView.congr rfl rfl rfl
  · exact h.ageView.congr rfl rfl rfl
  · obtain ⟨hcfg, -, -, hview, -⟩ := hr.keeps
    exact h.ageView.congr hcfg (hr.buf_of_header (by rwa [offset_offsetRule])) hview

/-- While the next frame is in its header, a `PARSE.UPDATE` completes, whatever its byte, and only ages the view. -/
theorem State.ViewHolds.parseUpdate (b : Byte) (h : s.ViewHolds payload age) (ho : s.p.offset < Config.headerSize) :
    ∃ t, execParseUpdate b s = .next t ∧ t.ViewHolds payload (age + 1) := by
  have hstep : ∃ r, parserStep b s = .next r ∧ r.2.ViewHolds payload (age + 1) := by
    unfold parserStep
    cases symbolOf b with
    | delim => exact h.delimSymbol ho
    | esc => exact ⟨_, rfl, h.escSymbol⟩
    | data => exact ⟨_, rfl, h.dataSymbol b ho⟩
  obtain ⟨r, hr, hholds⟩ := hstep
  exact ⟨_, andThen_eq_next.2 ⟨r, hr, rfl⟩, hholds.congr rfl rfl rfl⟩

/-- `PARSE.RESET` keeps the buffer, and is no step of the window (R60, R123). -/
theorem State.ViewHolds.parseReset (h : s.ViewHolds payload age) :
    ((parserClear s).answer .none).ViewHolds payload age := h.congr rfl rfl rfl

end

/-- Settles O23: the emitting delimiter starts a frame, so the next byte is at most one of its header, which is not
stored over the payload. -/
theorem payloadViewHoldsForItsWindow : Obligations.PayloadViewHoldsForItsWindow := by
  intro s s1 r h hr
  obtain ⟨hholds, hoff⟩ := execSymDelim_viewHolds h hr
  refine ⟨hholds.viewByte (by decide), fun b => ?_, ?_⟩
  · obtain ⟨s2, hs2, hholds2⟩ := hholds.parseUpdate b (by rw [hoff]; decide)
    exact ⟨s2, hs2, hholds2.viewByte (by decide)⟩
  · exact ⟨_, rfl, hholds.parseReset.viewByte (by decide)⟩

end Sys2Proof.Machine
end

section
/-! PROOFS of the family 30_encoding: the decoder and the encoder are inverse to each other, space by space; the
reserved command codes; the ids of a data spec; and the byte-at-a-time parser against the whole-frame function. -/

namespace Sys2Proof

open Machine

/-! ### The symbols (R76) -/

theorem symbolOf_eq_delim {b : Byte} : symbolOf b = .delim ↔ b = Config.frameDelimiter := by
  unfold symbolOf
  split_ifs <;> simp_all

theorem symbolOf_eq_esc {b : Byte} : symbolOf b = .esc ↔ b = Config.escapeByte := by
  unfold symbolOf
  split_ifs with hd he
  · subst hd; decide
  · simp [he]
  · simp [he]

theorem symbolOf_eq_data {b : Byte} :
    symbolOf b = .data ↔ b ≠ Config.frameDelimiter ∧ b ≠ Config.escapeByte := by
  unfold symbolOf
  split_ifs <;> simp_all

/-- The symbol of a wire byte is well formed, and is encoded as that byte. -/
theorem decodeWire_encodes (b : Byte) : (decodeWire b).wellFormed = true ∧ encode (decodeWire b) = .wire b := by
  unfold decodeWire
  cases hb : symbolOf b with
  | delim => rw [symbolOf_eq_delim.1 hb]; exact ⟨rfl, rfl⟩
  | esc => rw [symbolOf_eq_esc.1 hb]; exact ⟨rfl, rfl⟩
  | data => simpa [Instr.wellFormed, encode] using symbolOf_eq_data.1 hb

/-! ### The offset selections (R131, R141) -/

/-- The instruction a rule's offset selects is well formed, and is encoded as that offset with its byte. -/
theorem decodeOffset_encodes (o : Nat) (e : Byte) :
    (decodeOffset o e).wellFormed = true ∧ encode (decodeOffset o e) = .offset o e := by
  obtain ⟨r, rfl⟩ : ∃ r : OffsetRule, o = r.offset := ⟨_, (offset_offsetRule o).symm⟩
  rw [decodeOffset, offsetRule_offset]
  cases r <;> exact ⟨rfl, rfl⟩

/-! ### The classes (R73, R185) -/

/-- The class a transfer selects is well formed, and is encoded as that transfer. -/
theorem decodeTransfer_encodes (t : Transfer) :
    (decodeTransfer t).wellFormed = true ∧ encode (decodeTransfer t) = .dataSpec t := by
  unfold decodeTransfer
  cases ht : classify t.dspec <;> exact ⟨by simp [Instr.wellFormed, ht], rfl⟩

/-! ### The operands of a command (R81): which bytes decode, and to what -/

theorem decodeBare_eq_ok {op : Opcode} {i j : Instr} {operands : List Byte} :
    decodeBare op i operands = .ok j ↔ operands = [] ∧ j = i := by
  cases operands <;> simp [decodeBare, eq_comm]

theorem decodeByteOperand_eq_ok {op : Opcode} {f : Byte → Instr} {j : Instr} {operands : List Byte} :
    decodeByteOperand op f operands = .ok j ↔ ∃ b, operands = [b] ∧ j = f b := by
  unfold decodeByteOperand
  split <;> simp_all [eq_comm]

theorem setWidth_16_toNat_lt {n : Nat} (hn : n ≤ 16) (v : BitVec n) : (v.setWidth 16).toNat < 2 ^ n := by
  rw [BitVec.toNat_setWidth_of_le hn]
  exact v.isLt

/-- A value of 16 bits that is less than `2 ^ n` is carried by its lower `n` bits. -/
theorem setWidth_16_setWidth {n : Nat} (v : Half) (hv : v.toNat < 2 ^ n) (hn : n ≤ 16) :
    (v.setWidth n).setWidth 16 = v := by
  apply BitVec.eq_of_toNat_eq
  rw [BitVec.toNat_setWidth_of_le hn, BitVec.toNat_setWidth, Nat.mod_eq_of_lt hv]

theorem decodeEncode_eq_ok {operands : List Byte} {j : Instr} : decodeEncode operands = .ok j ↔
    ∃ t : Transfer, operands = [t.pri] ++ le16 t.src ++ le16 t.dst ++ le16 t.dspec ++ le64 t.tid ++ t.payload ∧
      j = .encEncode t := by
  constructor
  · intro h
    unfold decodeEncode at h
    split at h <;> cases h
    exact ⟨_, by simp, rfl⟩
  · rintro ⟨t, rfl, rfl⟩
    simp [le16, le64, decodeEncode]

theorem decodePoll_eq_ok {operands : List Byte} {j : Instr} :
    decodePoll operands = .ok j ↔ ∃ time, operands = le64 time ∧ j = .nodePoll time := by
  constructor
  · intro h
    unfold decodePoll at h
    split at h <;> cases h
    exact ⟨_, by simp, rfl⟩
  · rintro ⟨time, rfl, rfl⟩
    simp [le64, decodePoll]

theorem decodeSendRequest_eq_ok {operands : List Byte} {j : Instr} : decodeSendRequest operands = .ok j ↔
    ∃ service server tid payload,
      operands = le16 (service.setWidth 16) ++ le16 server ++ le64 tid ++ payload ∧
      j = .nodeSendRequest service server tid payload := by
  constructor
  · intro h
    unfold decodeSendRequest at h
    split at h
    · split at h <;> cases h
      exact ⟨_, _, _, _, by simp [setWidth_16_setWidth _ ‹_›], rfl⟩
    · cases h
  · rintro ⟨service, server, tid, payload, rfl, rfl⟩
    have hlt := setWidth_16_toNat_lt (by decide) service
    simpa [le16, le64, decodeSendRequest] using hlt

theorem decodePublish_eq_ok {operands : List Byte} {j : Instr} : decodePublish operands = .ok j ↔
    ∃ subject tid payload, operands = le16 (subject.setWidth 16) ++ le64 tid ++ payload ∧
      j = .nodePublish subject tid payload := by
  constructor
  · intro h
    unfold decodePublish at h
    split at h
    · split at h <;> cases h
      exact ⟨_, _, _, by simp [setWidth_16_setWidth _ ‹_›], rfl⟩
    · cases h
  · rintro ⟨subject, tid, payload, rfl, rfl⟩
    have hlt := setWidth_16_toNat_lt (by decide) subject
    simpa [le16, le64, decodePublish] using hlt

theorem decodeSetId_eq_ok {operands : List Byte} {j : Instr} :
    decodeSetId operands = .ok j ↔ ∃ id, operands = le16 id ∧ j = .nodeSetId id := by
  constructor
  · intro h
    unfold decodeSetId at h
    split at h <;> cases h
    exact ⟨_, by simp, rfl⟩
  · rintro ⟨id, rfl, rfl⟩
    simp [le16, decodeSetId]

/-- Operand bytes that decode are those of the encoding of what they decode to. -/
theorem encode_of_decodeOperands {op : Opcode} {operands : List Byte} {i : Instr}
    (h : decodeOperands op operands = .ok i) : encode i = .command op.code operands := by
  cases op with
  | crcReset | crcValue | crcResidueOk | parseReset | nodeCancelRequest =>
    obtain ⟨rfl, rfl⟩ := decodeBare_eq_ok.1 h; rfl
  | crcUpdate | parseUpdate => obtain ⟨b, rfl, rfl⟩ := decodeByteOperand_eq_ok.1 h; rfl
  | encEncode => obtain ⟨t, rfl, rfl⟩ := decodeEncode_eq_ok.1 h; rfl
  | nodePoll => obtain ⟨time, rfl, rfl⟩ := decodePoll_eq_ok.1 h; rfl
  | nodeSendRequest => obtain ⟨service, server, tid, payload, rfl, rfl⟩ := decodeSendRequest_eq_ok.1 h; rfl
  | nodePublish => obtain ⟨subject, tid, payload, rfl, rfl⟩ := decodePublish_eq_ok.1 h; rfl
  | nodeSetId => obtain ⟨id, rfl, rfl⟩ := decodeSetId_eq_ok.1 h; rfl

/-- The encoding of an operation is the code of its row with operand bytes that decode to it. -/
theorem decodeOperands_of_encode {i : Instr} (h : IsOperation i) :
    ∃ op operands, encode i = .command op.code operands ∧ decodeOperands op operands = .ok i := by
  cases h with
  | crcReset => exact ⟨.crcReset, _, rfl, rfl⟩
  | crcUpdate b => exact ⟨.crcUpdate, _, rfl, rfl⟩
  | crcValue => exact ⟨.crcValue, _, rfl, rfl⟩
  | crcResidueOk => exact ⟨.crcResidueOk, _, rfl, rfl⟩
  | parseReset => exact ⟨.parseReset, _, rfl, rfl⟩
  | parseUpdate b => exact ⟨.parseUpdate, _, rfl, rfl⟩
  | encEncode t => exact ⟨.encEncode, _, rfl, decodeEncode_eq_ok.2 ⟨t, rfl, rfl⟩⟩
  | nodePoll time => exact ⟨.nodePoll, _, rfl, decodePoll_eq_ok.2 ⟨time, rfl, rfl⟩⟩
  | nodeSendRequest service server tid payload =>
    exact ⟨.nodeSendRequest, _, rfl, decodeSendRequest_eq_ok.2 ⟨service, server, tid, payload, rfl, rfl⟩⟩
  | nodeCancelRequest => exact ⟨.nodeCancelRequest, _, rfl, rfl⟩
  | nodePublish subject tid payload =>
    exact ⟨.nodePublish, _, rfl, decodePublish_eq_ok.2 ⟨subject, tid, payload, rfl, rfl⟩⟩
  | nodeSetId id => exact ⟨.nodeSetId, _, rfl, decodeSetId_eq_ok.2 ⟨id, rfl, rfl⟩⟩

theorem decode_encode_operation {i : Instr} (h : IsOperation i) : decode (encode i) = .ok i := by
  obtain ⟨op, operands, henc, hdec⟩ := decodeOperands_of_encode h
  rw [henc, decode_command, hdec]

theorem wellFormed_operation {i : Instr} (h : IsOperation i) : i.wellFormed = true := by
  cases h <;> rfl

/-- A command that decodes is the encoding of what it decodes to. -/
theorem encode_of_decodeCommand {code : Byte} {operands : List Byte} {i : Instr}
    (h : decodeCommand code operands = .ok i) : encode i = .command code operands := by
  unfold decodeCommand at h
  split at h
  · rw [encode_of_decodeOperands h, opcodeOf_eq_some.1 ‹_›]
  · cases h

/-! ### Decoder and encoder -/

/-- Settles O57. An operation is told by its code and operands, a symbol by its byte, a rule by its offset, a class by
the transfer's data spec; well-formedness says that a DATA byte is no control byte and a class is that of its
transfer. -/
theorem decodeOfEncode : Obligations.DecodeOfEncode := by
  intro i hi
  rcases instr_kinds i with hop | hp | ⟨t, rfl | rfl | rfl⟩
  · exact decode_encode_operation hop
  · cases hp with
    | parseReset => exact decode_encode_operation .parseReset
    | parseUpdate b => exact decode_encode_operation (.parseUpdate b)
    | symDelim | symEsc => rfl
    | symData b =>
      have hb : symbolOf b = .data := symbolOf_eq_data.2 (by simpa [Instr.wellFormed] using hi)
      simp [encode, decode, decodeWire, hb]
    | offset o e => rw [(decodeOffset_encodes o e).2, decode]
  all_goals
    have ht := beq_iff_eq.1 hi
    simp [encode, decode, decodeTransfer, ht]

/-- Settles O58, one encoding space after the other. -/
theorem encodeOfDecode : Obligations.EncodeOfDecode := by
  intro enc i h
  cases enc with
  | command code operands =>
    exact ⟨wellFormed_operation (decodeCommand_isOperation h), encode_of_decodeCommand h⟩
  | wire b => cases h; exact decodeWire_encodes b
  | offset o e => cases h; exact decodeOffset_encodes o e
  | dataSpec t => cases h; exact decodeTransfer_encodes t

/-! ### The reserved command codes (R83) -/

theorem opcodeOf_eq_none {code : Byte} : opcodeOf code = none ↔ code ∉ Opcode.all.map Opcode.code := by
  simp [opcodeOf]

/-- A command is refused as reserved exactly where no operation has its code, whatever its operands. -/
theorem decode_eq_reserved {code : Byte} {operands : List Byte} :
    decode (.command code operands) = .error (.reservedCommand code) ↔ opcodeOf code = none := by
  rw [decode, decodeCommand]
  cases opcodeOf code with
  | none => simp
  | some op => simpa using decodeOperands_ne_reserved op operands code

/-- Settles O59: the twelve codes listed are those of the table. -/
theorem reservedCommandsAreRefused : Obligations.ReservedCommandsAreRefused := by
  refine ⟨fun code operands => ?_, fun s code operands rest hhost hdec => ?_⟩
  · rw [decode_eq_reserved, opcodeOf_eq_none]
    rfl
  · simp only [step, hhost, hdec, refusalOf]

/-- Settles O60: each word is evaluated by the decoder. -/
theorem knownWordsDecode : Obligations.KnownWordsDecode :=
  ⟨rfl, rfl, rfl, rfl, rfl, rfl, rfl, rfl, rfl, rfl⟩

/-! ### The ids of a data spec (R74, R182) -/

/-- The service id is the data spec without its two role bits. -/
theorem serviceOf_setWidth (d : Half) : (serviceOf d).setWidth 16 = d &&& 0x3FFF#16 := by
  apply BitVec.eq_of_toNat_eq
  rw [serviceOf, BitVec.toNat_and, BitVec.toNat_setWidth_of_le (by decide), BitVec.toNat_setWidth]
  exact (Nat.and_two_pow_sub_one_eq_mod d.toNat 14).symm

/-- The lower bits of a data spec of a service are the id, whatever role bits stand above it. -/
theorem serviceOf_role {role : Half} (hrole : role.setWidth 14 = 0#14) (v : ServiceId) :
    serviceOf (role ||| v.setWidth 16) = v := by
  rw [serviceOf, BitVec.setWidth_or, hrole, BitVec.zero_or, BitVec.setWidth_setWidth_of_le _ (by decide)]
  exact BitVec.setWidth_eq v

/-- The class is that of the role bits, whatever id stands below them. -/
theorem classify_role (role : Half) (v : ServiceId) : classify (role ||| v.setWidth 16) = classify role := by
  simp [classify]

/-- Settles O34: the id fills the bits below the role bits, and the role bits decide the class. -/
theorem dataSpecIdsRoundTrip : Obligations.DataSpecIdsRoundTrip := by
  refine ⟨serviceOf_setWidth, fun v => ⟨classify_role _ v, serviceOf_role rfl v, classify_role _ v,
    serviceOf_role rfl v⟩, fun v => ⟨?_, ?_⟩⟩
  · simp [classify, messageSpec]
  · simp [messageSpec]

end Sys2Proof

namespace Sys2Proof.Machine

/-! ### Bytes that are no delimiter: a `PARSE.UPDATE` that always completes -/

/-- The state after a `PARSE.UPDATE` of a byte that is no delimiter. -/
def readByte (b : Byte) (s : State) : State :=
  (if b = Config.escapeByte then escSymbol s else dataSymbol b s).answer (.transfer none)

/-- The state after `PARSE.UPDATE` over bytes that are no delimiter. -/
def readBytes : List Byte → State → State
  | [], s => s
  | b :: bs, s => readBytes bs (readByte b s)

theorem exec_parseUpdate_readByte {b : Byte} (hb : b ≠ Config.frameDelimiter) (s : State) :
    exec (.parseUpdate b) s = .next (readByte b s) := by
  rw [exec_parseUpdate, execParseUpdate, parserStep, readByte]
  by_cases he : b = Config.escapeByte
  · rw [symbolOf_eq_esc.2 he, if_pos he]; rfl
  · rw [symbolOf_eq_data.2 ⟨hb, he⟩, if_neg he]; rfl

/-- Bytes without a delimiter complete from every state, with the result none for each. -/
theorem feed_eq_readBytes {bs : List Byte} (hbs : Config.frameDelimiter ∉ bs) (s : State) :
    feed bs s = .next (List.replicate bs.length (.transfer none), readBytes bs s) := by
  induction bs generalizing s with
  | nil => rfl
  | cons b bs ih =>
    rw [List.mem_cons, not_or] at hbs
    obtain ⟨hb, hbs⟩ := hbs
    rw [feed, exec_parseUpdate_readByte (Ne.symm hb), andThen_next, ih hbs]
    rfl

theorem feed_append (as bs : List Byte) (s : State) :
    feed (as ++ bs) s =
      andThen (feed as s) fun r => andThen (feed bs r.2) fun q => .next (r.1 ++ q.1, q.2) := by
  induction as generalizing s with
  | nil => cases h : feed bs s <;> simp [feed, h]
  | cons a as ih => simp only [List.cons_append, feed, ih, andThen_assoc, andThen_next]

/-- A feed changes the parser, the view, the result and the ghosts of the frame and the labels alone. -/
theorem feed_keeps {bs : List Byte} {s t : State} {rs : List Result} (h : feed bs s = .next (rs, t)) :
    t.u = s.u ∧ t.n = s.n ∧ t.cfg = s.cfg ∧ t.env = s.env ∧ t.trace = s.trace := by
  induction bs generalizing s rs with
  | nil => cases h; exact ⟨rfl, rfl, rfl, rfl, rfl⟩
  | cons b bs ih =>
    obtain ⟨s1, h1, h2⟩ := andThen_eq_next.1 h
    obtain ⟨r, h3, h4⟩ := andThen_eq_next.1 h2
    cases h4
    obtain ⟨p, v, f, l, res, rfl⟩ := execParseUpdate_next h1
    have hkeep := ih h3
    exact hkeep

/-- Outside a frame bytes that are no delimiter are dropped (R130). -/
theorem readBytes_outside (bs : List Byte) {s : State} (h : s.p.inside = false) :
    (readBytes bs s).p.inside = false := by
  induction bs generalizing s with
  | nil => exact h
  | cons b bs ih =>
    refine ih ?_
    rw [readByte, escSymbol, dataSymbol, h]
    split <;> exact h

/-! ### The unescaped bytes of a run (R77, R128) -/

theorem unescape_escape_escape (rest : List Byte) :
    unescape (Config.escapeByte :: Config.escapeByte :: rest) = none := by
  simp [unescape]

theorem unescape_escape_data {c : Byte} (hc : c ≠ Config.escapeByte) (rest : List Byte) :
    unescape (Config.escapeByte :: c :: rest) = (unescape rest).map (~~~c :: ·) := by
  simp [unescape, hc]

theorem unescape_data {b : Byte} (hb : b ≠ Config.escapeByte) (rest : List Byte) :
    unescape (b :: rest) = (unescape rest).map (b :: ·) := by
  rw [unescape.eq_def]
  exact if_neg hb

/-! ### The conditions of a valid frame -/

theorem frameValid_iff {c : Params} {l : List Byte} : frameValid c l = true ↔
    36 ≤ l.length ∧ l.length ≤ 36 + c.maxPayload ∧ byteAt l 0 = Config.frameVersion ∧
    (l.drop 24).take 4 = Config.eotMarker ∧
    residueCorrect c (crcRun c.crcPoly Config.crcInit (l.take 32)) = true ∧
    residueCorrect c (crcRun c.crcPoly Config.crcInit (l.drop 32)) = true := by
  simp [frameValid, and_assoc]

theorem frameTransfer_eq (c : Params) (body : List Byte) :
    frameTransfer c body = ((unescape body).filter (frameValid c)).map transferOf := by
  unfold frameTransfer
  cases unescape body with
  | none => rfl
  | some l => by_cases hl : frameValid c l = true <;> simp [hl]

/-- The bytes of the marker, each at its offset (R139). -/
theorem byteAt_of_marker {l : List Byte} (h : (l.drop 24).take 4 = Config.eotMarker) (k : Fin 4) :
    byteAt l (24 + k) = eotByte k := by
  rw [eotByte, ← h, byteAt]
  simp [List.getD_eq_getElem?_getD, List.getElem?_take_of_lt, List.getElem?_drop]

/-! ### What the parser makes of the frame in progress -/

/-- In the payload region the buffer holds the byte that was stored (R141). -/
theorem State.Holds.payload {s : State} {o : Nat} {e : Byte} (h : s.Holds o e) (ho : 32 ≤ o) :
    s.bufRead (o - 32) = some e := by
  rw [State.Holds, offsetRule_payload ho] at h
  exact h

/-- What a delimiter emits rests on the parameters and the parser alone. -/
theorem emission_congr {s t : State} (hcfg : t.cfg = s.cfg) (hp : t.p = s.p) : emission t = emission s := by
  have hview := payloadView_congr hcfg (congrArg Parser.buf hp)
  have hready : t.emitReady = s.emitReady := by rw [State.emitReady, hcfg, hp]; rfl
  have hlen : t.emitLength = s.emitLength := by rw [State.emitLength, hp]; rfl
  simp only [emission, hready, hlen, hview, hp]

section
variable {s : State} (h : s.FrameChecked)
include h

/-- The last payload byte was read back, so there was room for it (R141). -/
theorem State.FrameChecked.offset_le : s.p.offset ≤ Config.headerSize + s.cfg.bufCap := by
  by_contra hlt
  have hsize : Config.headerSize = 32 := rfl
  have hread := (h.held (s.p.offset - 1) (by omega)).payload (by omega)
  rw [State.bufRead, if_neg (by omega)] at hread
  cases hread

/-- A delimiter emits exactly where the logical bytes of the frame are valid (R126). -/
theorem State.FrameChecked.emitReady_iff_valid (hin : s.p.inside = true) :
    s.emitReady = true ↔ frameValid s.cfg s.frame = true := by
  have hlen := h.length
  have hbound := h.offset_le
  simp only [Params.bufCap, Config.headerSize, Config.crcSize] at hbound
  rw [emitReady_iff, frameValid_iff]
  simp only [hin, true_and, Config.headerSize, Config.crcSize]
  constructor
  · rintro ⟨ho, hcrc⟩
    have hpast : Config.headerSize ≤ s.p.offset := by simp only [Config.headerSize]; omega
    obtain ⟨hversion, hmarker, hres, -⟩ := h.headerChecked hin hpast
    rw [h.crc_region hpast] at hcrc
    exact ⟨by omega, by omega, hversion, hmarker, hres, hcrc⟩
  · rintro ⟨ho, -, -, -, -, hcrc⟩
    have hpast : Config.headerSize ≤ s.p.offset := by simp only [Config.headerSize]; omega
    rw [h.crc_region hpast]
    exact ⟨by omega, hcrc⟩

/-- What a delimiter inside a frame emits: the transfer of the logical bytes, if they are valid (R125). -/
theorem State.FrameChecked.emission_eq (hin : s.p.inside = true) :
    emission s = .next (((some s.frame).filter (frameValid s.cfg)).map transferOf) := by
  have hvalid := h.emitReady_iff_valid hin
  by_cases hready : s.emitReady = true
  · have hlen := h.length
    obtain ⟨-, ho, -⟩ := emitReady_iff.1 hready
    have hpast : Config.headerSize ≤ s.p.offset := Nat.le_trans (Nat.le_add_right _ _) ho
    obtain ⟨-, -, -, hpri, hsrc, hdst, hdspec, htid⟩ := h.headerChecked hin hpast
    have hshort : s.emitLength ≤ s.p.offset - Config.headerSize := by simp only [State.emitLength]; omega
    have hpay : s.payloadView s.emitLength = some ((s.frame.drop 32).take s.emitLength) :=
      bufSlice_take (h.regionChecked hin hpast).1 hshort
    simp only [emission, hready, hpay, hpri, hsrc, hdst, hdspec, htid, Option.filter, hvalid.1 hready, if_true]
    simp [transferOf, State.emitLength, hlen, Config.headerSize, Config.crcSize]
  · have hinvalid : frameValid s.cfg s.frame = false := Bool.eq_false_iff.2 fun hv => hready (hvalid.2 hv)
    simp [emission, hready, hinvalid]

end

/-! ### The logical bytes read so far -/

/-- Inside a frame the parser has read these logical bytes. The ghost of the frame is set to them, so that nothing is
said of the ghost a run starts with. -/
structure State.Reads (s : State) (l : List Byte) : Prop where
  inside : s.p.inside = true
  checked : State.FrameChecked { s with frame := l }

section
variable {s t : State} {l : List Byte}

theorem State.Reads.length (h : s.Reads l) : l.length = s.p.offset := h.checked.length

theorem State.Reads.congr (h : s.Reads l) (hcfg : t.cfg = s.cfg) (hp : ∃ unesc, t.p = { s.p with unesc := unesc }) :
    t.Reads l := by
  refine ⟨?_, h.checked.congr hcfg rfl hp⟩
  obtain ⟨unesc, hp⟩ := hp
  rw [hp]
  exact h.inside

theorem State.Reads.of_start (h : s.atFrameStart = true) : s.Reads [] ∧ s.p.unesc = false := by
  simp only [State.atFrameStart, Bool.and_eq_true, Bool.not_eq_true', beq_iff_eq] at h
  obtain ⟨⟨⟨hin, hunesc⟩, hoff⟩, hcrc⟩ := h
  exact ⟨⟨hin, .of_start hoff rfl hcrc⟩, hunesc⟩

/-- A rule does with another ghost of the frame what it does with this one. -/
theorem Routed.withFrame {e : Byte} {r : OffsetRule} (h : Routed e s r t) (f : List Byte) :
    Routed e { s with frame := f } r { t with frame := f } := by
  cases h with
  | version he => exact .version he
  | priority => exact .priority
  | source k => exact .source k
  | destination k => exact .destination k
  | dataSpec k => exact .dataSpec k
  | reserved k => exact .reserved k
  | transferId k => exact .transferId k
  | eotMarker k he => exact .eotMarker k he
  | headerCrcPart k hk => exact .headerCrcPart k hk
  | headerCrcLast hres => exact .headerCrcLast hres
  | payload i hi => exact .payload i hi

/-- A rule that has stored or checked its byte adds it to the bytes read. -/
theorem State.Reads.routed {e : Byte} (h : s.Reads l)
    (hr : Routed e (absorb e (ageView s)) (offsetRule s.p.offset) t) :
    State.Reads { t with p := { t.p with offset := s.p.offset + 1 } } (l ++ [e]) := by
  obtain ⟨-, hin, -⟩ := hr.keeps
  exact ⟨hin.trans h.inside, h.checked.routed (s1 := { t with frame := l ++ [e] }) (hr.withFrame (l ++ [e]))⟩

/-- No rule abandons a frame that can still become valid: what a rule checks, validity asks for (R132, R139 to
R141). -/
theorem State.Reads.routeByte_inside {e : Byte} {rest : List Byte} (h : s.Reads l)
    (hvalid : frameValid s.cfg (l ++ e :: rest) = true) :
    (routeByte s.p.offset e (absorb e (ageView s))).p.inside = true := by
  obtain ⟨-, hmax, hversion, hmarker, hres, -⟩ := frameValid_iff.1 hvalid
  have hlen := h.length
  have hbyte : byteAt (l ++ e :: rest) s.p.offset = e := by simp [byteAt, ← hlen]
  unfold routeByte
  cases hr : offsetRule s.p.offset with
  | version =>
    rw [offsetRule_eq_iff.1 hr] at hbyte
    dsimp only [decodeVersion]
    rw [if_pos (hbyte.symm.trans hversion)]
    exact h.inside
  | eotMarker k =>
    rw [offsetRule_eq_iff.1 hr] at hbyte
    dsimp only [decodeEotMarker]
    rw [if_pos (hbyte.symm.trans (byteAt_of_marker hmarker k))]
    exact h.inside
  | headerCrc k =>
    dsimp only [decodeHeaderCrc]
    split
    · subst k
      have ho : s.p.offset = 31 := offsetRule_eq_iff.1 hr
      have hhead : (l ++ e :: rest).take 32 = l ++ [e] := by
        rw [List.append_cons, List.take_left' (by simp [hlen, ho])]
      have hcrc : s.p.crc = crcRun s.cfg.crcPoly Config.crcInit l :=
        h.checked.crc_header (by rw [ho]; decide)
      rw [hhead, crcRun_concat, ← hcrc] at hres
      have hcorrect : residueCorrect (absorb e (ageView s)).cfg (absorb e (ageView s)).p.crc = true := hres
      rw [if_pos hcorrect]
      exact h.inside
    · exact h.inside
  | payload i =>
    have ho : s.p.offset = 32 + i := offsetRule_eq_iff.1 hr
    have hroom : i < (absorb e (ageView s)).cfg.bufCap := by
      simp only [List.length_append, List.length_cons] at hmax
      simp only [absorb_cfg, ageView_cfg, Params.bufCap, Config.crcSize]
      omega
    dsimp only [storePayload]
    rw [if_pos hroom]
    exact h.inside
  | _ => exact h.inside

/-- What a parser makes of the logical bytes between the delimiter before it and here: it has read them, or it has
abandoned a frame that has none or is not valid. -/
inductive State.Agrees (s : State) : Option (List Byte) → Prop where
  | reads {l : List Byte} : s.Reads l → s.Agrees (some l)
  | abandoned {o : Option (List Byte)} : s.p.inside = false → o.filter (frameValid s.cfg) = none → s.Agrees o

/-- A delimiter emits the transfer of the bytes the parser agrees with, if they are valid. -/
theorem State.Agrees.emission_eq {o : Option (List Byte)} (h : s.Agrees o) :
    emission s = .next ((o.filter (frameValid s.cfg)).map transferOf) := by
  cases h with
  | @reads l hl =>
    have hghost : emission { s with frame := l } = emission s := emission_congr rfl rfl
    rw [← hghost]
    exact hl.checked.emission_eq hl.inside
  | abandoned hout hnone => rw [hnone]; simp [emission, State.emitReady, hout]

/-! ### A run over the bytes between two delimiters -/

theorem readByte_cfg (b : Byte) (s : State) : (readByte b s).cfg = s.cfg := by
  unfold readByte
  split
  · rcases escSymbol_cases s with ⟨-, hs⟩ | hs | ⟨-, hs⟩ <;> rw [hs] <;> rfl
  · obtain ⟨p, v, f, lbl, hs⟩ := dataSymbol_keeps b s
    rw [hs]; rfl

theorem readBytes_cfg (bs : List Byte) (s : State) : (readBytes bs s).cfg = s.cfg := by
  induction bs generalizing s with
  | nil => rfl
  | cons b bs ih => rw [readBytes, ih, readByte_cfg]

theorem Routed.unesc_eq {e : Byte} {r : OffsetRule} (h : Routed e s r t) : t.p.unesc = s.p.unesc := by
  cases h <;> rfl

/-- An escape byte with none pending leaves one pending and adds nothing to the bytes read (R128). -/
theorem State.Reads.escape (h : s.Reads l) (hunesc : s.p.unesc = false) :
    (readByte Config.escapeByte s).Reads l ∧ (readByte Config.escapeByte s).p.unesc = true := by
  have hs : escSymbol s = { ageView s with p := { s.p with unesc := true } } := by
    simp [escSymbol, escRule, h.inside, hunesc]
  rw [readByte, if_pos rfl, hs]
  exact ⟨h.congr rfl ⟨_, rfl⟩, rfl⟩

/-- A second escape byte abandons the frame (R128). -/
theorem State.Reads.double_escape (h : s.Reads l) (hunesc : s.p.unesc = true) :
    (readByte Config.escapeByte s).p.inside = false := by
  simp [readByte, escSymbol, escRule, h.inside, hunesc]

/-- A data byte adds its logical byte to the bytes read and uses up the pending escape, or it abandons a frame that no
further bytes make valid (R129). -/
theorem State.Reads.data {b : Byte} (h : s.Reads l) (hb : b ≠ Config.escapeByte) :
    ((readByte b s).Reads (l ++ [effectiveByte s.p.unesc b]) ∧ (readByte b s).p.unesc = false) ∨
    ((readByte b s).p.inside = false ∧
      ∀ rest, ¬ frameValid s.cfg (l ++ effectiveByte s.p.unesc b :: rest) = true) := by
  have hs : readByte b s = (advance s.p.offset (routeByte s.p.offset (effectiveByte s.p.unesc b)
      (absorb (effectiveByte s.p.unesc b) (ageView s)))).answer (.transfer none) := by
    rw [readByte, if_neg hb, dataSymbol, if_pos h.inside]; rfl
  have hroute (rest : List Byte) := h.routeByte_inside (e := effectiveByte s.p.unesc b) (rest := rest)
  rw [hs, advance_eq]
  generalize effectiveByte s.p.unesc b = e at hroute
  rcases routeByte_routed s.p.offset e (absorb e (ageView s)) with ⟨c, hc⟩ | hr
  · rw [hc] at hroute ⊢
    exact .inr ⟨rfl, fun rest hvalid => Bool.false_ne_true (hroute rest hvalid)⟩
  · generalize routeByte s.p.offset e (absorb e (ageView s)) = s1 at hr
    obtain ⟨hcfg, hin, -⟩ := hr.keeps
    have hroom := hr.room
    rw [offset_offsetRule, ← hcfg] at hroom
    rw [if_pos (hin.trans h.inside), nextOffset_eq hroom]
    exact .inl ⟨(h.routed hr).congr rfl ⟨_, rfl⟩, hr.unesc_eq⟩

/-- A run that starts with a data byte agrees with the logical bytes if the run after it does. -/
theorem State.Reads.agrees_data {b : Byte} {rest : List Byte} (h : s.Reads l) (hb : b ≠ Config.escapeByte)
    (ih : ∀ {t : State} {l : List Byte}, t.Reads l → t.p.unesc = false →
      (readBytes rest t).Agrees ((unescape rest).map (l ++ ·))) :
    (readBytes (b :: rest) s).Agrees (((unescape rest).map (effectiveByte s.p.unesc b :: ·)).map (l ++ ·)) := by
  rw [readBytes]
  rcases h.data hb with ⟨hreads, hunesc⟩ | ⟨hout, hinvalid⟩
  · simpa [Function.comp_def] using ih hreads hunesc
  · refine .abandoned (readBytes_outside rest hout) ?_
    rw [readBytes_cfg, readByte_cfg, Option.filter_eq_none_iff]
    rintro _ hl
    obtain ⟨l', -, rfl⟩ : ∃ l', unescape rest = some l' ∧ l ++ effectiveByte s.p.unesc b :: l' = _ := by
      simpa using hl
    exact hinvalid l'

/-- The parser agrees with the unescaped bytes of any run, by the recursion of `unescape`: one data byte or one escape
pair at a time. -/
theorem State.Reads.agrees_unescape (body : List Byte) (h : s.Reads l) (hunesc : s.p.unesc = false) :
    (readBytes body s).Agrees ((unescape body).map (l ++ ·)) := by
  induction body using unescape.induct generalizing s l with
  | case1 => simpa [unescape, readBytes] using State.Agrees.reads h
  | case2 => simpa [unescape, readBytes] using State.Agrees.reads (h.escape hunesc).1
  | case3 rest =>
    obtain ⟨h1, hunesc1⟩ := h.escape hunesc
    exact .abandoned (readBytes_outside rest (h1.double_escape hunesc1)) (by rw [unescape_escape_escape]; rfl)
  | case4 c rest hc ih =>
    obtain ⟨h1, hunesc1⟩ := h.escape hunesc
    have hagrees := h1.agrees_data hc ih
    rw [hunesc1] at hagrees
    rw [unescape_escape_data hc]
    exact hagrees
  | case5 b rest hb ih =>
    have hagrees := h.agrees_data hb ih
    rw [hunesc] at hagrees
    rw [unescape_data hb]
    exact hagrees

/-- A delimiter returns what it emits and leaves the parser at the start of the next frame (R125). -/
theorem feed_delim {out : Option Transfer} (h : emission s = .next out) :
    ∃ t, feed [Config.frameDelimiter] s = .next ([.transfer out], t) ∧ t.atFrameStart = true := by
  have hage : emission (ageView s) = .next out := (emission_congr (s := s) (t := ageView s) rfl rfl).trans h
  rw [feed, exec_parseUpdate, execParseUpdate, parserStep, symbolOf_eq_delim.2 rfl]
  dsimp only [delimSymbol]
  rw [delimRule, hage]
  exact ⟨_, rfl, rfl⟩

end

/-- Settles O20: at the delimiter the parser agrees with the unescaped bytes, and emits what they hold. -/
theorem parserRefinesFrameFunction : Obligations.ParserRefinesFrameFunction := by
  intro s body hstart hbody
  obtain ⟨hreads, hunesc⟩ := State.Reads.of_start hstart
  have hagrees : (readBytes body s).Agrees (unescape body) := by simpa using hreads.agrees_unescape body hunesc
  have hemit := hagrees.emission_eq
  rw [readBytes_cfg, ← frameTransfer_eq] at hemit
  obtain ⟨t, ht, htstart⟩ := feed_delim hemit
  have hfeed : feed (body ++ [Config.frameDelimiter]) s = .next (List.replicate body.length (.transfer none) ++
      [.transfer (frameTransfer s.cfg body)], t) := by
    rw [feed_append, feed_eq_readBytes hbody, andThen_next, ht, andThen_next]
  exact ⟨t, hfeed, htstart, feed_keeps hfeed⟩

end Sys2Proof.Machine
end

section
/-! PROOFS of the family 40_crc: a 32-bit value absorbed byte by byte is the value under one run of the one-bit step;
from that the table form of the byte step, the residue and what it detects; and the register of the host-visible
engine over any instructions. -/

namespace Sys2Proof.Machine

/-! ### The byte step (R102) -/

/-- A byte leaves nothing above the lowest eight bits. -/
theorem setWidth_ushiftRight_eight (b : Byte) : b.setWidth 32 >>> 8 = 0#32 := by
  ext i hi
  simp

/-- The one-bit steps over a register and a value: the lowest byte of the value is absorbed by `crc_step`, the rest
shifts out of the way. -/
theorem crcBits_eight_xor (poly r v : Word) : crcBits poly 8 (r ^^^ v) = crcStep poly r (lane v 0) ^^^ (v >>> 8) := by
  have hlow : ∀ i, i < 8 → (v ^^^ (lane v 0).setWidth 32).getLsbD i = false := fun i hi => by
    simp [lane, hi, show i < 32 by omega]
  have hrest : crcBits poly 8 (v ^^^ (lane v 0).setWidth 32) = v >>> 8 := by
    rw [crcBits_of_low_zero poly 8 _ hlow, BitVec.ushiftRight_xor_distrib, setWidth_ushiftRight_eight, BitVec.xor_zero]
  have hsplit : r ^^^ v = (r ^^^ (lane v 0).setWidth 32) ^^^ (v ^^^ (lane v 0).setWidth 32) := by
    rw [BitVec.xor_comm v, BitVec.xor_assoc, ← BitVec.xor_assoc _ _ v, BitVec.xor_self, BitVec.zero_xor]
  rw [hsplit, crcBits_xor, hrest, crcStep]

/-- Settles O2: the register with the byte in it is a value that the zero register absorbs. -/
theorem crcStepHasTableForm : Obligations.CrcStepHasTableForm := by
  intro poly r b
  calc crcStep poly r b
      = crcBits poly 8 (0#32 ^^^ (r ^^^ b.setWidth 32)) := by rw [crcStep, BitVec.zero_xor]
    _ = crcStep poly 0 (lane (r ^^^ b.setWidth 32) 0) ^^^ ((r ^^^ b.setWidth 32) >>> 8) := crcBits_eight_xor ..
    _ = crcStep poly 0 ((r ^^^ b.setWidth 32).setWidth 8) ^^^ (r >>> 8) := by
      rw [BitVec.ushiftRight_xor_distrib, setWidth_ushiftRight_eight, BitVec.xor_zero]; rfl
    _ = (r >>> 8) ^^^ crcStep poly 0 ((r ^^^ b.setWidth 32).setWidth 8) := BitVec.xor_comm ..

/-! ### The run (R106, R107) -/

theorem crcRun_append (poly r : Word) (s t : List Byte) :
    crcRun poly r (s ++ t) = crcRun poly (crcRun poly r s) t := by
  induction s generalizing r with
  | nil => rfl
  | cons b s ih => exact ih _

theorem lane_ushiftRight {w : Nat} (v : BitVec w) (k : Nat) : lane (v >>> (8 * k)) 0 = lane v k := by
  ext i hi
  rw [getElem_lane _ _ _ hi, getElem_lane _ _ _ hi, BitVec.getLsbD_ushiftRight, Nat.mul_zero, Nat.zero_add]

/-- The run over the lowest lanes of a value is the one-bit steps over the value, with the lanes above shifted down. -/
theorem crcBits_xor_eq_crcRun_lanes (poly r v : Word) (n : Nat) :
    crcBits poly (8 * n) (r ^^^ v) = crcRun poly r ((List.range n).map (lane v)) ^^^ (v >>> (8 * n)) := by
  induction n with
  | zero => simp [crcBits, crcRun]
  | succ n ih =>
    rw [Nat.mul_succ, crcBits_add, ih, crcBits_eight_xor, lane_ushiftRight, ← BitVec.shiftRight_add, List.range_succ,
      List.map_append, List.map_singleton, crcRun_concat]

/-- A run over the four bytes of a value is the one-bit steps over the value in the register. -/
theorem crcRun_le32 (poly r v : Word) : crcRun poly r (le32 v) = crcBits poly 32 (r ^^^ v) := by
  have hout : v >>> (8 * 4) = 0#32 := BitVec.ushiftRight_eq_zero (Nat.le_refl 32)
  have h := crcBits_xor_eq_crcRun_lanes poly r v 4
  rw [hout, BitVec.xor_zero] at h
  exact h.symm

/-! ### The residue (R108) -/

theorem residueOf_eq_crcBits (poly : Word) : residueOf poly = crcBits poly 32 Config.crcXorOut :=
  (crcRun_le32 poly 0#32 Config.crcXorOut).trans (by rw [BitVec.zero_xor])

/-- The checksum of the register cancels it, and leaves the residue. -/
theorem crcRun_le32_crcFinal (poly r : Word) : crcRun poly r (le32 (crcFinal r)) = residueOf poly := by
  rw [crcRun_le32, residueOf_eq_crcBits, crcFinal, ← BitVec.xor_assoc, BitVec.xor_self, BitVec.zero_xor]

theorem crcRun_codeword (poly : Word) (s : List Byte) :
    crcRun poly Config.crcInit (codeword poly s) = residueOf poly := by
  rw [codeword, crcRun_append]
  exact crcRun_le32_crcFinal _ _

theorem residueOf_castagnoli : residueOf 0x82F63B78 = 0xB798B438 := by
  simp [residueOf, crcRun, crcStep, crcBits, crcBit]

/-- Settles O4: the checksum cancels the register and leaves the 32 one-bits of `CRC_XOROUT`. -/
theorem residueDoesNotDependOnMessage : Obligations.ResidueDoesNotDependOnMessage := by
  refine ⟨fun poly r0 s => crcRun_le32_crcFinal poly (crcRun poly r0 s), fun poly => ⟨rfl, ?_⟩, residueOf_castagnoli⟩
  have hzero : crcRun poly 0xFFFFFFFF (le32 0#32) = crcBits poly 32 0xFFFFFFFF := by
    rw [crcRun_le32, BitVec.xor_zero]
  exact (residueOf_eq_crcBits poly).trans hzero.symm

/-! ### Detection (R109, R111) -/

/-- The 32-bit value of four bytes, least significant first. -/
def of32 (b0 b1 b2 b3 : Byte) : Word := b3 ++ b2 ++ b1 ++ b0

@[simp] theorem le32_of32 (b0 b1 b2 b3 : Byte) : le32 (of32 b0 b1 b2 b3) = [b0, b1, b2, b3] := by
  unfold le32 of32
  repeat rw [lane_append_succ]
  repeat rw [lane_append_zero]
  rw [lane_byte]

/-- A sequence of at least 4 bytes ends in the bytes of some value. -/
theorem exists_eq_append_le32 {l : List Byte} (h : 4 ≤ l.length) : ∃ s v, l = s ++ le32 v := by
  have hlen : (l.drop (l.length - 4)).length = 4 := by rw [List.length_drop]; omega
  obtain ⟨b0, b1, b2, b3, hl⟩ := List.length_eq_four.1 hlen
  refine ⟨l.take (l.length - 4), of32 b0 b1 b2 b3, ?_⟩
  rw [le32_of32, ← hl, List.take_append_drop]

section
variable {poly : Word} (hp : poly.getLsbD 31 = true)
include hp

theorem crcBits_injective (k : Nat) : Function.Injective (crcBits poly k) := fun x y h =>
  BitVec.xor_eq_zero_iff.1 (crcBits_eq_zero hp k (by rw [crcBits_xor, h, BitVec.xor_self]; rfl))

theorem crcStep_injective (b : Byte) : Function.Injective (crcStep poly · b) := fun _ _ h =>
  (BitVec.xor_left_inj _).1 (crcBits_injective hp 8 h)

theorem crcStep_byte_injective (r : Word) : Function.Injective (crcStep poly r) := fun b c h => by
  have hw : b.setWidth 32 = c.setWidth 32 := (BitVec.xor_right_inj _).1 (crcBits_injective hp 8 h)
  simpa using congrArg (BitVec.setWidth 8) hw

theorem crcRun_injective (l : List Byte) : Function.Injective (crcRun poly · l) := by
  induction l with
  | nil => exact fun _ _ h => h
  | cons b l ih => exact ih.comp (crcStep_injective hp b)

/-- The residue is left by the checksum of the register and by no other 32 bits. -/
theorem crcRun_le32_eq_residueOf {r v : Word} : crcRun poly r (le32 v) = residueOf poly ↔ v = crcFinal r := by
  constructor
  · intro h
    rw [← crcRun_le32_crcFinal poly r, crcRun_le32, crcRun_le32] at h
    exact (BitVec.xor_right_inj _).1 (crcBits_injective hp 32 h)
  · rintro rfl
    exact crcRun_le32_crcFinal poly r

theorem crcRun_eq_residueOf {l : List Byte} (hl : 4 ≤ l.length) :
    crcRun poly Config.crcInit l = residueOf poly ↔ ∃ s, l = codeword poly s := by
  constructor
  · intro h
    obtain ⟨s, v, rfl⟩ := exists_eq_append_le32 hl
    rw [crcRun_append, crcRun_le32_eq_residueOf hp] at h
    exact ⟨s, by rw [h]; rfl⟩
  · rintro ⟨s, rfl⟩
    exact crcRun_codeword poly s

/-- A change of one byte changes the run. -/
theorem crcRun_modify_ne {f : Byte → Byte} (hf : ∀ b, f b ≠ b) (l : List Byte) (i : Nat) (hi : i < l.length) (r : Word) :
    crcRun poly r (l.modify i f) ≠ crcRun poly r l := by
  induction l generalizing i r with
  | nil => exact absurd hi (Nat.not_lt_zero i)
  | cons b l ih =>
    cases i with
    | zero => exact fun h => hf b (crcStep_byte_injective hp r (crcRun_injective hp l h))
    | succ i => exact ih i (Nat.lt_of_succ_lt_succ hi) (crcStep poly r b)

end

/-- Inverting one bit changes the byte. -/
theorem xor_bit_ne (b : Byte) (n : Nat) : b ^^^ (1#8 <<< (n % 8)) ≠ b := fun h => by
  have hbit := congrArg (·.getLsbD (n % 8)) h
  simp [Nat.mod_lt] at hbit

/-- Settles O5: the steps are injective, so the last four bytes have to be the checksum, and a changed byte is never
made good by the bytes after it. -/
theorem residueHoldsExactlyForCodewords : Obligations.ResidueHoldsExactlyForCodewords := by
  intro c hp
  refine ⟨fun l hl => crcRun_eq_residueOf hp hl, fun s n hn => ?_⟩
  rw [← crcRun_codeword c.crcPoly s]
  exact crcRun_modify_ne hp (xor_bit_ne · n) _ _ (by omega) _

/-! ### The host-visible engine (R101, R103 to R106) -/

/-- Settles O1, by the meaning of each operation. -/
theorem crcOperationsComplete : Obligations.CrcOperationsComplete :=
  fun _ _ => ⟨rfl, rfl, rfl, rfl⟩

theorem updatesSinceReset_cons (given : List Byte) (i : Instr) (is : List Instr) :
    updatesSinceReset given (i :: is) = updatesSinceReset (updatesSinceReset given [i]) is := by
  cases i <;> rfl

/-- An instruction that is neither the reset nor the update gives the engine no byte. -/
theorem updatesSinceReset_singleton {i : Instr} (given : List Byte) (hreset : i ≠ .crcReset)
    (hupdate : ∀ b, i ≠ .crcUpdate b) : updatesSinceReset given [i] = given := by
  rw [updatesSinceReset, updatesSinceReset]
  · exact hreset
  · exact hupdate

/-- One instruction that completes keeps the register the run over the bytes given to it. -/
theorem exec_u_eq_crcRun {i : Instr} {s t : State} {given : List Byte}
    (hu : s.u = crcRun s.cfg.crcPoly Config.crcInit given) (h : exec i s = .next t) :
    t.u = crcRun t.cfg.crcPoly Config.crcInit (updatesSinceReset given [i]) := by
  obtain ⟨hcfg, hwriters, -⟩ := registersKeepTheirWriters i s t h
  by_cases hreset : i = .crcReset
  · subst hreset; cases h; rfl
  by_cases hupdate : ∃ b, i = .crcUpdate b
  · obtain ⟨b, rfl⟩ := hupdate
    cases h
    exact (congrArg (crcStep s.cfg.crcPoly · b) hu).trans (crcRun_concat _ _ _ _).symm
  · have hkept : t.u = s.u := by_contra fun hne => (hwriters hne).elim hreset hupdate
    rw [hkept, hu, hcfg, updatesSinceReset_singleton given hreset (not_exists.1 hupdate)]

/-- Settles O3, by induction over the instructions. -/
theorem crcRegisterIsRunSinceReset : Obligations.CrcRegisterIsRunSinceReset := by
  refine ⟨fun _ _ => rfl, crcRun_append, ?_, fun s t given is hu h => ?_⟩
  · rintro c s x (rfl | rfl) <;> rfl
  induction is generalizing s given with
  | nil => cases h; exact hu
  | cons i is ih =>
    obtain ⟨s1, h1, h2⟩ := andThen_eq_next.1 h
    have hcfg : s1.cfg = s.cfg := (registersKeepTheirWriters i s s1 h1).1
    rw [updatesSinceReset_cons, ← hcfg]
    exact ih s1 _ (exec_u_eq_crcRun hu h1) h2

end Sys2Proof.Machine
end

section
/-! PROOFS of the family 41_parser: each symbol and each decoding rule from every state; the parser's transitions under
the invariant; and what it makes of whole frames, through `parserRefinesFrameFunction`. -/

namespace Sys2Proof.Machine

/-! ### The frame of a transfer (R70, R71, R77, R171) -/

@[simp] theorem length_le32 (v : Word) : (le32 v).length = 4 := rfl

@[simp] theorem length_headerBytes (t : Transfer) : (headerBytes t).length = 28 := rfl

@[simp] theorem length_codeword (poly : Word) (s : List Byte) : (codeword poly s).length = s.length + 4 := by
  simp [codeword]

/-- The escape form holds no delimiter (R77). -/
theorem delimiter_notMem_escapeForm (v : Byte) : Config.frameDelimiter ∉ escapeForm v := by
  unfold escapeForm needsEscape
  split_ifs with h
  · rw [Bool.or_eq_true, beq_iff_eq, beq_iff_eq] at h
    rcases h with rfl | rfl <;> decide
  · rw [List.mem_singleton]
    rintro rfl
    exact h rfl

/-- Unescaping the escape form of a byte gives the byte back (R77). -/
theorem unescape_escapeForm_append (v : Byte) (rest : List Byte) :
    unescape (escapeForm v ++ rest) = (unescape rest).map (v :: ·) := by
  unfold escapeForm needsEscape
  split_ifs with h
  · have hv : ~~~v ≠ Config.escapeByte := by
      rw [Bool.or_eq_true, beq_iff_eq, beq_iff_eq] at h
      rcases h with rfl | rfl <;> decide
    exact (unescape_escape_data hv rest).trans (by rw [BitVec.not_not])
  · refine unescape_data ?_ rest
    rintro rfl
    exact h rfl

theorem unescape_flatMap_escapeForm (l : List Byte) : unescape (l.flatMap escapeForm) = some l := by
  induction l with
  | nil => rfl
  | cons v l ih => rw [List.flatMap_cons, unescape_escapeForm_append, ih]; rfl

/-- The header codeword is the first 32 logical bytes, and the payload codeword the others (R70). -/
theorem take_logicalBytes (poly : Word) (t : Transfer) :
    (logicalBytes poly t).take 32 = codeword poly (headerBytes t) := List.take_left' (length_codeword _ _)

theorem drop_logicalBytes (poly : Word) (t : Transfer) :
    (logicalBytes poly t).drop 32 = codeword poly t.payload := List.drop_left' (length_codeword _ _)

theorem length_logicalBytes (poly : Word) (t : Transfer) :
    (logicalBytes poly t).length = 36 + t.payload.length := by
  simp [logicalBytes]
  omega

theorem residueCorrect_codeword (c : Params) (s : List Byte) :
    residueCorrect c (crcRun c.crcPoly Config.crcInit (codeword c.crcPoly s)) = true :=
  beq_iff_eq.2 (crcRun_codeword _ _)

/-- The logical bytes of a transfer no longer than the maximum are a valid frame (R171). -/
theorem frameValid_logicalBytes {c : Params} {t : Transfer} (h : t.payload.length ≤ c.maxPayload) :
    frameValid c (logicalBytes c.crcPoly t) = true := by
  rw [frameValid_iff, take_logicalBytes, drop_logicalBytes, length_logicalBytes]
  exact ⟨Nat.le_add_right _ _, Nat.add_le_add_left h _, rfl, rfl, residueCorrect_codeword _ _,
    residueCorrect_codeword _ _⟩

/-- The logical bytes of a transfer hold the transfer: each field from its lanes (R71, R164). -/
theorem transferOf_logicalBytes (poly : Word) (t : Transfer) : transferOf (logicalBytes poly t) = t := by
  have hsrc : (transferOf (logicalBytes poly t)).src = t.src := of16_lanes t.src
  have hdst : (transferOf (logicalBytes poly t)).dst = t.dst := of16_lanes t.dst
  have hdspec : (transferOf (logicalBytes poly t)).dspec = t.dspec := of16_lanes t.dspec
  have htid : (transferOf (logicalBytes poly t)).tid = t.tid := of64_lanes t.tid
  have hpayload : (transferOf (logicalBytes poly t)).payload = t.payload := by
    rw [transferOf, drop_logicalBytes, length_logicalBytes, Nat.add_sub_cancel_left]
    exact List.take_left' rfl
  calc transferOf (logicalBytes poly t)
    _ = { pri := t.pri
          src := (transferOf (logicalBytes poly t)).src
          dst := (transferOf (logicalBytes poly t)).dst
          dspec := (transferOf (logicalBytes poly t)).dspec
          tid := (transferOf (logicalBytes poly t)).tid
          payload := (transferOf (logicalBytes poly t)).payload } := rfl
    _ = t := by rw [hsrc, hdst, hdspec, htid, hpayload]

/-- The bytes between the two delimiters of a frame (R70). -/
def frameBody (poly : Word) (t : Transfer) : List Byte := (logicalBytes poly t).flatMap escapeForm

theorem frameOf_eq (poly : Word) (t : Transfer) :
    frameOf poly t = [Config.frameDelimiter] ++ (frameBody poly t ++ [Config.frameDelimiter]) := rfl

theorem delimiter_notMem_frameBody (poly : Word) (t : Transfer) : Config.frameDelimiter ∉ frameBody poly t := by
  rw [frameBody, List.mem_flatMap]
  rintro ⟨v, -, hv⟩
  exact delimiter_notMem_escapeForm v hv

/-- Between the delimiters a frame holds its transfer (R171). -/
theorem frameTransfer_frameBody {c : Params} {t : Transfer} (h : t.payload.length ≤ c.maxPayload) :
    frameTransfer c (frameBody c.crcPoly t) = some t := by
  rw [frameTransfer, frameBody, unescape_flatMap_escapeForm]
  exact (if_pos (frameValid_logicalBytes h)).trans (congrArg some (transferOf_logicalBytes _ _))

/-! ### The delimiter (R125, R126, R142) -/

section
variable {s : State}

theorem emission_of_ready {payload : List Byte} (h : s.emitReady = true)
    (hpay : s.payloadView s.emitLength = some payload) :
    emission s = .next (some
      { pri := s.p.pri
        src := s.p.src
        dst := s.p.dst
        dspec := s.p.dspec
        tid := s.p.tid
        payload := payload }) := by
  simp [emission, h, hpay]

theorem emission_of_unwritten (h : s.emitReady = true) (hpay : s.payloadView s.emitLength = none) :
    emission s = .fault .bufferByteUnwritten := by
  simp [emission, h, hpay]

theorem emission_of_not_ready (h : s.emitReady = false) : emission s = .next none := by
  simp [emission, h]

theorem emission_of_outside (h : s.p.inside = false) : emission s = .next none :=
  emission_of_not_ready (by simp [State.emitReady, h])

theorem emission_ageView (s : State) : emission (ageView s) = emission s := emission_congr rfl rfl

/-- The three conditions of a delimiter that emits, in numbers (R125). -/
theorem emitReady_iff_residueOf :
    s.emitReady = true ↔ s.p.inside = true ∧ 36 ≤ s.p.offset ∧ s.p.crc = residueOf s.cfg.crcPoly := by
  rw [emitReady_iff, residueCorrect, beq_iff_eq]
  rfl

theorem emitReady_eq_false_iff :
    s.emitReady = false ↔ ¬(s.p.inside = true ∧ 36 ≤ s.p.offset ∧ s.p.crc = residueOf s.cfg.crcPoly) := by
  rw [← emitReady_iff_residueOf, Bool.not_eq_true]

/-- A delimiter returns what it emits and reopens the parser, whatever it emits (R125). -/
theorem execSymDelim_of_emission {out : Option Transfer} (h : emission s = .next out) :
    ∃ v l, execSymDelim s = .next { s with
      p := { s.p.cleared with inside := true }
      view := v
      frame := []
      labels := l
      result := .transfer out } := by
  rw [execSymDelim, delimSymbol, delimRule, emission_ageView, h]
  cases out with
  | some r => exact ⟨_, _, rfl⟩
  | none =>
    obtain ⟨l, hl⟩ := noteClose_eq (ageView s)
    rw [andThen_next, hl]
    exact ⟨_, l, rfl⟩

theorem execSymDelim_of_fault {f : Fault} (h : emission s = .fault f) : execSymDelim s = .fault f := by
  rw [execSymDelim, delimSymbol, delimRule, emission_ageView, h]
  rfl

end

/-- Settles O8: what a delimiter emits, case by case, and the reopening that is the same in each. -/
theorem delimiterEmitsAndReopens : Obligations.DelimiterEmitsAndReopens := by
  refine fun s => ⟨fun payload hin ho hcrc hpay => ?_, fun hnot => ?_, fun hin ho hcrc hpay => ?_⟩
  · have hemit := emission_of_ready (emitReady_iff_residueOf.2 ⟨hin, ho, hcrc⟩) hpay
    obtain ⟨v, l, ht⟩ := execSymDelim_of_emission hemit
    exact ⟨_, ht, rfl, rfl, rfl, rfl, rfl, rfl, rfl⟩
  · obtain ⟨v, l, ht⟩ := execSymDelim_of_emission (emission_of_not_ready (emitReady_eq_false_iff.2 hnot))
    exact ⟨_, ht, rfl, rfl, rfl, rfl, rfl, rfl, rfl⟩
  · exact execSymDelim_of_fault (emission_of_unwritten (emitReady_iff_residueOf.2 ⟨hin, ho, hcrc⟩) hpay)


/-- The state with this pending escape (R23). -/
def State.withUnesc (x : Bool) (s : State) : State := { s with p := { s.p with unesc := x } }

section
variable (x : Bool) (s : State)

@[simp] theorem withUnesc_emitReady : (s.withUnesc x).emitReady = s.emitReady := rfl
@[simp] theorem withUnesc_emitLength : (s.withUnesc x).emitLength = s.emitLength := rfl
@[simp] theorem withUnesc_payloadView (n : Nat) : (s.withUnesc x).payloadView n = s.payloadView n :=
  payloadView_congr (s := s.withUnesc x) (t := s) rfl rfl n

theorem emission_withUnesc : emission (s.withUnesc x) = emission s := by
  simp only [emission, withUnesc_emitReady, withUnesc_emitLength, withUnesc_payloadView]
  rfl

theorem noteClose_withUnesc : noteClose (s.withUnesc x) = (noteClose s).withUnesc x := by
  rw [noteClose, noteClose, apply_ite (State.withUnesc x), apply_ite (State.withUnesc x)]
  rfl

/-- No part of a delimiter's rule reads the pending escape, and the reopening clears it (R142). -/
theorem delimRule_withUnesc : delimRule (s.withUnesc x) = delimRule s := by
  rw [delimRule, delimRule, emission_withUnesc]
  cases emission s with
  | next out =>
    cases out with
    | some r => rfl
    | none => rw [andThen_next, andThen_next, noteClose_withUnesc]; rfl
  | fault f => rfl
  | refused r => rfl

theorem execSymDelim_withUnesc : execSymDelim (s.withUnesc x) = execSymDelim s :=
  congrArg (andThen · answerTransfer) (delimRule_withUnesc x (ageView s))

end

/-- Settles O9: with either flag a delimiter does what it does in the state itself. -/
theorem delimiterIgnoresPendingEscape : Obligations.DelimiterIgnoresPendingEscape :=
  fun s x y => (execSymDelim_withUnesc x s).trans (execSymDelim_withUnesc y s).symm

/-! ### The escape symbol (R128, R130) -/

section
variable {s : State}

theorem escSymbol_of_outside (h : s.p.inside = false) : escSymbol s = dropByte (ageView s) := by
  simp [escSymbol, h]

theorem escSymbol_of_pending (h : s.p.inside = true) (hunesc : s.p.unesc = true) :
    escSymbol s = abandon .abDoubleEsc (ageView s) := by
  simp [escSymbol, escRule, h, hunesc]

theorem escSymbol_of_not_pending (h : s.p.inside = true) (hunesc : s.p.unesc = false) :
    escSymbol s = { ageView s with p := { s.p with unesc := true } } := by
  simp [escSymbol, escRule, h, hunesc]

end

/-- What an escape symbol makes of the parser. -/
theorem escSymbol_p (s : State) : (escSymbol s).p = if s.p.inside = true then
    (if s.p.unesc = true then s.p.cleared else { s.p with unesc := true }) else s.p := by
  split_ifs with hin hunesc
  · rw [escSymbol_of_pending hin hunesc]; rfl
  · rw [escSymbol_of_not_pending hin (Bool.eq_false_iff.2 hunesc)]
  · rw [escSymbol_of_outside (Bool.eq_false_iff.2 hin)]; rfl

/-- An escape symbol keeps everything but the parser, the view and the ghosts of the frame and the labels. -/
theorem escSymbol_keeps (s : State) :
    ∃ p v f l, escSymbol s = { s with p := p, view := v, frame := f, labels := l } := by
  rcases escSymbol_cases s with ⟨-, hs⟩ | hs | ⟨-, hs⟩ <;> rw [hs] <;> exact ⟨_, _, _, _, rfl⟩

/-- Settles O10: the parser by `escSymbol_p`, the rest by `escSymbol_keeps`. -/
theorem escapeSymbolSetsOrAbandons : Obligations.EscapeSymbolSetsOrAbandons := by
  intro s
  have hp := escSymbol_p s
  obtain ⟨p, v, f, l, hs⟩ := escSymbol_keeps s
  refine ⟨_, rfl, rfl, hp, ?_⟩
  rw [hs]
  exact ⟨rfl, rfl, rfl, rfl, rfl⟩

/-! ### The data symbol (R129, R130) -/

theorem dataSymbol_of_outside {s : State} (b : Byte) (h : s.p.inside = false) :
    dataSymbol b s = dropByte (ageView s) := by
  simp [dataSymbol, h]

/-- Inside a frame a data symbol absorbs its logical byte, routes it and advances (R129). -/
theorem dataSymbol_of_inside {s : State} (b : Byte) (h : s.p.inside = true) :
    dataSymbol b s = advance s.p.offset
      (routeByte s.p.offset (effectiveByte s.p.unesc b) (absorb (effectiveByte s.p.unesc b) (ageView s))) :=
  if_pos h

theorem routeByte_cfg (o : Nat) (e : Byte) (s : State) : (routeByte o e s).cfg = s.cfg := by
  obtain ⟨p, f, l, hs⟩ := routeByte_keeps o e s
  rw [hs]

/-- The offset advances after a rule that has not abandoned the frame; the rule has kept the parameters (R129). -/
theorem advance_routeByte (o : Nat) (e : Byte) (s : State) :
    advance o (routeByte o e s) = { routeByte o e s with
      p := if (routeByte o e s).p.inside then { (routeByte o e s).p with offset := nextOffset s.cfg o }
        else (routeByte o e s).p } := by
  rw [advance_eq, ← routeByte_cfg o e s]

/-- The counter wraps at no byte that its rule has accepted (R150, R151). -/
theorem nextOffset_of_routeByte_inside {o : Nat} {e : Byte} {s : State} (h : (routeByte o e s).p.inside = true) :
    nextOffset s.cfg o = o + 1 := by
  rcases routeByte_routed o e s with ⟨c, hc⟩ | hr
  · rw [hc] at h
    cases h
  · have hroom := hr.room
    rw [offset_offsetRule] at hroom
    exact nextOffset_eq hroom

/-- Settles O11: the states before and after the routing are those of `dataRule`. -/
theorem dataSymbolRunsItsOffset : Obligations.DataSymbolRunsItsOffset := by
  intro s b hin
  refine ⟨_, absorb (effectiveByte s.p.unesc b) (ageView s), _, rfl, rfl, rfl, rfl, rfl, rfl, rfl, rfl,
    exec_decodeOffset _ _ _, ?_, nextOffset_of_routeByte_inside⟩
  rw [exec_symData, execSymData, dataSymbol_of_inside b hin, advance_routeByte]
  rfl

/-- A rule writes no byte of the buffer but the one of its own offset, and none in the header (R57). -/
theorem Routed.bufRead_other {e : Byte} {s s' : State} {r : OffsetRule} (h : Routed e s r s') {a : Nat}
    (ha : r.offset < 32 ∨ a ≠ r.offset - 32) : s'.bufRead a = s.bufRead a := by
  cases h with
  | payload i => exact bufRead_bufWrite_other (by simp only [OffsetRule.offset, Config.headerSize] at ha; omega)
  | _ => rfl

theorem dataSymbol_bufRead_other {a : Nat} (b : Byte) {s : State} (ha : s.p.offset < 32 ∨ a ≠ s.p.offset - 32) :
    (dataSymbol b s).bufRead a = s.bufRead a := by
  rcases dataSymbol_cases b s with ⟨-, hs⟩ | ⟨c, e, hs⟩ | ⟨e, s1, -, hr, hs⟩ <;> rw [hs]
  · rfl
  · rfl
  · exact hr.bufRead_other (by rwa [offset_offsetRule])

/-- Settles O12: the parser and its buffer by the cases of a data symbol, the rest by `dataSymbol_keeps`. -/
theorem dataSymbolFrame : Obligations.DataSymbolFrame := by
  intro s b
  have hbuf := fun a => dataSymbol_bufRead_other (a := a) b (s := s)
  have hout : s.p.inside = false → (dataSymbol b s).p = s.p := fun h => by rw [dataSymbol_of_outside b h]; rfl
  obtain ⟨p, v, f, l, hs⟩ := dataSymbol_keeps b s
  rw [exec_symData, execSymData]
  rw [hs] at hbuf hout ⊢
  exact ⟨_, rfl, rfl, hout, rfl, rfl, rfl, rfl, rfl, hbuf⟩

/-! ### The decoding rules (R132 to R141) -/

theorem abandon_eq (c : Cause) (s : State) :
    abandon c s = { s with p := { Parser.reset with buf := s.p.buf }, frame := [], labels := c :: s.labels } := rfl

/-- The marker byte by its position (R139). -/
theorem eotByte_eq (k : Fin 4) : eotByte k = if k = 3 then 0x80 else 0x00 := by
  fin_cases k <;> rfl

/-- Settles O13: each check goes on or abandons. -/
theorem headerChecksPassOrAbandon : Obligations.HeaderChecksPassOrAbandon := by
  refine fun s e => ⟨⟨Cause.abVersion :: s.labels, ?_⟩, fun k => ⟨Cause.abEot :: s.labels, ?_⟩, fun k hk => ?_,
    ⟨Cause.abHdrCrc :: s.labels, ?_⟩⟩
  · rw [exec_hdrVersion, execHdrVersion, decodeVersion, abandon_eq]
    rfl
  · rw [exec_hdrEotMarker, execHdrEotMarker, decodeEotMarker, eotByte_eq, abandon_eq]
  · exact congrArg Host.Outcome.next (if_neg hk)
  · rw [exec_hdrCrc, execHdrCrc, decodeHeaderCrc, if_pos rfl, residueCorrect, abandon_eq]
    simp only [beq_iff_eq]

/-- A lane written in a register of `n` lanes, and the other lanes kept. -/
theorem extractLsb'_setLane {w n : Nat} (v : BitVec w) (k : Fin n) (e : Byte) (hw : 8 * n ≤ w) (j : Nat)
    (hj : j < n) : (setLane v k e).extractLsb' (8 * j) 8 = if j = k.val then e else v.extractLsb' (8 * j) 8 :=
  lane_setLane v k j e (by omega)

/-- Settles O14: each rule is a `setLane` of its register. -/
theorem headerBytesReplaceTheirLane : Obligations.HeaderBytesReplaceTheirLane :=
  fun s e => ⟨rfl,
    fun k => ⟨_, rfl, extractLsb'_setLane s.p.src k e (by decide)⟩,
    fun k => ⟨_, rfl, extractLsb'_setLane s.p.dst k e (by decide)⟩,
    fun k => ⟨_, rfl, extractLsb'_setLane s.p.dspec k e (by decide)⟩,
    fun k => ⟨_, rfl, extractLsb'_setLane s.p.tid k e (by decide)⟩⟩

/-- Settles O15, by the rule's meaning. -/
theorem reservedByteChangesNothing : Obligations.ReservedByteChangesNothing :=
  fun s k e => exec_hdrReserved k e s

theorem storePayload_of_room {s : State} {i : Nat} (e : Byte) (h : i < s.cfg.bufCap) :
    storePayload i e s = s.bufWrite i e := if_pos h

theorem storePayload_of_full {s : State} {i : Nat} (e : Byte) (h : s.cfg.bufCap ≤ i) :
    storePayload i e s = abandon .abOverflow s := if_neg (Nat.not_lt.2 h)

/-- Settles O17: `MAX_PAYLOAD + 4` is `BUF_CAP`. -/
theorem payloadByteStoredOrOverflow : Obligations.PayloadByteStoredOrOverflow := by
  intro s i e
  rw [exec_payloadStore, execPayloadStore]
  constructor
  · intro hi
    have hroom : i < s.cfg.bufCap := hi
    rw [storePayload_of_room e hroom]
    refine ⟨_, rfl, ?_⟩
    rintro _ ⟨⟩
    exact ⟨by rw [bufRead_bufWrite, if_pos rfl, if_pos hroom], fun a ha => bufRead_bufWrite_other ha⟩
  · intro hi
    rw [storePayload_of_full e hi, abandon_eq]
    exact ⟨_, rfl⟩

/-! ### `PARSE.RESET` and `PARSE.UPDATE` (R123, R124) -/

/-- Settles O6: `parserClear` written out. -/
theorem parseResetClearsTheParser : Obligations.ParseResetClearsTheParser :=
  fun s => exec_parseReset s

/-- Settles O7, symbol by symbol. -/
theorem parseUpdateRunsItsSymbol : Obligations.ParseUpdateRunsItsSymbol := by
  intro s b
  rw [exec_parseUpdate, ← exec_decodeWire, decodeWire]
  split_ifs with hdelim hesc
  · rw [symbolOf_eq_delim.2 hdelim]
  · rw [symbolOf_eq_esc.2 hesc]
  · rw [symbolOf_eq_data.2 ⟨hdelim, hesc⟩]

/-! ### The transitions of the sequencer (R147) -/

/-- The sequencer triple of R147. -/
def State.sequencer (s : State) : Bool × Bool × Nat := (s.p.inside, s.p.unesc, s.p.offset)

/-- Whether a rule accepts its logical byte, with `P.crc` already fed (R132 to R141); else it abandons the frame. -/
def OffsetRule.accepts (c : Params) (crc : Word) (e : Byte) : OffsetRule → Bool
  | .version => e == Config.frameVersion
  | .eotMarker k => e == eotByte k
  | .headerCrc k => decide (k ≠ 3) || residueCorrect c crc
  | .payload i => decide (i < c.bufCap)
  | _ => true

/-- Routing a byte stays inside a frame exactly where its rule accepts the byte. -/
theorem routeByte_inside (o : Nat) (e : Byte) (s : State) :
    (routeByte o e s).p.inside = (s.p.inside && (offsetRule o).accepts s.cfg s.p.crc e) := by
  unfold routeByte
  cases offsetRule o with
  | version => by_cases h : e = Config.frameVersion <;> simp [decodeVersion, OffsetRule.accepts, h]
  | eotMarker k => by_cases h : e = eotByte k <;> simp [decodeEotMarker, OffsetRule.accepts, h]
  | headerCrc k =>
    by_cases hk : k = 3
    · cases h : residueCorrect s.cfg s.p.crc <;> simp [decodeHeaderCrc, OffsetRule.accepts, hk, h]
    · simp [decodeHeaderCrc, OffsetRule.accepts, hk]
  | payload i => by_cases h : i < s.cfg.bufCap <;> simp [storePayload, OffsetRule.accepts, h]
  | _ => exact (Bool.and_true _).symm

/-- A data symbol inside a frame advances the offset where its rule accepts the logical byte, else it abandons the
frame. -/
theorem sequencer_dataSymbol {s : State} (b : Byte) (hin : s.p.inside = true) :
    (dataSymbol b s).sequencer =
      if (offsetRule s.p.offset).accepts s.cfg (crcStep s.cfg.crcPoly s.p.crc (effectiveByte s.p.unesc b))
          (effectiveByte s.p.unesc b) = true
      then (true, false, s.p.offset + 1) else (false, false, 0) := by
  rw [dataSymbol_of_inside b hin, advance_routeByte]
  generalize effectiveByte s.p.unesc b = e
  have hroute := routeByte_inside s.p.offset e (absorb e (ageView s))
  have hnext := nextOffset_of_routeByte_inside (o := s.p.offset) (e := e) (s := absorb e (ageView s))
  simp only [absorb_p, absorb_cfg, ageView_p, ageView_cfg, hin, Bool.true_and] at hroute hnext
  rw [← hroute]
  rcases routeByte_routed s.p.offset e (absorb e (ageView s)) with ⟨c, hc⟩ | hr
  · rw [hc]
    rfl
  · obtain ⟨-, hin1, -⟩ := hr.keeps
    have hin2 := hin1.trans hin
    rw [if_pos hin2, if_pos hin2]
    exact Prod.ext hin2 (Prod.ext hr.unesc_eq (hnext hin2))

/-- The rows of the table in which a data symbol abandons its frame: those whose rule does not accept the byte. -/
theorem accepts_offsetRule_iff {c : Params} {crc : Word} {e : Byte} {o : Nat} (ho : o ≤ 32 + c.bufCap) :
    (offsetRule o).accepts c crc e = true ↔
      ¬((o = 0 ∧ e ≠ 0x00) ∨ (24 ≤ o ∧ o ≤ 27 ∧ e ≠ if o = 27 then 0x80 else 0x00) ∨
        (o = 31 ∧ crc ≠ residueOf c.crcPoly) ∨ o = 32 + c.bufCap) := by
  cases hr : offsetRule o with
  | version =>
    have hoff : o = 0 := offsetRule_eq_iff.1 hr
    have hroom : 0 ≠ 32 + c.bufCap := by omega
    simp [OffsetRule.accepts, Config.frameVersion, hoff, hroom]
  | eotMarker k =>
    have hoff : o = 24 + k := offsetRule_eq_iff.1 hr
    have hlast : o = 27 ↔ k = 3 := by omega
    have hrange : 24 ≤ o ∧ o ≤ 27 := by omega
    have hother : o ≠ 0 ∧ o ≠ 31 ∧ o ≠ 32 + c.bufCap := by omega
    simp [OffsetRule.accepts, eotByte_eq, hlast, hrange, hother]
  | headerCrc k =>
    have hoff : o = 28 + k := offsetRule_eq_iff.1 hr
    have hlast : o = 31 ↔ k = 3 := by omega
    have hother : o ≠ 0 ∧ ¬o ≤ 27 ∧ o ≠ 32 + c.bufCap := by omega
    simp [OffsetRule.accepts, residueCorrect, hlast, hother, Decidable.imp_iff_not_or]
  | payload i =>
    have hoff : o = 32 + i := offsetRule_eq_iff.1 hr
    simp only [OffsetRule.accepts, decide_eq_true_eq]
    omega
  | _ =>
    have hoff := offsetRule_eq_iff.1 hr
    simp only [OffsetRule.offset, OffsetRule.accepts, true_iff] at hoff ⊢
    omega

/-- Under the invariant a delimiter emits a transfer of this length, or its condition does not hold. -/
theorem State.Inv.emission_cases {s : State} (h : s.Inv) :
    (s.emitReady = true ∧ ∃ r, emission s = .next (some r) ∧ r.payload.length = s.p.offset - 36) ∨
    (s.emitReady = false ∧ emission s = .next none) := by
  cases hready : s.emitReady with
  | false => exact .inr ⟨rfl, emission_of_not_ready hready⟩
  | true =>
    obtain ⟨hin, ho, -⟩ := emitReady_iff_residueOf.1 hready
    have hread (k : Nat) (hk : k < s.emitLength) : (s.bufRead (0 + k)).isSome = true := by
      refine h.region_written hin (0 + k) ?_
      simp only [State.emitLength, Config.headerSize, Config.crcSize] at hk ⊢
      omega
    obtain ⟨payload, hpay⟩ := bufSlice_isSome hread
    exact .inl ⟨rfl, _, emission_of_ready hready hpay, (bufSlice_eq_some.1 hpay).1⟩

theorem State.Inv.emission {s : State} (h : s.Inv) : ∃ out, emission s = .next out := by
  rcases h.emission_cases with ⟨-, r, hr, -⟩ | ⟨-, hnone⟩
  · exact ⟨_, hr⟩
  · exact ⟨_, hnone⟩

/-- The row of a delimiter. -/
theorem State.Inv.execSymDelim_next {s : State} (h : s.Inv) :
    ∃ t, execSymDelim s = .next t ∧ t.sequencer = (true, false, 0) ∧
      ((s.emitReady = true ∧ ∃ r, t.result = .transfer (some r) ∧ r.payload.length = s.p.offset - 36) ∨
        (s.emitReady = false ∧ t.result = .transfer none)) := by
  rcases h.emission_cases with ⟨hready, r, hr, hlen⟩ | ⟨hready, hnone⟩
  · obtain ⟨v, l, ht⟩ := execSymDelim_of_emission hr
    exact ⟨_, ht, rfl, .inl ⟨hready, r, rfl, hlen⟩⟩
  · obtain ⟨v, l, ht⟩ := execSymDelim_of_emission hnone
    exact ⟨_, ht, rfl, .inr ⟨hready, rfl⟩⟩

/-- Outside a frame a byte that is no delimiter changes nothing of the parser (R130). -/
theorem readByte_p_of_outside {s : State} (b : Byte) (h : s.p.inside = false) : (readByte b s).p = s.p := by
  rw [readByte, escSymbol_of_outside h, dataSymbol_of_outside b h, ite_self]
  rfl

theorem sequencer_escSymbol {s : State} (hin : s.p.inside = true) : (escSymbol s).sequencer =
    if s.p.unesc = true then (false, false, 0) else (true, true, s.p.offset) := by
  split_ifs with hunesc
  · rw [escSymbol_of_pending hin hunesc]; rfl
  · rw [escSymbol_of_not_pending hin (Bool.eq_false_iff.2 hunesc)]
    exact Prod.ext hin rfl

/-- Settles O18: the row of each symbol; a data symbol's is that of its rule. -/
theorem parserFollowsTransitionTable : Obligations.ParserFollowsTransitionTable := by
  intro s b hinv
  have hclear (hout : s.p.inside = false) : s.p.unesc = false ∧ s.p.offset = 0 := by
    obtain ⟨hunesc, hoff, -⟩ := hinv.outside_clear hout
    exact ⟨hunesc, hoff⟩
  by_cases hb : b = Config.frameDelimiter
  · subst hb
    obtain ⟨t, ht, hseq, hrow⟩ := hinv.execSymDelim_next
    refine ⟨t, ht, hclear, ?_⟩
    rw [if_pos (show Config.frameDelimiter = 0x9E from rfl)]
    refine ⟨hseq, ?_⟩
    rcases hrow with ⟨hready, hsome⟩ | ⟨hready, hnone⟩
    · rwa [if_pos (emitReady_iff_residueOf.1 hready)]
    · rwa [if_neg (emitReady_eq_false_iff.1 hready)]
  · refine ⟨_, exec_parseUpdate_readByte hb s, hclear, ?_⟩
    rw [if_neg (show ¬b = 0x9E from hb)]
    refine ⟨rfl, ?_⟩
    by_cases hout : s.p.inside = false
    · obtain ⟨hunesc, hoff⟩ := hclear hout
      rw [if_pos hout, readByte_p_of_outside b hout, hout, hunesc, hoff]
    have hin : s.p.inside = true := by simpa using hout
    rw [if_neg hout]
    by_cases hesc : b = Config.escapeByte
    · rw [if_pos (show b = 0x8E from hesc), readByte, if_pos hesc]
      exact sequencer_escSymbol hin
    rw [if_neg (show ¬b = 0x8E from hesc), readByte, if_neg hesc]
    refine (sequencer_dataSymbol b hin).trans ?_
    have hrow := accepts_offsetRule_iff (crc := crcStep s.cfg.crcPoly s.p.crc (effectiveByte s.p.unesc b))
      (e := effectiveByte s.p.unesc b) hinv.offset_bound
    by_cases hacc : (offsetRule s.p.offset).accepts s.cfg (crcStep s.cfg.crcPoly s.p.crc (effectiveByte s.p.unesc b))
        (effectiveByte s.p.unesc b) = true
    · exact (if_pos hacc).trans (if_neg (hrow.1 hacc)).symm
    · exact (if_neg hacc).trans (if_pos (not_not.1 (mt hrow.2 hacc))).symm

/-! ### Runs of `PARSE.UPDATE` (R144 to R146) -/

/-- Under the invariant every byte completes, and keeps the invariant. -/
theorem State.Inv.exec_parseUpdate {s : State} (b : Byte) (h : s.Inv) :
    ∃ t, exec (.parseUpdate b) s = .next t ∧ t.Inv := by
  have hnext : ∃ t, exec (.parseUpdate b) s = .next t := by
    by_cases hb : b = Config.frameDelimiter
    · subst hb
      obtain ⟨t, ht, -⟩ := h.execSymDelim_next
      exact ⟨t, ht⟩
    · exact ⟨_, exec_parseUpdate_readByte hb s⟩
  obtain ⟨t, ht⟩ := hnext
  exact ⟨t, ht, inv_keptByUnits.parseUpdate h ht⟩

theorem State.Inv.feed {s : State} (bs : List Byte) (h : s.Inv) : ∃ rs t, feed bs s = .next (rs, t) ∧ t.Inv := by
  induction bs generalizing s with
  | nil => exact ⟨_, _, rfl, h⟩
  | cons b bs ih =>
    obtain ⟨s1, h1, hinv1⟩ := h.exec_parseUpdate b
    obtain ⟨rs, t, ht, hinv⟩ := ih hinv1
    exact ⟨_, t, by rw [Machine.feed, h1, andThen_next, ht, andThen_next], hinv⟩

/-- Settles O19: bytes that are no delimiter complete from every state; under the invariant every byte does, and the
delimiter then reopens the parser. -/
theorem onlyDelimitersYieldTransfers : Obligations.OnlyDelimitersYieldTransfers := by
  refine ⟨fun s bs hbs => ⟨_, feed_eq_readBytes hbs s⟩, fun s bs hinv => ?_⟩
  obtain ⟨rs, s1, h1, hinv1⟩ := hinv.feed bs
  obtain ⟨out, hout⟩ := hinv1.emission
  obtain ⟨t, ht, hstart⟩ := feed_delim hout
  have hlast : feed [0x9E] s1 = .next ([.transfer out], t) := ht
  exact ⟨_, t, by rw [feed_append, h1, andThen_next, hlast, andThen_next], hstart⟩

/-- A valid frame starts with the version byte (R71). -/
theorem take_one_of_frameValid {c : Params} {l : List Byte} (h : frameValid c l = true) : l.take 1 = [0x00] := by
  obtain ⟨hlen, -, hversion, -⟩ := frameValid_iff.1 h
  cases l with
  | nil => simp at hlen
  | cons v l =>
    obtain rfl : v = Config.frameVersion := hversion
    rfl

/-- Settles O21: such logical bytes are no valid frame, and the parser surfaces only valid ones. -/
theorem headerRejectionNeverYields : Obligations.HeaderRejectionNeverYields := by
  intro s body l hstart hbody hl _ hbad
  obtain ⟨t, ht, -⟩ := parserRefinesFrameFunction s body hstart hbody
  have hinvalid : ¬frameValid s.cfg l = true := fun hvalid => by
    obtain ⟨-, -, -, hmarker, -⟩ := frameValid_iff.1 hvalid
    exact hbad.elim (· (take_one_of_frameValid hvalid)) (· hmarker)
  have hnone : frameTransfer s.cfg body = none := by
    rw [frameTransfer, hl]
    exact if_neg hinvalid
  rw [hnone, ← List.replicate_succ'] at ht
  exact ⟨t, ht⟩

/-- Settles O22: the opening delimiter of a frame starts it, and the rest is a body that holds the transfer. -/
theorem frameRoundTrip : Obligations.FrameRoundTrip := by
  intro s r hlen
  obtain ⟨s1, h1, hstart⟩ := feed_delim (emission_of_outside (s := (parserClear s).answer .none) rfl)
  have hcfg : s1.cfg = s.cfg := by
    obtain ⟨-, -, hcfg, -⟩ := feed_keeps h1
    exact hcfg
  obtain ⟨t, ht, -⟩ := parserRefinesFrameFunction s1 (frameBody s.cfg.crcPoly r) hstart
    (delimiter_notMem_frameBody s.cfg.crcPoly r)
  rw [hcfg, frameTransfer_frameBody hlen] at ht
  have hlast : feed (frameBody s.cfg.crcPoly r ++ [Config.frameDelimiter]) s1 =
    .next (List.replicate (frameBody s.cfg.crcPoly r).length (.transfer none) ++ [.transfer (some r)], t) := ht
  refine ⟨t, ?_⟩
  rw [exec_parseReset, execParseReset, andThen_next, frameOf_eq, feed_append, h1, andThen_next, hlast]
  simp [List.replicate_succ]

end Sys2Proof.Machine
end

section
/-! PROOFS of the family 42_encoder: the operation over `encodeTransfer_eq`, with its precondition; the header bytes; and
what a frame is made of: how many bytes, and which transfer. -/

namespace Sys2Proof.Machine

/-! ### The precondition of the sending operations (R82, R169) -/

theorem lengthAdmitted_eq_true_iff {c : Params} {payload : List Byte} :
    lengthAdmitted c payload = true ↔ payload.length ≤ c.maxPayload := decide_eq_true_iff

theorem not_lengthAdmitted {c : Params} {payload : List Byte} (h : c.maxPayload < payload.length) :
    ¬lengthAdmitted c payload = true := fun hadmitted =>
  Nat.not_le_of_gt h (lengthAdmitted_eq_true_iff.1 hadmitted)

/-- Settles O28: each of the three operations tests the length before anything else. -/
theorem longPayloadIsRefused : Obligations.LongPayloadIsRefused := by
  intro s t service server subject tid payload
  refine ⟨fun h => ?_, fun h => ⟨?_, ?_⟩⟩
  · rw [exec_encEncode, execEncEncode, if_neg (not_lengthAdmitted h)]
  · rw [exec_nodeSendRequest, execNodeSendRequest, if_neg (not_lengthAdmitted h)]
  · rw [exec_nodePublish, execNodePublish, if_neg (not_lengthAdmitted h)]

/-! ### `ENC.ENCODE` (R161 to R163, R166, R167) -/

/-- Settles O24: the procedure makes the offers of the frame, and a refusal adds its label alone. -/
theorem encodeOffersTheFrame : Obligations.EncodeOffersTheFrame := by
  intro s t h
  obtain ⟨l, hl⟩ := noteSink_eq (allAccepted (frameOffers t s)) (s.afterOffers (frameOffers t s))
  refine ⟨l, ?_⟩
  rw [exec_encEncode, execEncEncode, if_pos (lengthAdmitted_eq_true_iff.2 h)]
  simp only [encodeTransfer_eq, hl]
  rfl

/-! ### The header bytes (R164) -/

/-- Settles O25: the lanes of each field stand in the order of R164. -/
theorem headerBytesByOffset : Obligations.HeaderBytesByOffset := fun _ => rfl

/-! ### The number of offers (R168) -/

/-- A sink that refuses nothing is offered every byte. -/
theorem offersFor_of_allAccepted {bs : List Byte} {tx : List Bool} (h : allAccepted (offersFor bs tx) = true) :
    offersFor bs tx = bs.map (·, true) := by
  induction bs generalizing tx with
  | nil => rfl
  | cons b bs ih =>
    cases tx with
    | nil => exact congrArg ((b, true) :: ·) (ih h)
    | cons a rest =>
      cases a with
      | true => exact congrArg ((b, true) :: ·) (ih h)
      | false => exact absurd h Bool.false_ne_true

/-- The escape form of a byte is the byte, or two bytes (R77). -/
theorem length_escapeForm (v : Byte) : (escapeForm v).length = 1 + if needsEscape v then 1 else 0 := by
  unfold escapeForm
  split <;> rfl

theorem length_flatMap_escapeForm (l : List Byte) :
    (l.flatMap escapeForm).length = l.length + l.countP needsEscape := by
  induction l with
  | nil => rfl
  | cons v l ih =>
    rw [List.flatMap_cons, List.length_append, length_escapeForm, ih, List.length_cons, List.countP_cons]
    omega

/-- Two delimiters, 36 bytes beside the payload, and one more byte for each that is escaped. -/
theorem length_frameOf (poly : Word) (t : Transfer) :
    (frameOf poly t).length = 38 + t.payload.length + (logicalBytes poly t).countP needsEscape := by
  rw [frameOf_eq, List.length_append, List.length_append, frameBody, length_flatMap_escapeForm, length_logicalBytes,
    List.length_singleton]
  omega

/-- Settles O26: an accepted encoding offers every byte of the frame. -/
theorem acceptedFrameOfferCount : Obligations.AcceptedFrameOfferCount := by
  intro s t h
  calc (frameOffers t s).length
    _ = (frameOf s.cfg.crcPoly t).length := by rw [frameOffers, offersFor_of_allAccepted h, List.length_map]
    _ = 38 + t.payload.length + (logicalBytes s.cfg.crcPoly t).countP needsEscape := length_frameOf _ _

/-! ### A frame is valid (R171, R77) -/

/-- Settles O27, with the body of the frame. -/
theorem encodedFrameIsValid : Obligations.EncodedFrameIsValid := fun c t h =>
  ⟨frameBody c.crcPoly t, frameOf_eq c.crcPoly t, delimiter_notMem_frameBody c.crcPoly t,
    unescape_flatMap_escapeForm (logicalBytes c.crcPoly t), frameTransfer_frameBody h⟩

end Sys2Proof.Machine
end

section
/-! PROOFS of the family 43_node: what each class does with a transfer; what the sending operations record; and the
poll: what it takes from the driver, what of the state it does not read, and from that its split and its reading as
instructions. -/

namespace Sys2Proof.Machine

/-! ### The predicates of the orchestrator (R38, R186, R188) -/

theorem identified_iff {s : State} : s.identified = true ↔ s.n.localId ≠ 0xFFFF := bne_iff_ne

theorem responseMatches_iff {s : State} {t : Transfer} :
    s.responseMatches t = true ↔
      s.n.pendValid = true ∧ s.n.localId ≠ 0xFFFF ∧ t.dspec.setWidth 14 = s.n.pendService ∧
        t.src = s.n.pendServer ∧ t.dst = s.n.localId ∧ t.tid = s.n.pendTid := by
  simp only [State.responseMatches, State.responseFields, Bool.and_eq_true, beq_iff_eq, identified_iff, serviceOf,
    and_assoc]

theorem requestAccepted_iff {s : State} {t : Transfer} :
    s.requestAccepted t = true ↔ s.n.localId ≠ 0xFFFF ∧ t.dst = s.n.localId := by
  simp only [State.requestAccepted, Bool.and_eq_true, beq_iff_eq, identified_iff]

/-! ### The operations on the identity and the flag; messages (R183, R190, R193) -/

/-- Settles O29: the operation is that one update. -/
theorem setIdWritesTheIdentity : Obligations.SetIdWritesTheIdentity := fun _ _ => rfl

/-- Settles O30: the operation is that one update. -/
theorem cancelClearsPendingFlag : Obligations.CancelClearsPendingFlag := fun _ => rfl

/-- Settles O39, with the label of an ignored message. -/
theorem messageIsIgnored : Obligations.MessageIsIgnored := fun s _ => ⟨.ignMessage :: s.labels, rfl⟩

/-! ### The class of a data spec (R73, R181) -/

/-- The role bits of a data spec, each kept or cleared by the mask. -/
theorem and_roleMask (d : Half) :
    d &&& 0xC000#16 = (if d.getLsbD 15 then 0x8000#16 else 0#16) ||| if d.getLsbD 14 then 0x4000#16 else 0#16 := by
  have hmask : 0xC000#16 = BitVec.twoPow 16 15 ||| BitVec.twoPow 16 14 := rfl
  rw [hmask, BitVec.and_or_distrib_left, BitVec.and_twoPow, BitVec.and_twoPow]
  rfl

/-- Settles O33: the two masked bits are those `classify` tests. -/
theorem dataSpecClassesByMask : Obligations.DataSpecClassesByMask := by
  intro d
  have htop : d &&& 0x8000#16 = if d.getLsbD 15 then 0x8000#16 else 0#16 := BitVec.and_twoPow d 15
  rw [and_roleMask, htop, classify]
  cases d.getLsbD 15 <;> cases d.getLsbD 14 <;> decide

/-! ### `CLASS.RESPONSE` (R186, R187, R202) -/

/-- A reactor that does not call back gets the call and returns (R240). -/
theorem callResponse_of_head {payload : List Byte} {s : State} (h : s.env.onResponse.head? ≠ some .reentered) :
    callResponse payload s = .next { s with
      env := { s.env with onResponse := s.env.onResponse.tail }
      trace := .processResponse payload :: s.trace } := by
  have hnext : ∃ t, callResponse payload s = .next t := by
    unfold callResponse
    split
    · exact ⟨_, rfl⟩
    · exact ⟨_, rfl⟩
    · rename_i he; exact absurd (by rw [he]; rfl) h
  obtain ⟨t, ht⟩ := hnext
  rw [ht, (callResponse_next ht).2]

/-- A reactor that calls back is refused (R202). -/
theorem callResponse_reentered {payload : List Byte} {s : State} (h : s.env.onResponse.head? = some .reentered) :
    callResponse payload s = .refused .reentrantReactor := by
  obtain ⟨rest, hrest⟩ := List.head?_eq_some_iff.1 h
  rw [callResponse, hrest]

/-- Settles O35: the six conditions are the match, and the call decides the rest. -/
theorem responseDeliveredOrDropped : Obligations.ResponseDeliveredOrDropped := by
  intro s t six
  refine ⟨fun hsix hhead => ?_, fun hsix hhead => ?_, fun hsix => ?_⟩
  · rw [exec_classResponse, execClassResponse, onResponse, if_pos (responseMatches_iff.2 hsix),
      callResponse_of_head hhead]
    rfl
  · rw [exec_classResponse, execClassResponse, onResponse, if_pos (responseMatches_iff.2 hsix),
      callResponse_reentered hhead]
    rfl
  · obtain ⟨l, hl⟩ := noteResponse_eq s
    rw [exec_classResponse, execClassResponse, onResponse, if_neg (mt responseMatches_iff.1 hsix), hl]
    exact ⟨l, rfl⟩

/-! ### `CLASS.REQUEST` (R188, R189, R241) -/

section
variable {s s1 : State} {t : Transfer} (h : s.n.localId ≠ 0xFFFF ∧ t.dst = s.n.localId)
include h

/-- After a call of the reactor that declines nothing more happens. -/
theorem exec_classRequest_declined (hcall : callRequest (serviceOf t.dspec) t.src t.payload s = .next (none, s1)) :
    exec (.classRequest t) s = .next s1 := by
  rw [exec_classRequest, execClassRequest, onRequest, if_pos (requestAccepted_iff.2 h), hcall]
  rfl

/-- A call of the reactor that is refused is the outcome. -/
theorem exec_classRequest_refused {reason : Refusal}
    (hcall : callRequest (serviceOf t.dspec) t.src t.payload s = .refused reason) :
    exec (.classRequest t) s = .refused reason := by
  rw [exec_classRequest, execClassRequest, onRequest, if_pos (requestAccepted_iff.2 h), hcall]
  rfl

end

/-- Settles O36, by the answer of the reactor. -/
theorem requestServedOrDropped : Obligations.RequestServedOrDropped := by
  intro s t mine
  refine ⟨fun hmine => ?_, fun hmine hnone => ?_, fun writes len rest hmine hanswer => ⟨fun hlegal hlen => ?_,
    fun n hlegal hlen => ?_⟩⟩
  · obtain ⟨l, hl⟩ := noteRequest_eq s
    rw [exec_classRequest, execClassRequest, onRequest, if_neg (mt requestAccepted_iff.1 hmine), hl]
    exact ⟨l, rfl⟩
  · exact exec_classRequest_declined hmine (by rw [callRequest, hnone]; rfl)
  · subst hlen
    exact exec_classRequest_declined hmine (by rw [callRequest, hanswer]; exact if_pos hlegal)
  · subst hlen
    exact execClassRequest_answered (requestAccepted_iff.2 hmine) hlegal hanswer rfl

/-- A write outside `N.resp_buf`, or a length above either bound, is outside the contract (R241, U7). -/
theorem not_answerLegal {c : Params} {writes : List Host.Cell} {len : Option Nat}
    (h : (∃ w ∈ writes, c.respCap ≤ w.1) ∨ ∃ n, len = some n ∧ (c.respCap < n ∨ c.maxPayload < n)) :
    ¬answerLegal c writes len = true := by
  intro hlegal
  obtain ⟨hwrites, hlen⟩ := Bool.and_eq_true_iff.1 hlegal
  rcases h with ⟨w, hw, hcap⟩ | ⟨n, rfl, hbound⟩
  · exact absurd (of_decide_eq_true (List.all_eq_true.1 hwrites w hw)) (Nat.not_lt.2 hcap)
  · simp only [Bool.and_eq_true, decide_eq_true_eq] at hlen
    omega

/-- Settles O37: the call of the reactor stops. -/
theorem reactorOutsideContractIsRefused : Obligations.ReactorOutsideContractIsRefused := by
  intro s t hid hdst
  refine ⟨fun writes len hhead hout => ?_, fun hhead => ?_⟩
  · obtain ⟨rest, hrest⟩ := List.head?_eq_some_iff.1 hhead
    exact exec_classRequest_refused ⟨hid, hdst⟩ (by rw [callRequest, hrest]; exact if_neg (not_answerLegal hout))
  · obtain ⟨rest, hrest⟩ := List.head?_eq_some_iff.1 hhead
    exact exec_classRequest_refused ⟨hid, hdst⟩ (by rw [callRequest, hrest])

/-! ### `NODE.SEND_REQUEST` and `NODE.PUBLISH` (R191, R192, R200) -/

/-- Settles O31: the length is admitted; then identity and sink decide. -/
theorem sendRequestRecordsOnSuccess : Obligations.SendRequestRecordsOnSuccess := by
  intro s service server tid payload hlen r
  have hr : requestTransfer service server tid payload s = r := rfl
  rw [exec_nodeSendRequest, execNodeSendRequest, if_pos (lengthAdmitted_eq_true_iff.2 hlen), encodeTransfer_eq, hr]
  refine ⟨fun hanon => ?_, fun hid haccepted => ?_, fun hid hrefused => ?_⟩
  · rw [if_neg (mt identified_iff.1 (not_not_intro hanon))]
    exact ⟨_, rfl⟩
  · rw [if_pos (identified_iff.2 hid)]
    exact if_pos haccepted
  · rw [if_pos (identified_iff.2 hid)]
    exact ⟨_, if_neg (Bool.eq_false_iff.1 hrefused)⟩

/-- Settles O32: the length is admitted; then the identity decides. -/
theorem publishOffersTheMessage : Obligations.PublishOffersTheMessage := by
  intro s subject tid payload hlen r
  have hr : publishTransfer subject tid payload s = r := rfl
  rw [exec_nodePublish, execNodePublish, if_pos (lengthAdmitted_eq_true_iff.2 hlen), encodeTransfer_eq, hr]
  refine ⟨fun hanon => ?_, fun hid => ?_⟩
  · rw [if_neg (mt identified_iff.1 (not_not_intro hanon))]
    exact ⟨_, rfl⟩
  · rw [if_pos (identified_iff.2 hid)]
    obtain ⟨l, hl⟩ := noteSink_eq (allAccepted (frameOffers r s)) (s.afterOffers (frameOffers r s))
    dsimp only
    rw [hl]
    exact ⟨l, rfl⟩

/-- What a request that completes returns and does to `N`: false and nothing, or true and the record of an identified
node (R191, R192). -/
theorem execNodeSendRequest_record {service : ServiceId} {server : Half} {tid : Tid} {payload : List Byte} {s t : State}
    (h : execNodeSendRequest service server tid payload s = .next t) :
    (t.result = .bit false ∧ t.n = s.n) ∨
    (t.result = .bit true ∧ s.n.localId ≠ 0xFFFF ∧
      t.n = { s.n with pendValid := true, pendServer := server, pendService := service, pendTid := tid }) := by
  rw [← exec_nodeSendRequest] at h
  have hlen : payload.length ≤ s.cfg.maxPayload := by
    refine Nat.le_of_not_lt fun hlong => ?_
    rw [exec_nodeSendRequest, execNodeSendRequest, if_neg (not_lengthAdmitted hlong)] at h
    cases h
  obtain ⟨hanon, haccepted, hrefused⟩ := sendRequestRecordsOnSuccess s service server tid payload hlen
  by_cases hid : s.n.localId = 0xFFFF
  · obtain ⟨l, hl⟩ := hanon hid
    cases hl.symm.trans h
    exact .inl ⟨rfl, rfl⟩
  · cases hall : allAccepted (frameOffers (requestTransfer service server tid payload s) s) with
    | true => cases (haccepted hid hall).symm.trans h; exact .inr ⟨rfl, hid, rfl⟩
    | false =>
      obtain ⟨l, hl⟩ := hrefused hid hall
      cases hl.symm.trans h
      exact .inl ⟨rfl, rfl⟩

/-! ### A request and its response (R205) -/

/-- Settles O46: the record names the response by its six conditions; its delivery clears the flag, which is the first
of them. -/
theorem requestResponseCorrelation : Obligations.RequestResponseCorrelation := by
  intro s s1 service server tid payload r hsend htrue hservice hsrc hdst
  rcases execNodeSendRequest_record hsend with ⟨hfalse, -⟩ | ⟨-, hid, hn⟩
  · rw [hfalse] at htrue; cases htrue
  obtain ⟨hdeliver, -, hdrop⟩ := responseDeliveredOrDropped s1 r
  refine ⟨fun htid hhead => ?_, fun htid => ?_⟩
  · have h2 := hdeliver (by rw [hn] at hdst ⊢; exact ⟨rfl, hid, hservice, hsrc, hdst, htid⟩) hhead
    obtain ⟨-, -, hdrop2⟩ := responseDeliveredOrDropped { s1 with
      n := { s1.n with pendValid := false }
      env := { s1.env with onResponse := s1.env.onResponse.tail }
      trace := .processResponse r.payload :: s1.trace } r
    obtain ⟨l, h3⟩ := hdrop2 fun ⟨hvalid, _⟩ => Bool.false_ne_true hvalid
    exact ⟨_, _, h2, rfl, rfl, h3, rfl⟩
  · obtain ⟨l, h2⟩ := hdrop fun ⟨_, _, _, _, _, hsame⟩ => htid (hsame.trans (by rw [hn]))
    exact ⟨_, h2, rfl, by simp only [State.pending, hn]⟩

/-! ### The pending record (R33, R201) -/

/-- The three recorded fields are kept and the flag is at most cleared. -/
structure RecordKept (s t : State) : Prop where
  server : t.n.pendServer = s.n.pendServer
  service : t.n.pendService = s.n.pendService
  tid : t.n.pendTid = s.n.pendTid
  valid : t.n.pendValid = true → s.n.pendValid = true

theorem RecordKept.of_n {s t : State} (h : t.n = s.n) : RecordKept s t := by
  constructor <;> rw [h]
  exact id

theorem RecordKept.trans {s t u : State} (h1 : RecordKept s t) (h2 : RecordKept t u) : RecordKept s u where
  server := h2.server.trans h1.server
  service := h2.service.trans h1.service
  tid := h2.tid.trans h1.tid
  valid := h1.valid ∘ h2.valid

theorem ClassKeeps.recordKept {s t : State} (h : ClassKeeps s t) : RecordKept s t := by
  have hvalid := h.pending
  obtain ⟨pv, rb, tx, onResponse, onRequest, trace, labels, rfl⟩ := h.shape
  exact ⟨rfl, rfl, rfl, hvalid⟩

/-- What a received byte that completes keeps of `N`, whether it completes a transfer or not. -/
theorem pollByte_recordKept {b : Byte} {s t : State} (h : pollByte b s = .next t) : RecordKept s t := by
  obtain ⟨r, hr, hrt⟩ := andThen_eq_next.1 h
  obtain ⟨p, v, f, l, hs⟩ := parserStep_keeps hr
  have hparsed : RecordKept s r.2 := .of_n (by rw [hs])
  split at hrt
  · exact hparsed.trans (processTransfer_keeps hrt).recordKept
  · cases hrt; exact hparsed

theorem execNodePoll_recordKept {time : BitVec 64} {s t : State} (h : execNodePoll time s = .next t) :
    RecordKept s t := by
  obtain ⟨t1, h1, h2⟩ := andThen_eq_next.1 h
  cases h2
  have hloop : RecordKept s t1 := pollLoop_keeps (P := RecordKept s)
    (fun x hx => hx.trans (.of_n (by rw [rxTake_eq]))) (fun b x y hx hy => hx.trans (pollByte_recordKept hy))
    _ s t1 (.of_n rfl) h1
  exact hloop.trans (.of_n rfl)

/-- An instruction keeps the record and at most clears its flag, unless it is a request that recorded its operands. -/
theorem exec_recordKept {i : Instr} {s t : State} (h : exec i s = .next t) :
    RecordKept s t ∨ ∃ service server tid payload, i = .nodeSendRequest service server tid payload ∧
      t.result = .bit true ∧ t.pending = (true, server, service, tid) := by
  obtain ⟨-, -, -, hwriter, -⟩ := registersKeepTheirWriters i s t h
  by_cases hpend : t.pending = s.pending
  · simp only [State.pending, Prod.mk.injEq] at hpend
    obtain ⟨hvalid, hserver, hservice, htid⟩ := hpend
    exact .inl ⟨hserver, hservice, htid, (hvalid ▸ ·)⟩
  rcases hwriter hpend with rfl | ⟨service, server, tid, payload, rfl⟩ | ⟨r, rfl⟩ | ⟨time, rfl⟩
  · cases h; exact .inl ⟨rfl, rfl, rfl, fun hvalid => absurd hvalid Bool.false_ne_true⟩
  · rcases execNodeSendRequest_record h with ⟨-, hn⟩ | ⟨htrue, -, hn⟩
    · exact .inl (.of_n hn)
    · exact .inr ⟨_, _, _, _, rfl, htrue, by rw [State.pending, hn]⟩
  · obtain ⟨hkeeps, -⟩ := onResponse_keeps h
    exact .inl hkeeps.recordKept
  · exact .inl (execNodePoll_recordKept (time := time) h)

/-- Settles O45: what is no request keeps the record, and of the writers of the record a request does not clear its
flag. -/
theorem pendingRecordTransitions : Obligations.PendingRecordTransitions := by
  intro i s t h
  refine ⟨fun hchanged => ?_, fun hset hclear => ?_⟩
  · rcases exec_recordKept h with hkept | hrecorded
    · rcases hchanged with ⟨hidle, hvalid⟩ | hserver | hservice | htid
      · rw [hkept.valid hvalid] at hidle; cases hidle
      · exact absurd hkept.server hserver
      · exact absurd hkept.service hservice
      · exact absurd hkept.tid htid
    · exact hrecorded
  · obtain ⟨-, -, -, hwriter, -⟩ := registersKeepTheirWriters i s t h
    have hpend : t.pending ≠ s.pending := fun heq => by
      rw [(Prod.mk.inj heq).1, hset] at hclear; cases hclear
    rcases hwriter hpend with rfl | ⟨service, server, tid, payload, rfl⟩ | hresponse | hpoll
    · exact .inl rfl
    · rcases execNodeSendRequest_record h with ⟨-, hn⟩ | ⟨-, -, hn⟩
      · rw [hn, hset] at hclear; cases hclear
      · rw [hn] at hclear; cases hclear
    · exact .inr (.inl hresponse)
    · exact .inr (.inr hpoll)

/-! ### What a poll takes from the driver (R184, R203) -/

theorem pollByte_rx {b : Byte} {s t : State} (h : pollByte b s = .next t) : t.env.rx = s.env.rx := by
  obtain ⟨r, hr, hrt⟩ := andThen_eq_next.1 h
  obtain ⟨p, v, f, l, hs⟩ := parserStep_keeps hr
  have hparsed : r.2.env.rx = s.env.rx := by rw [hs]
  split at hrt
  · obtain ⟨pv, rb, tx, onResponse, onRequest, trace, labels, rfl⟩ := (processTransfer_keeps hrt).shape
    exact hparsed
  · cases hrt; exact hparsed

/-- Where the driver has nothing, the loop asks once and ends. -/
theorem pollLoop_succ_none {s : State} (k : Nat) (h : s.env.rx.head?.join = none) :
    pollLoop (k + 1) s = .next (rxTake s).2 := by
  have htake : rxTake s = (none, (rxTake s).2) := Prod.ext (by rw [rxTake_eq, h]) rfl
  rw [pollLoop, htake]

/-- Where the driver has a byte, the loop processes it and goes on. -/
theorem pollLoop_succ_some {s : State} (k : Nat) {b : Byte} (h : s.env.rx.head?.join = some b) :
    pollLoop (k + 1) s = andThen (pollByte b (rxTake s).2) (pollLoop k) := by
  have htake : rxTake s = (some b, (rxTake s).2) := Prod.ext (by rw [rxTake_eq, h]) rfl
  rw [pollLoop, htake]

theorem rxTake_rx (s : State) : (rxTake s).2.env.rx = s.env.rx.tail := by rw [rxTake_eq]

theorem head?_join_eq_some {rx : List (Option Byte)} {b : Byte} :
    rx.head?.join = some b ↔ rx[0]? = some (some b) := by
  rw [Option.join_eq_some_iff, List.head?_eq_getElem?]

/-- The loop takes answers from the front, and goes on only after a byte. -/
theorem pollLoop_takes {k : Nat} {s t : State} (h : pollLoop k s = .next t) :
    ∃ m, m ≤ k ∧ t.env.rx = s.env.rx.drop m ∧ ∀ j, j + 1 < m → ∃ b, s.env.rx[j]? = some (some b) := by
  induction k generalizing s with
  | zero => cases h; exact ⟨0, le_rfl, rfl, nofun⟩
  | succ k ih =>
    cases hhead : s.env.rx.head?.join with
    | none =>
      rw [pollLoop_succ_none k hhead] at h
      cases h
      exact ⟨1, Nat.le_add_left _ _, by rw [rxTake_rx, List.drop_one], fun j hj => by omega⟩
    | some b =>
      rw [pollLoop_succ_some k hhead] at h
      obtain ⟨s1, h1, h2⟩ := andThen_eq_next.1 h
      have hrx : s1.env.rx = s.env.rx.tail := (pollByte_rx h1).trans (rxTake_rx s)
      obtain ⟨m, hm, hdrop, hbytes⟩ := ih h2
      rw [hrx] at hdrop hbytes
      refine ⟨m + 1, Nat.succ_le_succ hm, by rw [hdrop, List.drop_tail], fun j hj => ?_⟩
      cases j with
      | zero => exact ⟨b, head?_join_eq_some.1 hhead⟩
      | succ j =>
        obtain ⟨c, hc⟩ := hbytes j (Nat.lt_of_succ_lt_succ hj)
        exact ⟨c, by rwa [List.getElem?_tail] at hc⟩

/-- Settles O41: a poll is its loop, which takes nothing more. -/
theorem pollTakesAtMostItsBudget : Obligations.PollTakesAtMostItsBudget := by
  refine ⟨fun s t time h => ?_, fun s time hbudget hrx => ?_⟩
  · obtain ⟨t1, h1, h2⟩ := andThen_eq_next.1 h
    cases h2
    have hloop := pollLoop_takes h1
    exact hloop
  · obtain ⟨k, hk⟩ := Nat.exists_eq_succ_of_ne_zero hbudget
    rw [exec_nodePoll, execNodePoll, hk, pollLoop_succ_none k (by rw [hrx]; rfl), rxTake, hrx]
    rfl

/-- Settles O43: the meaning of a poll does not name its operand. -/
theorem pollIgnoresTime : Obligations.PollIgnoresTime := fun _ _ _ => rfl

/-! ### What no rule of a poll reads: the result and the budget -/

/-- The state with another result and another `POLL_BUDGET`: `State.answer` and `State.withBudget` are such changes. -/
def State.mapUnread (g : Result → Result) (h : Nat → Nat) (s : State) : State :=
  { s with cfg := { s.cfg with pollBudget := h s.cfg.pollBudget }, result := g s.result }

/-- The state a step leaves beside a value, through a function; a stop as it is. -/
def mapState {α : Type} (f : State → State) (o : Host.Outcome (α × State) Fault Refusal) :
    Host.Outcome (α × State) Fault Refusal :=
  andThen o fun r => .next (r.1, f r.2)

theorem mapNext_andThen {α : Type} (f : State → State) (o : Host.Outcome α Fault Refusal)
    (k : α → Host.Outcome State Fault Refusal) : mapNext f (andThen o k) = andThen o fun a => mapNext f (k a) :=
  andThen_assoc o k _

theorem andThen_mapNext {β : Type} (f : State → State) (o : Host.Outcome State Fault Refusal)
    (k : State → Host.Outcome β Fault Refusal) : andThen (mapNext f o) k = andThen o fun s => k (f s) :=
  andThen_assoc o _ k

theorem andThen_mapState {α β : Type} (f : State → State) (o : Host.Outcome (α × State) Fault Refusal)
    (k : α × State → Host.Outcome β Fault Refusal) :
    andThen (mapState f o) k = andThen o fun r => k (r.1, f r.2) :=
  andThen_assoc o _ k

section
variable (g : Result → Result) (h : Nat → Nat) (s : State)

@[simp] theorem mapUnread_p : (s.mapUnread g h).p = s.p := rfl
@[simp] theorem mapUnread_n : (s.mapUnread g h).n = s.n := rfl
@[simp] theorem mapUnread_env : (s.mapUnread g h).env = s.env := rfl
@[simp] theorem mapUnread_bufCap : (s.mapUnread g h).cfg.bufCap = s.cfg.bufCap := rfl
@[simp] theorem mapUnread_residueCorrect (reg : Word) :
    residueCorrect (s.mapUnread g h).cfg reg = residueCorrect s.cfg reg := rfl
@[simp] theorem mapUnread_answerLegal (writes : List Host.Cell) (len : Option Nat) :
    answerLegal (s.mapUnread g h).cfg writes len = answerLegal s.cfg writes len := rfl
@[simp] theorem mapUnread_emitReady : (s.mapUnread g h).emitReady = s.emitReady := rfl
@[simp] theorem mapUnread_identified : (s.mapUnread g h).identified = s.identified := rfl
@[simp] theorem mapUnread_responseMatches (t : Transfer) :
    (s.mapUnread g h).responseMatches t = s.responseMatches t := rfl
@[simp] theorem mapUnread_requestAccepted (t : Transfer) :
    (s.mapUnread g h).requestAccepted t = s.requestAccepted t := rfl

theorem ageView_mapUnread : ageView (s.mapUnread g h) = (ageView s).mapUnread g h := rfl

theorem rxTake_mapUnread : rxTake (s.mapUnread g h) = ((rxTake s).1, (rxTake s).2.mapUnread g h) := by
  rw [rxTake_eq, rxTake_eq]
  rfl

theorem bufSlice_mapUnread (i n : Nat) : (s.mapUnread g h).bufSlice i n = s.bufSlice i n := by
  induction n generalizing i with
  | zero => rfl
  | succ n ih =>
    have hread : (s.mapUnread g h).bufRead i = s.bufRead i := rfl
    rw [State.bufSlice, State.bufSlice, hread, ih]

theorem emission_mapUnread : emission (s.mapUnread g h) = emission s := by
  have hview : (s.mapUnread g h).payloadView (s.mapUnread g h).emitLength = s.payloadView s.emitLength :=
    bufSlice_mapUnread g h s 0 _
  rw [emission, emission, mapUnread_emitReady, hview]
  rfl

theorem noteClose_mapUnread : noteClose (s.mapUnread g h) = (noteClose s).mapUnread g h := by
  rw [noteClose, noteClose, mapUnread_emitReady, mapUnread_p]
  split
  · split <;> rfl
  · rfl

theorem routeByte_mapUnread (o : Nat) (e : Byte) :
    routeByte o e (s.mapUnread g h) = (routeByte o e s).mapUnread g h := by
  unfold routeByte
  cases offsetRule o with
  | version => dsimp only [decodeVersion]; split <;> rfl
  | priority | source | destination | dataSpec | reserved | transferId => rfl
  | eotMarker k => dsimp only [decodeEotMarker]; split <;> rfl
  | headerCrc k =>
    dsimp only [decodeHeaderCrc]
    rw [mapUnread_residueCorrect, mapUnread_p]
    split
    · split <;> rfl
    · rfl
  | payload i =>
    dsimp only [storePayload]
    rw [mapUnread_bufCap]
    split <;> rfl

theorem dataRule_mapUnread (b : Byte) : dataRule b (s.mapUnread g h) = (dataRule b s).mapUnread g h := by
  have habsorb (e : Byte) : absorb e (s.mapUnread g h) = (absorb e s).mapUnread g h := rfl
  rw [dataRule, dataRule, mapUnread_p, habsorb, routeByte_mapUnread, advance_eq, advance_eq]
  rfl

theorem escRule_mapUnread : escRule (s.mapUnread g h) = (escRule s).mapUnread g h := by
  rw [escRule, escRule, mapUnread_p]
  split <;> rfl

theorem delimSymbol_mapUnread :
    delimSymbol (s.mapUnread g h) = mapState (State.mapUnread g h) (delimSymbol s) := by
  rw [delimSymbol, delimSymbol, ageView_mapUnread, delimRule, delimRule, emission_mapUnread, noteClose_mapUnread]
  cases emission (ageView s) with
  | next out => cases out <;> rfl
  | fault | refused => rfl

theorem escSymbol_mapUnread : escSymbol (s.mapUnread g h) = (escSymbol s).mapUnread g h := by
  rw [escSymbol, escSymbol, mapUnread_p, ageView_mapUnread, escRule_mapUnread]
  split <;> rfl

theorem dataSymbol_mapUnread (b : Byte) : dataSymbol b (s.mapUnread g h) = (dataSymbol b s).mapUnread g h := by
  rw [dataSymbol, dataSymbol, mapUnread_p, ageView_mapUnread, dataRule_mapUnread]
  split <;> rfl

theorem parserStep_mapUnread (b : Byte) :
    parserStep b (s.mapUnread g h) = mapState (State.mapUnread g h) (parserStep b s) := by
  rw [parserStep, parserStep, delimSymbol_mapUnread, escSymbol_mapUnread, dataSymbol_mapUnread]
  cases symbolOf b <;> rfl

theorem callResponse_mapUnread (payload : List Byte) :
    callResponse payload (s.mapUnread g h) = mapNext (State.mapUnread g h) (callResponse payload s) := by
  rw [callResponse, callResponse, mapUnread_env]
  cases s.env.onResponse with
  | nil => rfl
  | cons a rest => cases a <;> rfl

theorem noteResponse_mapUnread : noteResponse (s.mapUnread g h) = (noteResponse s).mapUnread g h := by
  rw [noteResponse, noteResponse, mapUnread_n, mapUnread_identified]
  split
  · rfl
  · split <;> rfl

theorem onResponse_mapUnread (t : Transfer) :
    onResponse t (s.mapUnread g h) = mapNext (State.mapUnread g h) (onResponse t s) := by
  rw [onResponse, onResponse, mapUnread_responseMatches, callResponse_mapUnread, noteResponse_mapUnread]
  split
  · rw [andThen_mapNext, mapNext_andThen]
    rfl
  · rfl

theorem callRequest_mapUnread (v : ServiceId) (d : Half) (payload : List Byte) :
    callRequest v d payload (s.mapUnread g h) = mapState (State.mapUnread g h) (callRequest v d payload s) := by
  rw [callRequest, callRequest, mapUnread_env]
  cases s.env.onRequest with
  | nil => rfl
  | cons a rest =>
    cases a with
    | returned writes len =>
      dsimp only
      rw [mapUnread_answerLegal]
      split <;> rfl
    | reentered => rfl

theorem sendResponse_mapUnread (t : Transfer) (n : Nat) :
    sendResponse t n (s.mapUnread g h) = (sendResponse t n s).mapUnread g h := by
  rw [sendResponse, sendResponse, encodeTransfer_eq, encodeTransfer_eq]
  rfl

theorem noteRequest_mapUnread : noteRequest (s.mapUnread g h) = (noteRequest s).mapUnread g h := by
  rw [noteRequest, noteRequest, mapUnread_identified]
  split <;> rfl

theorem onRequest_mapUnread (t : Transfer) :
    onRequest t (s.mapUnread g h) = mapNext (State.mapUnread g h) (onRequest t s) := by
  rw [onRequest, onRequest, mapUnread_requestAccepted, callRequest_mapUnread, noteRequest_mapUnread]
  split
  · rw [andThen_mapState, mapNext_andThen]
    congr 1
    funext ⟨len, s1⟩
    cases len with
    | none => rfl
    | some n => exact congrArg Host.Outcome.next (sendResponse_mapUnread g h s1 t n)
  · rfl

theorem processTransfer_mapUnread (t : Transfer) :
    processTransfer t (s.mapUnread g h) = mapNext (State.mapUnread g h) (processTransfer t s) := by
  rw [processTransfer, processTransfer, onResponse_mapUnread, onRequest_mapUnread]
  cases classify t.dspec <;> rfl

theorem pollByte_mapUnread (b : Byte) :
    pollByte b (s.mapUnread g h) = mapNext (State.mapUnread g h) (pollByte b s) := by
  rw [pollByte, pollByte, parserStep_mapUnread, andThen_mapState, mapNext_andThen]
  congr 1
  funext ⟨out, s1⟩
  cases out with
  | none => rfl
  | some t => exact processTransfer_mapUnread g h s1 t

/-- A poll from a state with another result and another budget parameter takes the same course. -/
theorem pollLoop_mapUnread (k : Nat) :
    pollLoop k (s.mapUnread g h) = mapNext (State.mapUnread g h) (pollLoop k s) := by
  induction k generalizing s with
  | zero => rfl
  | succ k ih =>
    rw [pollLoop, pollLoop, rxTake_mapUnread]
    obtain ⟨a, s1⟩ := rxTake s
    cases a with
    | none => rfl
    | some b =>
      dsimp only
      rw [pollByte_mapUnread, andThen_mapNext, mapNext_andThen]
      exact congrArg _ (funext ih)

end

/-! ### A poll as instructions (R184, R185) -/

theorem processTransfer_answer (r : Result) (t : Transfer) (s : State) :
    processTransfer t (s.answer r) = mapNext (State.answer · r) (processTransfer t s) :=
  processTransfer_mapUnread (fun _ => r) id s t

theorem pollLoop_answer (r : Result) (k : Nat) (s : State) :
    pollLoop k (s.answer r) = mapNext (State.answer · r) (pollLoop k s) :=
  pollLoop_mapUnread (fun _ => r) id s k

/-- A class instruction runs on the state that `PARSE.UPDATE` left, which differs by the result; with the results put
aside, the instructions take the course of the loop. -/
theorem pollByInstructions_answer (k : Nat) (s : State) :
    mapNext (State.answer · .none) (pollByInstructions k s) = pollLoop k (s.answer .none) := by
  induction k generalizing s with
  | zero => rfl
  | succ k ih =>
    have htake : rxTake (s.answer .none) = ((rxTake s).1, (rxTake s).2.answer .none) :=
      rxTake_mapUnread (fun _ => .none) id s
    rw [pollByInstructions, pollLoop, htake]
    obtain ⟨a, s1⟩ := rxTake s
    cases a with
    | none => rfl
    | some b =>
      have hparse : parserStep b (s1.answer .none) = mapState (State.answer · .none) (parserStep b s1) :=
        parserStep_mapUnread (fun _ => .none) id s1 b
      dsimp only
      rw [exec_parseUpdate, execParseUpdate, pollByte, hparse, andThen_mapState]
      cases parserStep b s1 with
      | fault | refused => rfl
      | next r =>
        obtain ⟨out, s2⟩ := r
        cases out with
        | none => exact ih (s2.answer (.transfer none))
        | some t =>
          calc mapNext (State.answer · .none) (andThen (exec (decodeTransfer t) (s2.answer (.transfer (some t))))
                (pollByInstructions k))
            _ = andThen (processTransfer t (s2.answer (.transfer (some t)))) fun s3 =>
                pollLoop k (s3.answer .none) := by
              rw [mapNext_andThen, exec_decodeTransfer, funext ih]
            _ = andThen (processTransfer t (s2.answer .none)) (pollLoop k) := by
              rw [← andThen_mapNext (State.answer · .none), ← processTransfer_answer]
              rfl

/-- Settles O40: the loop does not read the results of the instructions, and the poll's own result replaces them. -/
theorem pollRunsParserAndClasses : Obligations.PollRunsParserAndClasses := fun s _ =>
  ((pollByInstructions_answer s.cfg.pollBudget s).trans (pollLoop_answer .none _ s)).symm

/-! ### The split of a poll (R203) -/

/-- Where a driver's first answers are bytes, the loop over more of them is the loop over these and then the rest. -/
theorem pollLoop_add (a b : Nat) (s : State) (hbytes : ∀ k, k < a → ∃ x, s.env.rx[k]? = some (some x)) :
    pollLoop (a + b) s = andThen (pollLoop a s) (pollLoop b) := by
  induction a generalizing s with
  | zero => rw [Nat.zero_add]; rfl
  | succ a ih =>
    obtain ⟨x, hx⟩ := hbytes 0 (Nat.succ_pos a)
    have hhead := head?_join_eq_some.2 hx
    rw [Nat.succ_add, pollLoop_succ_some _ hhead, pollLoop_succ_some _ hhead, andThen_assoc]
    cases hbyte : pollByte x (rxTake s).2 with
    | fault | refused => rfl
    | next s1 =>
      have hrx : s1.env.rx = s.env.rx.tail := (pollByte_rx hbyte).trans (rxTake_rx s)
      refine ih s1 fun k hk => ?_
      obtain ⟨y, hy⟩ := hbytes (k + 1) (Nat.succ_lt_succ hk)
      exact ⟨y, by rw [hrx, List.getElem?_tail, hy]⟩

/-- The state in which polls of any budget and with any earlier result are compared. -/
def State.pollView (c : Nat) (s : State) : State := s.mapUnread (fun _ => .none) fun _ => c

/-- A poll of a block of any budget is the loop of that many bytes, where the budget parameter is put aside. -/
theorem nodePoll_withBudget {f : State → State} {c : Nat} (hf : ∀ s : State, f (s.answer .none) = s.pollView c)
    (n : Nat) (s : State) (time : BitVec 64) :
    mapNext f (exec (.nodePoll time) (s.withBudget n)) = pollLoop n (s.pollView c) :=
  calc mapNext f (exec (.nodePoll time) (s.withBudget n))
    _ = andThen (pollLoop n (s.withBudget n)) fun s' => .next (f (s'.answer .none)) := mapNext_andThen _ _ _
    _ = mapNext (State.pollView c) (pollLoop n (s.withBudget n)) :=
      congrArg _ (funext fun s' => congrArg Host.Outcome.next (hf s'))
    _ = pollLoop n (s.pollView c) := (pollLoop_mapUnread _ _ (s.withBudget n) n).symm

/-- Settles O42: with the budget parameter and the results put aside, each poll is its loop, and the loops add up. -/
theorem pollSplitsAnywhere : Obligations.PollSplitsAnywhere := by
  refine ⟨fun a b c s time time1 time2 hbytes => ?_, pollLoop_add⟩
  calc mapNext (State.withBudget c) (exec (.nodePoll time) (s.withBudget (a + b)))
    _ = pollLoop (a + b) (s.pollView c) := nodePoll_withBudget (fun _ => rfl) (a + b) s time
    _ = andThen (pollLoop a (s.pollView c)) (pollLoop b) := pollLoop_add a b _ hbytes
    _ = andThen (exec (.nodePoll time1) (s.withBudget a)) fun s' => pollLoop b (s'.pollView c) := by
      rw [← nodePoll_withBudget (f := State.pollView c) (fun _ => rfl) a s time1, andThen_mapNext]
    _ = mapNext (State.withBudget c) (andThen (exec (.nodePoll time1) (s.withBudget a)) fun s' =>
        exec (.nodePoll time2) (s'.withBudget b)) := by
      rw [mapNext_andThen]
      exact congrArg _ (funext fun s' => (nodePoll_withBudget (fun _ => rfl) b s' time2).symm)

end Sys2Proof.Machine
end

section
/-! PROOFS of the family 60_exceptions: what a step runs; that an admitted step from a state of the invariant with a
reactor inside its contract completes, and a poll with it; what an anonymous node leaves undone; and that no instruction
reads the ghosts. -/

namespace Sys2Proof.Machine

/-! ### What a step runs (R235, R242, R260) -/

section
variable {s : State} {enc : Encoded} {rest : List Presentation} {i : Instr}

/-- An instruction presented at the port is taken from it and run. -/
theorem step_of_decode (hhost : s.env.host = .op enc :: rest) (hdec : decode enc = .ok i) :
    step s = runDecoded enc i (s.taken rest) := by
  rw [step, hhost]
  dsimp only
  rw [hdec]

/-- What is no header or payload byte is the whole step. -/
theorem runDecoded_of_ne_offset (h : ∀ o e, enc ≠ .offset o e) : runDecoded enc i s = exec i s := by
  cases enc with
  | offset o e => exact absurd rfl (h o e)
  | command | wire | dataSpec => rfl

/-- A header or payload byte that the parser selects runs its rule between the two halves of R129. -/
theorem runDecoded_offset {o : Nat} {e : Byte} (h : s.selects o = true) :
    runDecoded (.offset o e) (decodeOffset o e) s = .next (afterRule o (routeByte o e (beforeRule e s))) := by
  rw [runDecoded, if_pos h, exec_decodeOffset, andThen_next]

theorem runDecoded_offset_refused {o : Nat} {e : Byte} (h : ¬s.selects o = true) :
    runDecoded (.offset o e) i s = .refused .offsetNotSelected := if_neg h

end

theorem selects_iff {s : State} {o : Nat} : s.selects o = true ↔ s.p.inside = true ∧ s.p.offset = o := by
  rw [State.selects, Bool.and_eq_true, beq_iff_eq]

/-- Settles O56, by what is presented; the offset advances as `advance_routeByte` says. -/
theorem stepRunsTheDecodedInstruction : Obligations.StepRunsTheDecodedInstruction := by
  refine ⟨fun s enc rest i hhost hdec _ hne => ?_, fun s o e rest hhost => ?_, fun s hhost => ?_,
    fun s e1 e2 rest hhost => ?_⟩
  · rw [step_of_decode hhost hdec, runDecoded_of_ne_offset hne]
    rfl
  · rw [step_of_decode hhost rfl]
    split_ifs with hsel
    · refine ⟨beforeRule e (s.taken rest), _, rfl, rfl, rfl, rfl, rfl, rfl, rfl, exec_decodeOffset _ _ _, ?_⟩
      rw [runDecoded_offset (s := s.taken rest) (selects_iff.2 hsel), afterRule, advance_routeByte]
      rfl
    · exact runDecoded_offset_refused (mt selects_iff.1 hsel)
  · rw [step, hhost]
  · rw [step, hhost]

/-! ### An anonymous node (R232) -/

/-- Settles O47: without an identity no response matches, no request is accepted, and both sends end before the
encoder. -/
theorem anonymousNodeDoesNothing : Obligations.AnonymousNodeDoesNothing := by
  intro s t service server subject tid payload hanon
  obtain ⟨-, -, hresponse⟩ := responseDeliveredOrDropped s t
  obtain ⟨hrequest, -⟩ := requestServedOrDropped s t
  refine ⟨hresponse fun ⟨_, hid, _⟩ => hid hanon, hrequest fun ⟨hid, _⟩ => hid hanon, fun hlen => ⟨?_, ?_⟩⟩
  · obtain ⟨hsend, -⟩ := sendRequestRecordsOnSuccess s service server tid payload hlen
    exact hsend hanon
  · obtain ⟨hpublish, -⟩ := publishOffersTheMessage s subject tid payload hlen
    exact hpublish hanon

/-! ### A reactor inside its contract (R202, R241) -/

theorem reactorLegal_iff {s : State} : s.reactorLegal = true ↔
    (∀ a ∈ s.env.onResponse, a = .returned) ∧ ∀ a ∈ s.env.onRequest, a.legal s.cfg = true := by
  simp [State.reactorLegal]

/-- A reactor that lists only lawful answers to `processResponse` returns from it. -/
theorem callResponse_of_legal {s : State} (h : s.reactorLegal = true) (payload : List Byte) :
    ∃ t, callResponse payload s = .next t := by
  obtain ⟨hresponses, -⟩ := reactorLegal_iff.1 h
  exact ⟨_, callResponse_of_head fun hhead => by cases hresponses _ (List.mem_of_mem_head? hhead)⟩

/-- A reactor that lists only lawful answers to `processRequest` returns from it. -/
theorem callRequest_of_legal {s : State} (h : s.reactorLegal = true) (v : ServiceId) (d : Half) (payload : List Byte) :
    ∃ r, callRequest v d payload s = .next r := by
  obtain ⟨-, hrequests⟩ := reactorLegal_iff.1 h
  rw [callRequest]
  cases hanswers : s.env.onRequest with
  | nil => exact ⟨_, rfl⟩
  | cons a rest =>
    have ha : a.legal s.cfg = true := hrequests a (by simp [hanswers])
    cases a with
    | returned writes len => exact ⟨_, if_pos ha⟩
    | reentered => cases ha

/-- The answers a class has not consumed are still lawful. -/
theorem ClassKeeps.reactorLegal {s t : State} (h : ClassKeeps s t) (hlegal : s.reactorLegal = true) :
    t.reactorLegal = true := by
  obtain ⟨hresponses, hrequests⟩ := reactorLegal_iff.1 hlegal
  have hcfg : t.cfg = s.cfg := h.parserUntouched.cfg
  exact reactorLegal_iff.2 ⟨fun a ha => hresponses a (h.responses a ha),
    fun a ha => hcfg ▸ hrequests a (h.requests a ha)⟩

/-! ### What completes from a lawful state (R220) -/

/-- A state of the invariant whose reactor keeps its contract. -/
structure State.Lawful (s : State) : Prop where
  inv : s.Inv
  legal : s.reactorLegal = true

theorem ClassKeeps.lawful {s t : State} (hkeeps : ClassKeeps s t) (h : s.Lawful) : t.Lawful :=
  ⟨h.inv.untouched hkeeps.parserUntouched, hkeeps.reactorLegal h.legal⟩

section
variable {s : State} (h : s.Lawful)
include h

/-- A response completes: only the call of the reactor could stop it. -/
theorem State.Lawful.onResponse (r : Transfer) : ∃ t, onResponse r s = .next t ∧ ClassKeeps s t := by
  have hnext : ∃ t, Machine.onResponse r s = .next t := by
    unfold Machine.onResponse
    split
    · obtain ⟨t, ht⟩ := callResponse_of_legal h.legal r.payload
      exact ⟨_, by rw [ht, andThen_next]⟩
    · exact ⟨_, rfl⟩
  obtain ⟨t, ht⟩ := hnext
  obtain ⟨hkeeps, -⟩ := onResponse_keeps ht
  exact ⟨t, ht, hkeeps⟩

/-- A request completes: only the call of the reactor could stop it. -/
theorem State.Lawful.onRequest (r : Transfer) : ∃ t, onRequest r s = .next t ∧ ClassKeeps s t := by
  have hnext : ∃ t, Machine.onRequest r s = .next t := by
    unfold Machine.onRequest
    split
    · obtain ⟨⟨len, t⟩, ht⟩ := callRequest_of_legal h.legal (serviceOf r.dspec) r.src r.payload
      rw [ht, andThen_next]
      cases len <;> exact ⟨_, rfl⟩
    · exact ⟨_, rfl⟩
  obtain ⟨t, ht⟩ := hnext
  obtain ⟨hkeeps, -⟩ := onRequest_keeps ht
  exact ⟨t, ht, hkeeps⟩

theorem State.Lawful.processTransfer (r : Transfer) : ∃ t, processTransfer r s = .next t ∧ ClassKeeps s t := by
  unfold Machine.processTransfer
  cases classify r.dspec with
  | response => exact h.onResponse r
  | request => exact h.onRequest r
  | message => exact ⟨_, rfl, .refl s _⟩

/-- A byte is parsed: only an unwritten byte of the buffer could stop it. -/
theorem State.Lawful.parserStep (b : Byte) : ∃ r, parserStep b s = .next r ∧ r.2.Lawful := by
  obtain ⟨t, ht, -⟩ := h.inv.exec_parseUpdate b
  obtain ⟨r, hr, -⟩ := andThen_eq_next.1 ht
  obtain ⟨p, v, f, l, hs⟩ := parserStep_keeps hr
  exact ⟨r, hr, inv_keptByUnits.parserStep h.inv hr, by rw [hs]; exact h.legal⟩

theorem State.Lawful.pollByte (b : Byte) : ∃ t, pollByte b s = .next t ∧ t.Lawful := by
  obtain ⟨⟨out, s1⟩, h1, hlawful⟩ := h.parserStep b
  rw [Machine.pollByte, h1, andThen_next]
  cases out with
  | some r =>
    obtain ⟨t, ht, hkeeps⟩ := hlawful.processTransfer r
    exact ⟨t, ht, hkeeps.lawful hlawful⟩
  | none => exact ⟨s1, rfl, hlawful⟩

theorem State.Lawful.rxTake : (rxTake s).2.Lawful := by
  rw [rxTake_eq]
  exact ⟨h.inv.untouched ⟨rfl, rfl, rfl, rfl, id⟩, h.legal⟩

theorem State.Lawful.pollLoop (k : Nat) : ∃ t, pollLoop k s = .next t ∧ t.Lawful := by
  induction k generalizing s with
  | zero => exact ⟨s, rfl, h⟩
  | succ k ih =>
    cases hhead : s.env.rx.head?.join with
    | none => exact ⟨_, pollLoop_succ_none k hhead, h.rxTake⟩
    | some b =>
      obtain ⟨s1, h1, hlawful⟩ := h.rxTake.pollByte b
      rw [pollLoop_succ_some k hhead, h1, andThen_next]
      exact ih hlawful

theorem State.Lawful.nodePoll (time : BitVec 64) :
    ∃ t, exec (.nodePoll time) s = .next t ∧ t.result = .none ∧ t.reactorLegal = true := by
  obtain ⟨t, ht, hlawful⟩ := h.pollLoop s.cfg.pollBudget
  exact ⟨t.answer .none, by rw [exec_nodePoll, execNodePoll, ht, andThen_next], rfl, hlawful.legal⟩

end

/-- Settles O44: the poll completes, and what it keeps is said of every poll that does. -/
theorem pollCompletes : Obligations.PollCompletes := by
  intro s time hinv hlegal
  obtain ⟨t, ht, hresult, -⟩ := State.Lawful.nodePoll ⟨hinv, hlegal⟩ time
  obtain ⟨hcfg, hu, hid⟩ := execNodePoll_keeps (time := time) ht
  obtain ⟨hserver, hservice, htid, hvalid⟩ := execNodePoll_recordKept (time := time) ht
  exact ⟨t, ht, hresult, hu, hcfg, hid, hserver, hservice, htid, hvalid⟩

section
variable {s : State} {i : Instr} (h : s.Lawful)
include h

theorem State.Lawful.parserInstr (hi : IsParserInstr i) : ∃ t, exec i s = .next t ∧ t.reactorLegal = true := by
  have hnext : ∃ t, exec i s = .next t := by
    cases hi with
    | parseReset | symEsc | symData => exact ⟨_, rfl⟩
    | parseUpdate b => obtain ⟨t, ht, -⟩ := h.inv.exec_parseUpdate b; exact ⟨t, ht⟩
    | symDelim => obtain ⟨t, ht, -⟩ := h.inv.execSymDelim_next; exact ⟨t, ht⟩
    | offset o e => exact ⟨_, exec_decodeOffset o e s⟩
  obtain ⟨t, ht⟩ := hnext
  obtain ⟨p, v, f, l, r, rfl⟩ := hi.next ht
  exact ⟨_, ht, h.legal⟩

/-- An operation completes; the length of its payload is the precondition of those that send (R169). -/
theorem State.Lawful.operation (hi : IsOperation i) (hadm : i.admitted s.cfg = true) :
    ∃ t, exec i s = .next t ∧ t.reactorLegal = true := by
  cases hi with
  | crcReset | crcUpdate | crcValue | crcResidueOk | nodeCancelRequest | nodeSetId => exact ⟨_, rfl, h.legal⟩
  | parseReset => exact h.parserInstr .parseReset
  | parseUpdate b => exact h.parserInstr (.parseUpdate b)
  | encEncode r =>
    obtain ⟨l, ht⟩ := encodeOffersTheFrame s r (of_decide_eq_true hadm)
    exact ⟨_, ht, h.legal⟩
  | nodePoll time =>
    obtain ⟨t, ht, -, hlegal⟩ := h.nodePoll time
    exact ⟨t, ht, hlegal⟩
  | nodeSendRequest service server tid payload =>
    obtain ⟨hanon, haccepted, hrefused⟩ :=
      sendRequestRecordsOnSuccess s service server tid payload (of_decide_eq_true hadm)
    by_cases hid : s.n.localId = 0xFFFF
    · obtain ⟨l, ht⟩ := hanon hid
      exact ⟨_, ht, h.legal⟩
    · cases hall : allAccepted (frameOffers (requestTransfer service server tid payload s) s) with
      | true => exact ⟨_, haccepted hid hall, h.legal⟩
      | false =>
        obtain ⟨l, ht⟩ := hrefused hid hall
        exact ⟨_, ht, h.legal⟩
  | nodePublish subject tid payload =>
    obtain ⟨hanon, hidentified⟩ := publishOffersTheMessage s subject tid payload (of_decide_eq_true hadm)
    by_cases hid : s.n.localId = 0xFFFF
    · obtain ⟨l, ht⟩ := hanon hid
      exact ⟨_, ht, h.legal⟩
    · obtain ⟨l, ht⟩ := hidentified hid
      exact ⟨_, ht, h.legal⟩

/-- An admitted instruction completes, whichever unit runs it. -/
theorem State.Lawful.exec (hadm : i.admitted s.cfg = true) : ∃ t, exec i s = .next t ∧ t.reactorLegal = true := by
  rcases instr_kinds i with hi | hi | ⟨r, rfl | rfl | rfl⟩
  · exact h.operation hi hadm
  · exact h.parserInstr hi
  · obtain ⟨t, ht, hkeeps⟩ := h.onResponse r
    exact ⟨t, ht, hkeeps.reactorLegal h.legal⟩
  · obtain ⟨t, ht, hkeeps⟩ := h.onRequest r
    exact ⟨t, ht, hkeeps.reactorLegal h.legal⟩
  · exact ⟨_, rfl, h.legal⟩

end

/-- What `State.admits` asks of an instruction presented at the port. -/
theorem admits_op {s : State} {enc : Encoded} {rest : List Presentation} (hhost : s.env.host = .op enc :: rest)
    (h : s.admits = true) :
    (∃ o e, enc = .offset o e ∧ s.selects o = true) ∨
    (∀ o e, enc ≠ .offset o e) ∧ ∃ i, decode enc = .ok i ∧ i.admitted s.cfg = true := by
  rw [State.admits, hhost] at h
  cases enc with
  | offset o e => exact .inl ⟨o, e, rfl, h⟩
  | command code operands =>
    dsimp only at h
    cases hdec : decode (.command code operands) with
    | ok i => rw [hdec] at h; exact .inr ⟨nofun, i, rfl, h⟩
    | error => rw [hdec] at h; cases h
  | wire b => exact .inr ⟨nofun, _, rfl, h⟩
  | dataSpec r => exact .inr ⟨nofun, _, rfl, h⟩

/-- A header or payload byte that the parser selects completes, and calls no reactor. -/
theorem runDecoded_offset_legal {s : State} {o : Nat} (e : Byte) (h : s.selects o = true)
    (hlegal : s.reactorLegal = true) :
    ∃ t, runDecoded (.offset o e) (decodeOffset o e) s = .next t ∧ t.reactorLegal = true := by
  refine ⟨_, runDecoded_offset h, ?_⟩
  rw [afterRule, advance_eq]
  obtain ⟨p, f, l, hs⟩ := routeByte_keeps o e (beforeRule e s)
  rw [hs]
  exact hlegal

/-- An admitted step completes, and keeps what is left of the reactor's answers inside their contract. -/
theorem State.Lawful.step {s : State} (h : s.Lawful) (hadm : s.admits = true) :
    ∃ t, step s = .next t ∧ t.reactorLegal = true := by
  cases hhost : s.env.host with
  | nil => exact ⟨s, by rw [Machine.step, hhost], h.legal⟩
  | cons pres rest =>
    have htaken : (s.taken rest).Lawful := ⟨h.inv.untouched ⟨rfl, rfl, rfl, rfl, id⟩, h.legal⟩
    cases pres with
    | hardwareReset => exact ⟨hardReset (s.taken rest), by rw [Machine.step, hhost], h.legal⟩
    | simultaneous e1 e2 => rw [State.admits, hhost] at hadm; cases hadm
    | op enc =>
      rcases admits_op hhost hadm with ⟨o, e, rfl, hsel⟩ | ⟨hne, i, hdec, hi⟩
      · rw [step_of_decode hhost rfl]
        exact runDecoded_offset_legal (s := s.taken rest) e hsel h.legal
      · rw [step_of_decode hhost hdec, runDecoded_of_ne_offset hne]
        exact htaken.exec hi

/-- Settles O54: an admitted step completes, and a step that completes keeps the invariant. -/
theorem admittedStepNeverStops : Obligations.AdmittedStepNeverStops := by
  intro s hinv hlegal hadm
  obtain ⟨t, ht, htlegal⟩ := State.Lawful.step ⟨hinv, hlegal⟩ hadm
  exact ⟨t, ht, stepKeepsInvariant s t hinv ht, htlegal⟩

/-! ### The ghosts are never read (R226, R60) -/

/-- The same block beside the ghosts. -/
def State.SameBlock (s t : State) : Prop := s.withoutGhosts = t.withoutGhosts

/-- The same value beside the same block. -/
def SamePair {α : Type} (x y : α × State) : Prop := x.1 = y.1 ∧ x.2.SameBlock y.2

/-- The same stop, or values in this relation. -/
inductive SameOutcome {α : Type} (R : α → α → Prop) :
    Host.Outcome α Fault Refusal → Host.Outcome α Fault Refusal → Prop where
  | next {a b : α} : R a b → SameOutcome R (.next a) (.next b)
  | fault (r : Fault) : SameOutcome R (.fault r) (.fault r)
  | refused (r : Refusal) : SameOutcome R (.refused r) (.refused r)

theorem SameOutcome.andThen {α β : Type} {R : α → α → Prop} {Q : β → β → Prop}
    {o o' : Host.Outcome α Fault Refusal} {f f' : α → Host.Outcome β Fault Refusal} (h : SameOutcome R o o')
    (hf : ∀ a b, R a b → SameOutcome Q (f a) (f' b)) : SameOutcome Q (andThen o f) (andThen o' f') := by
  cases h with
  | next hab => exact hf _ _ hab
  | fault r => exact .fault r
  | refused r => exact .refused r

theorem SameOutcome.mapNext_eq {o o' : Host.Outcome State Fault Refusal} (h : SameOutcome State.SameBlock o o') :
    mapNext State.withoutGhosts o = mapNext State.withoutGhosts o' := by
  cases h with
  | next hab => exact congrArg Host.Outcome.next hab
  | fault r => rfl
  | refused r => rfl

section
variable {s t : State} (h : s.SameBlock t)
include h

/-- What is read of a state without its ghosts is the same of the same block. -/
theorem State.SameBlock.read {α : Type} {f : State → α} (hf : ∀ x, f x = f x.withoutGhosts) : f t = f s :=
  calc f t
    _ = f t.withoutGhosts := hf t
    _ = f s.withoutGhosts := congrArg f (Eq.symm h)
    _ = f s := (hf s).symm

/-- An update that takes the ghosts into the ghosts alone keeps the block the same. -/
theorem State.SameBlock.map {f : State → State} (hf : ∀ x, (f x).SameBlock (f x.withoutGhosts)) :
    (f s).SameBlock (f t) :=
  (h.read (f := fun x => (f x).withoutGhosts) hf).symm

/-- An update of the labels alone keeps the block the same. -/
theorem State.SameBlock.label {f : State → State} (hf : ∀ x, ∃ l, f x = { x with labels := l }) :
    (f s).SameBlock (f t) := by
  obtain ⟨l1, h1⟩ := hf s
  obtain ⟨l2, h2⟩ := hf t
  rw [h1, h2]
  exact h

theorem State.SameBlock.cfg_eq : t.cfg = s.cfg := h.read fun _ => rfl

theorem State.SameBlock.p_eq : t.p = s.p := h.read fun _ => rfl

theorem State.SameBlock.env_eq : t.env = s.env := h.read fun _ => rfl

theorem State.SameBlock.note (c : Cause) : (s.note c).SameBlock (t.note c) := h

theorem State.SameBlock.answer (r : Result) : (s.answer r).SameBlock (t.answer r) :=
  h.map (f := (State.answer · r)) fun _ => rfl

/-! The parser. -/

theorem State.SameBlock.ageView : (ageView s).SameBlock (ageView t) := h

theorem State.SameBlock.handOutView (n : Nat) : (handOutView n s).SameBlock (handOutView n t) := h

theorem State.SameBlock.reopen : (reopen s).SameBlock (reopen t) := h.map fun _ => rfl

theorem State.SameBlock.absorb (e : Byte) : (absorb e s).SameBlock (absorb e t) := h.map fun _ => rfl

theorem State.SameBlock.routeByte (o : Nat) (e : Byte) : (routeByte o e s).SameBlock (routeByte o e t) :=
  h.map fun x => by
    unfold Machine.routeByte
    cases offsetRule o with
    | version => dsimp only [decodeVersion]; split <;> rfl
    | priority | source | destination | dataSpec | reserved | transferId => rfl
    | eotMarker k => dsimp only [decodeEotMarker]; split <;> rfl
    | headerCrc k =>
      dsimp only [decodeHeaderCrc]
      rw [withoutGhosts_cfg, withoutGhosts_p]
      split_ifs <;> rfl
    | payload i => dsimp only [storePayload]; rw [withoutGhosts_cfg]; split <;> rfl

theorem State.SameBlock.advance (o : Nat) : (advance o s).SameBlock (advance o t) :=
  h.map fun x => by rw [advance_eq, advance_eq]; rfl

theorem State.SameBlock.dataSymbol (b : Byte) : (dataSymbol b s).SameBlock (dataSymbol b t) := by
  by_cases hin : s.p.inside = true
  · rw [dataSymbol_of_inside b hin, dataSymbol_of_inside b (h.p_eq ▸ hin), h.p_eq]
    exact ((h.ageView.absorb _).routeByte _ _).advance _
  · have hout : s.p.inside = false := Bool.eq_false_iff.2 hin
    rw [dataSymbol_of_outside b hout, dataSymbol_of_outside b (h.p_eq ▸ hout)]
    exact h.ageView.note _

theorem State.SameBlock.escSymbol : (escSymbol s).SameBlock (escSymbol t) :=
  h.map fun x => by
    have hp : (Machine.escSymbol x).p = (Machine.escSymbol x.withoutGhosts).p := by
      rw [escSymbol_p, escSymbol_p, withoutGhosts_p]
    obtain ⟨p1, v1, f1, l1, h1⟩ := escSymbol_keeps x
    obtain ⟨p2, v2, f2, l2, h2⟩ := escSymbol_keeps x.withoutGhosts
    rw [h1, h2] at hp ⊢
    cases hp
    rfl

/-- The transfer of a delimiter is built from the registers and the buffer (R125). -/
theorem State.SameBlock.delimRule : SameOutcome SamePair (delimRule s) (delimRule t) := by
  rw [Machine.delimRule, Machine.delimRule, emission_congr h.cfg_eq h.p_eq]
  cases emission s with
  | fault r => exact .fault r
  | refused r => exact .refused r
  | next out =>
    cases out with
    | some r => exact .next ⟨rfl, (h.handOutView _).reopen⟩
    | none => exact .next ⟨rfl, (h.label noteClose_eq).reopen⟩

theorem State.SameBlock.parserStep (b : Byte) : SameOutcome SamePair (parserStep b s) (parserStep b t) := by
  unfold Machine.parserStep
  cases symbolOf b with
  | delim => exact h.ageView.delimRule
  | esc => exact .next ⟨rfl, h.escSymbol⟩
  | data => exact .next ⟨rfl, h.dataSymbol b⟩

theorem State.SameBlock.parseUpdate (b : Byte) :
    SameOutcome State.SameBlock (execParseUpdate b s) (execParseUpdate b t) := by
  refine (h.parserStep b).andThen fun x y ⟨hout, hparsed⟩ => ?_
  rw [answerTransfer, answerTransfer, hout]
  exact .next (hparsed.answer _)

theorem State.SameBlock.parserInstr {i : Instr} (hi : IsParserInstr i) :
    SameOutcome State.SameBlock (exec i s) (exec i t) := by
  cases hi with
  | parseReset => exact .next (h.map (f := fun x => (parserClear x).answer .none) fun _ => rfl)
  | parseUpdate b => exact h.parseUpdate b
  | symDelim => exact h.parseUpdate Config.frameDelimiter
  | symEsc => exact h.parseUpdate Config.escapeByte
  | symData b => exact .next ((h.dataSymbol b).answer _)
  | offset o e =>
    rw [exec_decodeOffset, exec_decodeOffset]
    exact .next (h.routeByte o e)

/-! The encoder and the classes. -/

/-- An encoding makes the same offers. -/
theorem State.SameBlock.encodeTransfer (r : Transfer) : SamePair (encodeTransfer r s) (encodeTransfer r t) := by
  have hoffers : frameOffers r t = frameOffers r s := h.read fun _ => rfl
  rw [encodeTransfer_eq, encodeTransfer_eq, hoffers]
  exact ⟨rfl, h.map (f := (State.afterOffers · (frameOffers r s))) fun _ => rfl⟩

theorem State.SameBlock.callResponse (payload : List Byte) :
    SameOutcome State.SameBlock (callResponse payload s) (callResponse payload t) := by
  rw [Machine.callResponse, Machine.callResponse, h.env_eq]
  cases s.env.onResponse with
  | nil => exact .next h
  | cons a rest =>
    cases a with
    | returned => exact .next (h.map (f := fun x => { x with env := { s.env with onResponse := rest } }) fun _ => rfl)
    | reentered => exact .refused _

theorem State.SameBlock.onResponse (r : Transfer) :
    SameOutcome State.SameBlock (onResponse r s) (onResponse r t) := by
  have hmatch : t.responseMatches r = s.responseMatches r :=
    h.read (f := (State.responseMatches · r)) fun _ => rfl
  rw [Machine.onResponse, Machine.onResponse, hmatch]
  split
  · refine (h.callResponse _).andThen fun s1 t1 hcalled => .next ?_
    exact hcalled.map (f := fun x => { x with n := { x.n with pendValid := false } }) fun _ => rfl
  · exact .next (h.label noteResponse_eq)

theorem State.SameBlock.callRequest (v : ServiceId) (d : Half) (payload : List Byte) :
    SameOutcome SamePair (callRequest v d payload s) (callRequest v d payload t) := by
  rw [Machine.callRequest, Machine.callRequest, h.env_eq, h.cfg_eq]
  cases s.env.onRequest with
  | nil => exact .next ⟨rfl, h⟩
  | cons a rest =>
    cases a with
    | returned writes len =>
      dsimp only
      split
      · exact .next ⟨rfl, h.map (f := fun x => { x with
          cfg := s.cfg
          n := { x.n with respBuf := memWriteAll x.n.respBuf writes }
          env := { s.env with onRequest := rest } }) fun _ => rfl⟩
      · exact .refused _
    | reentered => exact .refused _

theorem State.SameBlock.sendResponse (r : Transfer) (n : Nat) :
    (sendResponse r n s).SameBlock (sendResponse r n t) := by
  have htransfer : responseTransfer r n t = responseTransfer r n s := h.read fun _ => rfl
  obtain ⟨-, hsent⟩ := h.encodeTransfer (responseTransfer r n s)
  rw [Machine.sendResponse, Machine.sendResponse, htransfer]
  exact hsent

theorem State.SameBlock.onRequest (r : Transfer) :
    SameOutcome State.SameBlock (onRequest r s) (onRequest r t) := by
  have haccept : t.requestAccepted r = s.requestAccepted r :=
    h.read (f := (State.requestAccepted · r)) fun _ => rfl
  rw [Machine.onRequest, Machine.onRequest, haccept]
  split
  · refine (h.callRequest _ _ _).andThen fun ⟨len, s1⟩ ⟨len', t1⟩ ⟨hlen, hcalled⟩ => ?_
    cases hlen
    cases len with
    | some n => exact .next (hcalled.sendResponse r n)
    | none => exact .next hcalled
  · exact .next (h.label noteRequest_eq)

theorem State.SameBlock.processTransfer (r : Transfer) :
    SameOutcome State.SameBlock (processTransfer r s) (processTransfer r t) := by
  unfold Machine.processTransfer
  cases classify r.dspec with
  | response => exact h.onResponse r
  | request => exact h.onRequest r
  | message => exact .next (h.note _)

/-! The operations of the orchestrator. -/

theorem State.SameBlock.rxTake : SamePair (rxTake s) (rxTake t) := by
  rw [rxTake_eq, rxTake_eq, h.env_eq]
  exact ⟨rfl, h.map (f := fun x => { x with env := { s.env with rx := s.env.rx.tail } }) fun _ => rfl⟩

theorem State.SameBlock.pollByte (b : Byte) : SameOutcome State.SameBlock (pollByte b s) (pollByte b t) := by
  refine (h.parserStep b).andThen fun ⟨out, s1⟩ ⟨out', t1⟩ ⟨hout, hparsed⟩ => ?_
  cases hout
  cases out with
  | some r => exact hparsed.processTransfer r
  | none => exact .next hparsed

theorem State.SameBlock.pollLoop (k : Nat) : SameOutcome State.SameBlock (pollLoop k s) (pollLoop k t) := by
  induction k generalizing s t with
  | zero => exact .next h
  | succ k ih =>
    obtain ⟨-, htaken⟩ := h.rxTake
    cases hhead : s.env.rx.head?.join with
    | none =>
      rw [pollLoop_succ_none k hhead, pollLoop_succ_none k (h.env_eq ▸ hhead)]
      exact .next htaken
    | some b =>
      rw [pollLoop_succ_some k hhead, pollLoop_succ_some k (h.env_eq ▸ hhead)]
      exact (htaken.pollByte b).andThen fun _ _ => ih

theorem State.SameBlock.encEncode (r : Transfer) :
    SameOutcome State.SameBlock (execEncEncode r s) (execEncEncode r t) := by
  obtain ⟨hok, hsent⟩ := h.encodeTransfer r
  rw [execEncEncode, execEncEncode, h.cfg_eq]
  dsimp only
  rw [← hok]
  split
  · exact .next ((hsent.label (noteSink_eq _)).answer _)
  · exact .refused _

theorem State.SameBlock.nodeSendRequest (v : ServiceId) (d : Half) (k : Tid) (payload : List Byte) :
    SameOutcome State.SameBlock (execNodeSendRequest v d k payload s) (execNodeSendRequest v d k payload t) := by
  have hid : t.identified = s.identified := h.read fun _ => rfl
  have htransfer : requestTransfer v d k payload t = requestTransfer v d k payload s := h.read fun _ => rfl
  obtain ⟨hok, hsent⟩ := h.encodeTransfer (requestTransfer v d k payload s)
  rw [execNodeSendRequest, execNodeSendRequest, h.cfg_eq, hid, htransfer]
  dsimp only
  rw [← hok]
  split
  · split
    · split
      · exact .next (hsent.map (f := fun x => (recordPending v d k x).answer (.bit true)) fun _ => rfl)
      · exact .next ((hsent.note _).answer _)
    · exact .next ((h.note _).answer _)
  · exact .refused _

theorem State.SameBlock.nodePublish (v : SubjectId) (k : Tid) (payload : List Byte) :
    SameOutcome State.SameBlock (execNodePublish v k payload s) (execNodePublish v k payload t) := by
  have hid : t.identified = s.identified := h.read fun _ => rfl
  have htransfer : publishTransfer v k payload t = publishTransfer v k payload s := h.read fun _ => rfl
  obtain ⟨hok, hsent⟩ := h.encodeTransfer (publishTransfer v k payload s)
  rw [execNodePublish, execNodePublish, h.cfg_eq, hid, htransfer]
  dsimp only
  rw [← hok]
  split
  · split
    · exact .next ((hsent.label (noteSink_eq _)).answer _)
    · exact .next ((h.note _).answer _)
  · exact .refused _

theorem State.SameBlock.operation {i : Instr} (hi : IsOperation i) :
    SameOutcome State.SameBlock (exec i s) (exec i t) := by
  cases hi with
  | crcReset => exact .next (h.map (f := fun x => { x with u := Config.crcInit, result := .none }) fun _ => rfl)
  | crcUpdate b =>
    exact .next (h.map (f := fun x => { x with u := crcStep x.cfg.crcPoly x.u b, result := .none }) fun _ => rfl)
  | crcValue => exact .next (h.map (f := fun x => x.answer (.word (crcFinal x.u))) fun _ => rfl)
  | crcResidueOk => exact .next (h.map (f := fun x => x.answer (.bit (residueCorrect x.cfg x.u))) fun _ => rfl)
  | nodeCancelRequest =>
    exact .next (h.map (f := fun x => { x with n := { x.n with pendValid := false }, result := .none }) fun _ => rfl)
  | nodeSetId id =>
    exact .next (h.map (f := fun x => { x with n := { x.n with localId := id }, result := .none }) fun _ => rfl)
  | parseReset => exact h.parserInstr .parseReset
  | parseUpdate b => exact h.parseUpdate b
  | encEncode r => exact h.encEncode r
  | nodePoll time =>
    rw [exec_nodePoll, exec_nodePoll, execNodePoll, execNodePoll, h.cfg_eq]
    exact (h.pollLoop _).andThen fun _ _ hpolled => .next (hpolled.answer .none)
  | nodeSendRequest v d k payload => exact h.nodeSendRequest v d k payload
  | nodePublish v k payload => exact h.nodePublish v k payload

/-- An instruction does the same to the same block. -/
theorem State.SameBlock.exec (i : Instr) : SameOutcome State.SameBlock (exec i s) (exec i t) := by
  rcases instr_kinds i with hi | hi | ⟨r, rfl | rfl | rfl⟩
  · exact h.operation hi
  · exact h.parserInstr hi
  · exact h.onResponse r
  · exact h.onRequest r
  · exact .next (h.note _)

end

/-- Settles O55: a state and the state without its ghosts are the same block. -/
theorem ghostsAreNeverRead : Obligations.GhostsAreNeverRead := fun i s =>
  (State.SameBlock.exec (s := s) (t := s.withoutGhosts) rfl i).mapNext_eq

end Sys2Proof.Machine
end
